-- ==== Sys2Proof/Word.lean ====
section
/-! DEFINITION. The machine's plain value types: bytes, 32-bit register words, 16-byte blocks, byte
sequences (R9, R10, R11, R13). A block is held as its 128-bit string, whose integer value is int(B)
(R11); Machine/Bytes.lean gives its byte form. -/

namespace Sys2Proof

/-- An unsigned 8-bit value (R9). -/
abbrev Byte := BitVec 8

/-- A 32-bit register or command word (R10, R70). -/
abbrev Word := BitVec 32

/-- A 16-byte block as the 128-bit string of R11: bit 0 of that string is the most significant bit. -/
abbrev Block := BitVec 128

/-- A finite byte sequence, byte 0 first (R9). -/
abbrev Bytes := List Byte

/-- ceil(n / 16): the number of 16-byte chunks of n bytes (R9). -/
def ceil16 (n : Nat) : Nat := (n + 15) / 16

end Sys2Proof
end

