-- ==== Sys2Proof/Machine/Bytes.lean ====
section
/-! DEFINITION. Byte sequences: big-endian integers, the byte form of a block, chunks of 16 bytes,
padding and byte-wise XOR (R9, R10, R53, R190, R191). -/

namespace Sys2Proof.Machine

/-- int(b): the unsigned big-endian value of a byte sequence (R10). -/
def beValue (b : Bytes) : Nat := b.foldl (fun v x => v * 256 + x.toNat) 0

/-- BE_k(v): the k-byte big-endian encoding of v (R10). -/
def beBytes : Nat → Nat → Bytes
  | 0, _ => []
  | k + 1, v => BitVec.ofNat 8 (v / 256 ^ k) :: beBytes k v

/-- The block of 16 bytes: S(B) = int(B) (R11, R171). -/
def blockOfBytes (b : Bytes) : Block := BitVec.ofNat 128 (beValue b)

/-- The 16 bytes of a block (R11, R172). -/
def bytesOfBlock (x : Block) : Bytes := beBytes 16 x.toNat

/-- 0^n (R9). -/
def zeros (n : Nat) : Bytes := List.replicate n 0

/-- of(b): zero-padded on the right or truncated to exactly 16 bytes (R190). -/
def fixedBlock (b : Bytes) : Bytes :=
  if 16 ≤ b.length then b.take 16 else b ++ zeros (16 - b.length)

/-- Byte-wise XOR of two byte sequences of equal length (R9, R191). -/
def xorBytes (a b : Bytes) : Bytes := List.zipWith (fun x y => x ^^^ y) a b

/-- xorInPlace(self, other): none where the lengths differ, the precondition of R191. -/
def xorInPlace (self other : Bytes) : Option Bytes :=
  if self.length = other.length then some (xorBytes self other) else none

/-- The 16-byte pieces of a byte sequence in order, the last one shorter where the length is no multiple
of 16 (R144, R176): chunk j is data[16j .. min(16j+16, len)). -/
def chunks (data : Bytes) : List Bytes :=
  (List.range (ceil16 data.length)).map (fun j => (data.drop (16 * j)).take 16)

/-- A sequence of whole blocks as blocks (R121, R122). -/
def blocksOf (data : Bytes) : List Block := (chunks data).map blockOfBytes

/-- A sequence of blocks as bytes. -/
def bytesOfBlocks (xs : List Block) : Bytes := xs.flatMap bytesOfBlock

end Sys2Proof.Machine
end

