-- ==== Sys2Proof/Config.lean ====
section
/-! DEFINITION. What is fixed for one machine: the named field values of the command word, the
implementation parameters of 00_scope.md section 4 (R5 to R8) and the values the spec leaves
uninterpreted (R100, R101). A constant written `opaque` has no value any proof can use. -/

namespace Sys2Proof

/-- The context index, which is also the direction (R7, R32, R73): 0 = encrypt, 1 = decrypt. -/
inductive Dir where
  | enc
  | dec
  deriving DecidableEq, Repr

/-- The other direction (R216). -/
def Dir.other : Dir → Dir
  | .enc => .dec
  | .dec => .enc

/-- BlockCipherMode (R31, R74): 0 = CBC, 1 = GCM. -/
inductive Mode where
  | cbc
  | gcm
  deriving DecidableEq, Repr

/-- CipherAlgorithm as the 2-bit ALG field holds it (R31, R75): 0 NULL, 1 AES128, 2 AES256, 3 reserved. -/
inductive Alg where
  | null
  | aes128
  | aes256
  | reserved
  deriving DecidableEq, Repr

/-- The outcome of one primitive-failure draw (R101). -/
inductive Draw where
  | ok
  | fail
  deriving DecidableEq, Repr, Inhabited

/-- The parameters of one engine (R6, R8, R101), as plain data. State holds them, no step changes them, and a
statement about every state holds for every value of them: log 5. Params.lean says what they give. -/
structure Configuration where
  /-- log2(BUF_BYTES) - 8: BUF_BYTES is a power of two between 2^8 and 2^24 (R6). -/
  bufLog2Over8 : Fin 17
  /-- The keys of the right length that key setup rejects (R8, R102): log 4. -/
  rejectedKeys : List (Alg × Bytes)
  /-- PRIM_CAN_FAIL (R101). -/
  primCanFail : Bool
  deriving DecidableEq, Repr

/-- The defaults the spec gives: BUF_BYTES = 65536 (R6), keyOk the length check (R102), and PRIM_CAN_FAIL true
(R101). -/
def Configuration.default : Configuration :=
  { bufLog2Over8 := 8, rejectedKeys := [], primCanFail := true }

namespace Config

/-- BLOCK_BYTES (R5). -/
def blockBytes : Nat := 16

/-- NUM_CTX (R7). -/
def numCtx : Nat := 2

/-- REG_BASE (R50): where the host's bus maps REG. No rule uses it. DESIGN CHOICE, safe: log 13. -/
opaque regBase : Nat

/-- BUF_BASE (R50): where the host's bus maps BUF. No rule uses it. DESIGN CHOICE, safe: log 13. -/
opaque bufBase : Nat

/-- E(alg, key, blk), the forward single-block transform, uninterpreted (R8, R100). Safe: log 3. -/
opaque E (alg : Alg) (key : Bytes) (blk : Block) : Block

/-- Einv(alg, key, blk), the inverse single-block transform, uninterpreted (R8, R100). Safe: log 3. -/
opaque Einv (alg : Alg) (key : Bytes) (blk : Block) : Block

/-- The free primitive-failure draw number n (R101): nothing constrains it. Safe: log 2. -/
opaque primDraw (n : Nat) : Draw

end Config

end Sys2Proof
end

