-- ==== Sys2Proof/Syntax.lean ====
section
/-! DEFINITION. The commands of the engine, one constructor per row of spec/opcode_table.json, with the
fields each opcode uses (30_encoding.md R70 to R76). -/

namespace Sys2Proof

/-- A command (R71). The fields are already decoded: no raw encoding goes past Decode.lean. -/
inductive Instr where
  /-- NOP (R106). -/
  | nop
  /-- FB_OF (R192). -/
  | fbOf
  /-- FB_XOR (R193). -/
  | fbXor
  /-- GF_MUL (R177). -/
  | gfMul
  /-- GHASH (R178). -/
  | ghash
  /-- CTX_CREATE with CTX, MODE and ALG (R107). -/
  | ctxCreate (c : Dir) (mode : Mode) (alg : Alg)
  /-- CTX_DESTROY with CTX (R108). -/
  | ctxDestroy (c : Dir)
  /-- CBC_RESEED with CTX (R126). -/
  | cbcReseed (c : Dir)
  /-- CBC_UPDATE with CTX and IVO (R127). -/
  | cbcUpdate (c : Dir) (ivo : Bool)
  /-- GCM_UPDATE with CTX (R149). -/
  | gcmUpdate (c : Dir)
  deriving DecidableEq, Repr

end Sys2Proof
end

