-- ==== Sys2Proof/Decode.lean ====
section
/-! DEFINITION. The decoder of a command word, total on every 32-bit word and rejecting by name (R77,
R78), and after it the encoder, written from the same field table (R70 to R76). -/

namespace Sys2Proof

/-- The assigned opcodes (R71). -/
inductive Opcode where
  | nop
  | fbOf
  | fbXor
  | gfMul
  | ghash
  | ctxCreate
  | ctxDestroy
  | cbcReseed
  | cbcUpdate
  | gcmUpdate
  deriving DecidableEq, Repr

/-- Why a word is no command (R77, R78). -/
inductive Reject where
  /-- OPC is not an assigned opcode. -/
  | opcReserved
  /-- A bit outside the opcode's fields is 1. -/
  | bitsReserved
  deriving DecidableEq, Repr

/-- The OPC value of each opcode (R71). -/
def Opcode.code : Opcode → Byte
  | .nop => 0x00
  | .fbOf => 0x01
  | .fbXor => 0x02
  | .gfMul => 0x03
  | .ghash => 0x04
  | .ctxCreate => 0x10
  | .ctxDestroy => 0x11
  | .cbcReseed => 0x12
  | .cbcUpdate => 0x20
  | .gcmUpdate => 0x21

/-- Every assigned opcode, in the order of R71. -/
def Opcode.all : List Opcode :=
  [.nop, .fbOf, .fbXor, .gfMul, .ghash, .ctxCreate, .ctxDestroy, .cbcReseed, .cbcUpdate, .gcmUpdate]

/-- VAR(opc): the mask of the opcode's variable bits (R72). -/
def Opcode.varMask : Opcode → Word
  | .nop => 0x00000000
  | .fbOf => 0x00000000
  | .fbXor => 0x00000000
  | .gfMul => 0x00000000
  | .ghash => 0x00000000
  | .ctxCreate => 0x00000F00
  | .ctxDestroy => 0x00000100
  | .cbcReseed => 0x00000100
  | .cbcUpdate => 0x00001100
  | .gcmUpdate => 0x00000100

/-- The `match` column of the row (R72). -/
def Opcode.matchWord : Opcode → Word
  | .nop => 0x00000000
  | .fbOf => 0x00000001
  | .fbXor => 0x00000002
  | .gfMul => 0x00000003
  | .ghash => 0x00000004
  | .ctxCreate => 0x00000010
  | .ctxDestroy => 0x00000011
  | .cbcReseed => 0x00000012
  | .cbcUpdate => 0x00000020
  | .gcmUpdate => 0x00000021

/-- The `mask` column of the row (R72). -/
def Opcode.maskWord : Opcode → Word
  | .nop => 0xFFFFFFFF
  | .fbOf => 0xFFFFFFFF
  | .fbXor => 0xFFFFFFFF
  | .gfMul => 0xFFFFFFFF
  | .ghash => 0xFFFFFFFF
  | .ctxCreate => 0xFFFFF0FF
  | .ctxDestroy => 0xFFFFFEFF
  | .cbcReseed => 0xFFFFFEFF
  | .cbcUpdate => 0xFFFFEEFF
  | .gcmUpdate => 0xFFFFFEFF

/-- OPC = w[7:0] (R70). -/
def opcField (w : Word) : Byte := w.setWidth 8

/-- CTX = w[8] (R73). -/
def ctxField (w : Word) : Dir := if w.getLsbD 8 then .dec else .enc

/-- MODE = w[9] (R74). -/
def modeField (w : Word) : Mode := if w.getLsbD 9 then .gcm else .cbc

/-- ALG = w[11:10] (R75). -/
def algField (w : Word) : Alg :=
  if w.getLsbD 11 then (if w.getLsbD 10 then .reserved else .aes256)
  else (if w.getLsbD 10 then .aes128 else .null)

/-- IVO = w[12] (R76). -/
def ivoField (w : Word) : Bool := w.getLsbD 12

/-- The assigned opcode with a given OPC value, none where the value is reserved (R71, R78). -/
def Opcode.ofByte (b : Byte) : Option Opcode := Opcode.all.find? (fun op => op.code == b)

/-- The command of an opcode, its fields taken from the word (R73 to R76). -/
def Opcode.command (op : Opcode) (w : Word) : Instr :=
  match op with
  | .nop => .nop
  | .fbOf => .fbOf
  | .fbXor => .fbXor
  | .gfMul => .gfMul
  | .ghash => .ghash
  | .ctxCreate => .ctxCreate (ctxField w) (modeField w) (algField w)
  | .ctxDestroy => .ctxDestroy (ctxField w)
  | .cbcReseed => .cbcReseed (ctxField w)
  | .cbcUpdate => .cbcUpdate (ctxField w) (ivoField w)
  | .gcmUpdate => .gcmUpdate (ctxField w)

/-- The decode step of R77. -/
def decode (w : Word) : Except Reject Instr :=
  match Opcode.ofByte (opcField w) with
  | none => .error .opcReserved
  | some op =>
    if w &&& ~~~(0x000000FF ||| op.varMask) = 0 then .ok (op.command w) else .error .bitsReserved

/-- The opcode of a command (R71). -/
def Instr.opcode : Instr → Opcode
  | .nop => .nop
  | .fbOf => .fbOf
  | .fbXor => .fbXor
  | .gfMul => .gfMul
  | .ghash => .ghash
  | .ctxCreate _ _ _ => .ctxCreate
  | .ctxDestroy _ => .ctxDestroy
  | .cbcReseed _ => .cbcReseed
  | .cbcUpdate _ _ => .cbcUpdate
  | .gcmUpdate _ => .gcmUpdate

/-- The value of the CTX field (R73). -/
def Dir.bits : Dir → Word
  | .enc => 0
  | .dec => 1

/-- The value of the MODE field (R74). -/
def Mode.bits : Mode → Word
  | .cbc => 0
  | .gcm => 1

/-- The value of the ALG field (R75). -/
def Alg.bits : Alg → Word
  | .null => 0
  | .aes128 => 1
  | .aes256 => 2
  | .reserved => 3

/-- The value of a one-bit field. -/
def bitWord (b : Bool) : Word := if b then 1 else 0

/-- The variable fields of a command, each at its place in the word (R70, R72). -/
def Instr.fieldBits : Instr → Word
  | .nop => 0
  | .fbOf => 0
  | .fbXor => 0
  | .gfMul => 0
  | .ghash => 0
  | .ctxCreate c m a => (c.bits <<< 8) ||| (m.bits <<< 9) ||| (a.bits <<< 10)
  | .ctxDestroy c => c.bits <<< 8
  | .cbcReseed c => c.bits <<< 8
  | .cbcUpdate c ivo => (c.bits <<< 8) ||| (bitWord ivo <<< 12)
  | .gcmUpdate c => c.bits <<< 8

/-- The command word of a command (R70): OPC in the low byte, the fields above it, all else 0. -/
def encode (i : Instr) : Word := (i.opcode.code).setWidth 32 ||| i.fieldBits

/-- The one 32-bit word of a table row given as a number: the bits above `nbits` are 0 (R80: every
command is exactly one word). -/
def tableWord (nbits w : Nat) : Word := BitVec.ofNat 32 (w % 2 ^ nbits)

/-- What the decoder reads from a table word. -/
def decodeTableWord (nbits w : Nat) : Option Instr :=
  match decode (tableWord nbits w) with
  | .ok i => some i
  | .error _ => none

end Sys2Proof
end

