-- ==== Sys2Proof/Machine/Params.lean ====
section
/-! DEFINITION. What a configuration gives: BUF_BYTES (R6, R30), KEY_BYTES and keyOk (R8, R102). -/

namespace Sys2Proof

/-- log2(BUF_BYTES), from 8 to 24 (R6, R30). -/
def Configuration.bufLog2 (p : Configuration) : Nat := 8 + p.bufLog2Over8.val

/-- BUF_BYTES (R6). -/
def Configuration.bufBytes (p : Configuration) : Nat := 2 ^ p.bufLog2

/-- KEY_BYTES(alg) (R8), for the two algorithms that have a key. -/
def Config.keyBytes : Alg → Option Nat
  | .aes128 => some 16
  | .aes256 => some 32
  | .null => none
  | .reserved => none

/-- keyOk(alg, key) (R8, R102): the key has KEY_BYTES(alg) bytes, as R44 asks of every context, and key setup does
not reject it. DEDUCED, safe: log 4. -/
def Configuration.keyOk (p : Configuration) (alg : Alg) (key : Bytes) : Bool :=
  Config.keyBytes alg == some key.length && !p.rejectedKeys.contains (alg, key)

end Sys2Proof
end

