-- ==== Sys2Proof/Machine/HostOp.lean ====
section
/-! DEFINITION. The host's operations on the engine (R51, R52, R81 to R83, R230) and what its reads
return. They are inputs of the machine; State holds the pending ones (log 1). -/

namespace Sys2Proof.Machine

/-- One operation of the host. Offsets and addresses are plain numbers here; WellFormed.lean says which
ones name an access of this interface (R51, R52). -/
inductive HostOp where
  /-- Reset, between two host accesses (R230). -/
  | reset
  /-- WR: a write of a 32-bit word at REG offset `o` (R51, R83). -/
  | writeReg (o : Nat) (v : Word)
  /-- RR: a read of the 32-bit word at REG offset `o` (R51, R83). -/
  | readReg (o : Nat)
  /-- One byte of WB: a write of BUF byte `a` (R52, R83). -/
  | writeBuf (a : Nat) (b : Byte)
  /-- One byte of RB: a read of BUF byte `a` (R52, R83). -/
  | readBuf (a : Nat)
  /-- HALT_CHECK: a read of STATUS; the host stops its program if bit 31 is 1 (R82). -/
  | haltCheck
  /-- An access by a second host agent: no such agent exists (R66). -/
  | secondAgent
  deriving DecidableEq, Repr

/-- What one host read returned. -/
inductive Readout where
  /-- The word read at REG offset `o`. -/
  | reg (o : Nat) (v : Word)
  /-- The byte read at BUF address `a`. -/
  | byte (a : Nat) (b : Byte)
  deriving DecidableEq, Repr

end Sys2Proof.Machine
end

