-- ==== Sys2Proof/Machine/State.lean ====
section
/-! DEFINITION. The state of the engine (10_state.md R20 to R45) as plain data, the reasons a step can
stop, and the state after reset (R43, R230). -/

namespace Sys2Proof.Machine

/-- Why a step stops with a fault. -/
inductive Fault where
  /-- UNINIT_BUF(a): a command or the host read BUF byte `a`, which nothing has written since reset (R65).
  Raised by Memory.readBytes for every command that reads an operand, and by the host's byte read. Safe. -/
  | uninitBuf (a : Nat)
  deriving DecidableEq, Repr

/-- Why a step is refused. -/
inductive Refusal where
  /-- A command of the table without a meaning. Raised by no arm of exec: every command has its meaning. Safe. -/
  | notModelled (mnemonic : String)
  /-- A REG access whose offset is misaligned or past 0xFFC (R51). Raised by the host's register accesses. Safe. -/
  | malformedRegAccess (o : Nat)
  /-- A BUF access at or past BUF_BYTES (R52). Raised by the host's byte accesses. Safe. -/
  | bufAddressOutOfRange (a : Nat)
  /-- An access by a second host agent, which does not exist (R66). Raised by HostOp.secondAgent. Safe. -/
  | secondHostAgent
  deriving DecidableEq, Repr

/-- The values of STATUS.CODE that have a name (R26). -/
inductive Code where
  | ok
  | unsupportedAlgorithm
  | primitiveFailure
  | preconditionViolation
  /-- Reserved: this engine never writes it (R204). -/
  | authenticationFailure
  | illegalCommand
  | noContext
  | modeMismatch
  deriving DecidableEq, Repr

/-- STATUS by its fields (R25); Flags.lean gives the 32-bit word. The reserved bits have no storage: they
read 0, and the host cannot write them (log 9). -/
structure Status where
  code : Code
  lastOpc : Byte
  detail : Byte
  halted : Bool
  deriving DecidableEq, Repr

/-- The seven descriptor registers (R21). -/
structure Descriptors where
  s0Addr : Word
  s0Len : Word
  s1Addr : Word
  s1Len : Word
  s2Addr : Word
  s2Len : Word
  dAddr : Word
  deriving DecidableEq, Repr

/-- One context, the CipherEngineState of a direction (R31). -/
structure Context where
  valid : Bool
  mode : Mode
  alg : Alg
  key : Bytes
  chain : Block
  h : Block
  tag : Block
  tagValid : Bool
  deriving DecidableEq, Repr

/-- The BUF bytes that have been written since reset, by address (R41, R45): WRITTEN[a] is true exactly
where address `a` is listed. Canonical form: Memory.wf. -/
abbrev Memory := List Host.Cell

/-- The architectural state of R20, and the model's own last five fields. -/
structure State where
  /-- The last accepted command word (R24). -/
  cmd : Word
  /-- The outcome of the last command (R25). -/
  status : Status
  /-- The byte count of the last result (R29). -/
  resLen : Word
  /-- The descriptor registers (R21). -/
  desc : Descriptors
  /-- The encrypting context (R31, R32). -/
  ctx0 : Context
  /-- The decrypting context (R31, R32). -/
  ctx1 : Context
  /-- BUF with WRITTEN (R41, R45). -/
  buf : Memory
  /-- The host's pending operations, oldest first. The model's own field: log 1. -/
  host : List HostOp
  /-- What the host's reads returned, oldest first. The model's own field: log 1. -/
  reads : List Readout
  /-- Primitive-failure draws the environment has fixed in advance, oldest first. The model's own field: log 2. -/
  draws : List Draw
  /-- How many draws were taken. The model's own field: log 2. -/
  drawCount : Nat
  /-- The parameters of this engine (R6, R8, R101), which no step changes. The model's own field: log 5. -/
  config : Configuration
  deriving DecidableEq, Repr

/-- STATUS after reset: 0x00000000 (R25, R43). -/
def Status.reset : Status := { code := .ok, lastOpc := 0, detail := 0, halted := false }

/-- The descriptor registers after reset (R21, R43). -/
def Descriptors.reset : Descriptors :=
  { s0Addr := 0, s0Len := 0, s1Addr := 0, s1Len := 0, s2Addr := 0, s2Len := 0, dAddr := 0 }

/-- EMPTY: an invalid context, every field zero (R108, R230). KEY is 0^16 as R230 writes it (DEDUCED, log 7). -/
def Context.empty : Context :=
  { valid := false, mode := .cbc, alg := .null, key := List.replicate 16 0, chain := 0, h := 0,
    tag := 0, tagValid := false }

/-- The machine right after reset (R43, R230). The model's own fields start empty, the draw count at
0 and the parameters at the spec's defaults (DESIGN CHOICE, logs 1, 2 and 5). -/
def State.reset : State :=
  { cmd := 0, status := Status.reset, resLen := 0, desc := Descriptors.reset,
    ctx0 := Context.empty, ctx1 := Context.empty, buf := [],
    host := [], reads := [], draws := [], drawCount := 0, config := .default }

/-- How a step ends. -/
abbrev Result := Host.Outcome State Fault Refusal

end Sys2Proof.Machine
end

