-- ==== Sys2Proof/Machine/Flags.lean ====
section
/-! DEFINITION. What STATUS, PARAMS and CTXc_CFG hold: codes, details, and the words the host reads
(R25 to R30, R37). -/

namespace Sys2Proof.Machine

/-- The errors a command can end in, each with one code and one detail (R27). -/
inductive CmdError where
  | algNull
  | algReserved
  | keySetup
  | inUpdate
  | inCreate
  | cbcLen
  | xorLenMismatch
  | xorLenOverBlock
  | fixedLen
  | bufRange
  | illegal (r : Reject)
  | noContext
  | modeMismatch
  deriving DecidableEq, Repr

/-- The value of STATUS.CODE (R26). -/
def Code.value : Code → BitVec 4
  | .ok => 0
  | .unsupportedAlgorithm => 1
  | .primitiveFailure => 2
  | .preconditionViolation => 3
  | .authenticationFailure => 4
  | .illegalCommand => 5
  | .noContext => 6
  | .modeMismatch => 7

/-- The code of an error (R26, R27). -/
def CmdError.code : CmdError → Code
  | .algNull => .unsupportedAlgorithm
  | .algReserved => .unsupportedAlgorithm
  | .keySetup => .unsupportedAlgorithm
  | .inUpdate => .primitiveFailure
  | .inCreate => .primitiveFailure
  | .cbcLen => .preconditionViolation
  | .xorLenMismatch => .preconditionViolation
  | .xorLenOverBlock => .preconditionViolation
  | .fixedLen => .preconditionViolation
  | .bufRange => .preconditionViolation
  | .illegal _ => .illegalCommand
  | .noContext => .noContext
  | .modeMismatch => .modeMismatch

/-- The detail of an error (R27). -/
def CmdError.detail : CmdError → Byte
  | .algNull => 0x01
  | .algReserved => 0x02
  | .keySetup => 0x03
  | .inUpdate => 0x01
  | .inCreate => 0x02
  | .cbcLen => 0x01
  | .xorLenMismatch => 0x02
  | .xorLenOverBlock => 0x03
  | .fixedLen => 0x04
  | .bufRange => 0x05
  | .illegal .opcReserved => 0x01
  | .illegal .bitsReserved => 0x02
  | .noContext => 0x00
  | .modeMismatch => 0x00

/-- STATUS after a successful command: CODE = OK, the opcode, no detail, not halted (R105). -/
def okStatus (opc : Byte) : Status := { code := .ok, lastOpc := opc, detail := 0, halted := false }

/-- STATUS after a command that raised an error: HALTED exactly for a PRECONDITION_VIOLATION (R28, R211). -/
def errorStatus (opc : Byte) (e : CmdError) : Status :=
  { code := e.code, lastOpc := opc, detail := e.detail, halted := e.code == .preconditionViolation }

/-- STATUS as the host reads it (R25). -/
def Status.word (x : Status) : Word :=
  x.code.value.setWidth 32 ||| (x.lastOpc.setWidth 32 <<< 8) ||| (x.detail.setWidth 32 <<< 16)
    ||| (bitWord x.halted <<< 31)

/-- PARAMS: BLOCK_BYTES, log2(BUF_BYTES) and NUM_CTX (R30). -/
def paramsWord (p : Configuration) : Word :=
  BitVec.ofNat 32 Config.blockBytes ||| (BitVec.ofNat 32 p.bufLog2 <<< 8)
    ||| (BitVec.ofNat 32 Config.numCtx <<< 16)

/-- CTXc_CFG: VALID, MODE, DIR, ALG and TAG_VALID, all 0 for an invalid context (R37). -/
def cfgWord (c : Dir) (x : Context) : Word :=
  if x.valid then
    (1 : Word) ||| (x.mode.bits <<< 1) ||| (c.bits <<< 2) ||| (x.alg.bits <<< 3) ||| (bitWord x.tagValid <<< 5)
  else 0

/-- Word k of a 16-byte view: bytes 4k .. 4k+3, byte 4k in bits 31:24 (R38, R39, R54). -/
def viewWord (b : Block) (k : Fin 4) : Word := b.extractLsb' (96 - 32 * k.val) 32

end Sys2Proof.Machine
end

