-- ==== Sys2Proof/Machine/Memory.lean ====
section
/-! DEFINITION. BUF (R41, R45, R50, R52, R65): one byte read and written, and byte sequences built from
them. An unlisted address reads as nothing: a byte that nothing has written since reset. -/

namespace Sys2Proof.Machine

/-- The byte at an address, none where WRITTEN is false (R45, R65). -/
def Memory.read : Memory → Nat → Option Byte
  | [], _ => none
  | (x, y) :: rest, a => if x = a then some y else Memory.read rest a

/-- WRITTEN[a] (R45). -/
def Memory.written (m : Memory) (a : Nat) : Bool := (m.read a).isSome

/-- One byte written, which sets WRITTEN[a]; the list stays in rising order (R45, R52). -/
def Memory.write : Memory → Nat → Byte → Memory
  | [], a, b => [(a, b)]
  | (x, y) :: rest, a, b =>
    if a < x then (a, b) :: (x, y) :: rest
    else if a = x then (a, b) :: rest
    else (x, y) :: Memory.write rest a b

/-- MemRead(a, n): the n bytes from `a` on, or UNINIT_BUF of the first one nothing has written (R12, R65). -/
def Memory.readBytes (m : Memory) : Nat → Nat → Except Fault Bytes
  | _, 0 => .ok []
  | a, n + 1 =>
    match m.read a with
    | none => .error (.uninitBuf a)
    | some b =>
      match Memory.readBytes m (a + 1) n with
      | .ok bs => .ok (b :: bs)
      | .error f => .error f

/-- MemWrite: the bytes stored from `a` on (R12, R105). -/
def Memory.writeBytes : Memory → Nat → Bytes → Memory
  | m, _, [] => m
  | m, a, b :: bs => Memory.writeBytes (m.write a b) (a + 1) bs

/-- The canonical form: addresses strictly rising. -/
def Memory.wf (m : Memory) : Bool := decide (m.Pairwise (fun p q => p.1 < q.1))

/-- Every listed address is below n (R41: n is BUF_BYTES). -/
def Memory.below (m : Memory) (n : Nat) : Bool := m.all (fun p => decide (p.1 < n))

end Sys2Proof.Machine
end

