-- ==== Sys2Proof/Machine/Operands.lean ====
section
/-! DEFINITION. Operands by descriptor (R55), the range check (R56) and the length preconditions (R79):
every operand form the commands have, and the checks in order (R209). -/

namespace Sys2Proof.Machine

/-- A region of BUF. Address and length are unbounded integers (R13, R56). -/
structure Span where
  addr : Nat
  len : Nat
  deriving DecidableEq, Repr

/-- Source operand 0 (R21, R55). -/
def src0 (s : State) : Span := ⟨s.desc.s0Addr.toNat, s.desc.s0Len.toNat⟩

/-- Source operand 1 (R21, R55). -/
def src1 (s : State) : Span := ⟨s.desc.s1Addr.toNat, s.desc.s1Len.toNat⟩

/-- Source operand 2 (R21, R55). -/
def src2 (s : State) : Span := ⟨s.desc.s2Addr.toNat, s.desc.s2Len.toNat⟩

/-- The destination of a result of n bytes (R55, R56). -/
def dest (s : State) (n : Nat) : Span := ⟨s.desc.dAddr.toNat, n⟩

/-- The region lies in BUF, added without wrap-around (R56). -/
def State.inBuf (s : State) (p : Span) : Bool := decide (p.addr + p.len ≤ s.config.bufBytes)

/-- Operand(k) = MemRead of the region, from the snapshot (R55, R57). -/
def Span.bytes (p : Span) (m : Memory) : Except Fault Bytes := m.readBytes p.addr p.len

/-- A check: whether it passes, and the error it raises where it does not. -/
abbrev Check := Bool × CmdError

/-- The first check that fails decides the report (R209). -/
def firstFailure : List Check → Option CmdError
  | [] => none
  | (passed, e) :: rest => if passed then firstFailure rest else some e

/-- The range check of a region (R56). -/
def rangeCheck (s : State) (p : Span) : Check := (s.inBuf p, .bufRange)

/-- The strict block operand: exactly 16 bytes (R79). -/
def fixedLenCheck (p : Span) : Check := (p.len == 16, .fixedLen)

/-- The context checks of CBC_RESEED, CBC_UPDATE and GCM_UPDATE: valid, and of the command's mode (R104,
R207, R208). -/
def contextChecks (x : Context) (m : Mode) : List Check :=
  [(x.valid, .noContext), (x.mode == m, .modeMismatch)]

end Sys2Proof.Machine
end

