-- ==== Sys2Proof/Machine/Ops.lean ====
section
/-! DEFINITION. The operations every command is built from: contexts, the primitive (R103), the failure
draw (R101), the commit (R105), taking an error (R211) and the order check-read-write (R104). An error is
this engine's exception: `raise` is its entry. There is no return operation: the next accepted command
overwrites STATUS, and only reset leaves HALTED (R212). -/

namespace Sys2Proof.Machine

/-- ctx[c] (R31, R32). -/
def State.ctx (s : State) (c : Dir) : Context :=
  match c with
  | .enc => s.ctx0
  | .dec => s.ctx1

/-- ctx[c] <- x. -/
def State.setCtx (s : State) (c : Dir) (x : Context) : State :=
  match c with
  | .enc => { s with ctx0 := x }
  | .dec => { s with ctx1 := x }

/-- CMD <- w (R24, R104). -/
def State.setCmd (s : State) (w : Word) : State := { s with cmd := w }

/-- MemWrite(D_ADDR, n, bytes), with the WRITTEN bits (R55, R105). -/
def State.store (s : State) (bytes : Bytes) : State :=
  { s with buf := s.buf.writeBytes s.desc.dAddr.toNat bytes }

/-- commit(n) of a command with the given OPC: RES_LEN and STATUS (R105). -/
def commit (opc : Byte) (n : Nat) (s : State) : State :=
  { s with resLen := BitVec.ofNat 32 n, status := okStatus opc }

/-- raise: RES_LEN <- 0 and STATUS from the error, nothing else (R211). The opcode is the command's, which
is CMD[7:0] in every run (log 10). -/
def raise (opc : Byte) (e : CmdError) (s : State) : State :=
  { s with resLen := 0, status := errorStatus opc e }

/-- transformBlock of a context (R103): E for CBC encryption and for GCM in both directions, Einv for CBC
decryption. -/
def transformBlock (c : Dir) (x : Context) (b : Block) : Block :=
  match x.mode, c with
  | .cbc, .enc => Config.E x.alg x.key b
  | .cbc, .dec => Config.Einv x.alg x.key b
  | .gcm, _ => Config.E x.alg x.key b

/-- The next primitive-failure draw (R101): the environment's, where it has fixed one, else a free value;
always ok where PRIM_CAN_FAIL is false (log 2). -/
def State.nextDraw (s : State) : Draw :=
  if s.config.primCanFail then
    match s.draws with
    | d :: _ => d
    | [] => Config.primDraw s.drawCount
  else .ok

/-- The state once that draw is taken. -/
def State.takeDraw (s : State) : State :=
  { s with draws := s.draws.tail, drawCount := s.drawCount + 1 }

/-- The checks of a command in order, then its body (R104, R209). -/
def guarded (opc : Byte) (checks : List Check) (s : State) (body : Result) : Result :=
  match firstFailure checks with
  | some e => .next (raise opc e s)
  | none => body

/-- A read of the snapshot inside a body: UNINIT_BUF where a byte was never written (R57, R65). -/
def withBytes (r : Except Fault Bytes) (body : Bytes → Result) : Result :=
  match r with
  | .ok b => body b
  | .error f => .fault f

/-- One primitive-failure draw inside a body (R101). -/
def withDraw (s : State) (body : Draw → State → Result) : Result := body s.nextDraw s.takeDraw

/-- The end of a command that writes n result bytes at D_ADDR: MemWrite and commit(n) (R105). -/
def publish (opc : Byte) (n : Nat) (bytes : Bytes) (s : State) : State :=
  commit opc n (s.store bytes)

end Sys2Proof.Machine
end

