-- ==== Sys2Proof/Machine/Cbc.lean ====
section
/-! DEFINITION. The CBC chaining engine: its two iterations and the commands CBC_RESEED and CBC_UPDATE
(41_cbc.md R120 to R128). -/

namespace Sys2Proof.Machine

/-- cbcEncrypt over blocks with the forward transform f: the outputs and the last IV (R121). -/
def cbcEncrypt (f : Block → Block) : Block → List Block → List Block × Block
  | iv, [] => ([], iv)
  | iv, x :: xs =>
    let y := f (x ^^^ iv)
    let (ys, iv') := cbcEncrypt f y xs
    (y :: ys, iv')

/-- cbcDecrypt over blocks with the inverse transform g: it chains on the consumed input (R122). -/
def cbcDecrypt (g : Block → Block) : Block → List Block → List Block × Block
  | iv, [] => ([], iv)
  | iv, x :: xs =>
    let y := g x ^^^ iv
    let (ys, iv') := cbcDecrypt g x xs
    (y :: ys, iv')

/-- The iteration of a direction, with that context's transform (R103, R127). -/
def cbcRun (c : Dir) (t : Block → Block) (iv : Block) (xs : List Block) : List Block × Block :=
  match c with
  | .enc => cbcEncrypt t iv xs
  | .dec => cbcDecrypt t iv xs

/-- CBC_RESEED (R126). -/
def execCbcReseed (c : Dir) (s : State) : Result :=
  guarded 0x12
    (contextChecks (s.ctx c) .cbc ++ [rangeCheck s (src2 s), fixedLenCheck (src2 s)]) s <|
  withBytes ((src2 s).bytes s.buf) fun iv =>
  .next (commit 0x12 0 (s.setCtx c { s.ctx c with chain := blockOfBytes iv }))

/-- The successful end of CBC_UPDATE: output at D, CHAIN the last IV (R127). `s` is the snapshot, `s'`
the same state with the draw taken where there was one. -/
def cbcFinish (c : Dir) (n : Nat) (iv : Block) (x : Bytes) (s' : State) : State :=
  let r := cbcRun c (transformBlock c (s'.ctx c)) iv (blocksOf x)
  publish 0x20 n (bytesOfBlocks r.1) (s'.setCtx c { s'.ctx c with chain := r.2 })

/-- CBC_UPDATE once the checks passed and the operands are read: the draw, where the input is not empty
(R101, R127). -/
def cbcUpdateBody (c : Dir) (iv : Block) (x : Bytes) (s : State) : Result :=
  if 0 < (src0 s).len then
    withDraw s fun d s' =>
      match d with
      | .fail => .next (raise 0x20 .inUpdate s')
      | .ok => .next (cbcFinish c (src0 s).len iv x s')
  else .next (cbcFinish c (src0 s).len iv x s)

/-- CBC_UPDATE (R127): S2 is checked and read only where IVO = 1. -/
def execCbcUpdate (c : Dir) (ivo : Bool) (s : State) : Result :=
  match ivo with
  | true =>
    guarded 0x20
      (contextChecks (s.ctx c) .cbc ++
        [rangeCheck s (src0 s), rangeCheck s (src2 s), rangeCheck s (dest s (src0 s).len),
          ((src0 s).len % 16 == 0, .cbcLen), fixedLenCheck (src2 s)]) s <|
    withBytes ((src0 s).bytes s.buf) fun x =>
    withBytes ((src2 s).bytes s.buf) fun iv =>
    cbcUpdateBody c (blockOfBytes iv) x s
  | false =>
    guarded 0x20
      (contextChecks (s.ctx c) .cbc ++
        [rangeCheck s (src0 s), rangeCheck s (dest s (src0 s).len),
          ((src0 s).len % 16 == 0, .cbcLen)]) s <|
    withBytes ((src0 s).bytes s.buf) fun x =>
    cbcUpdateBody c (s.ctx c).chain x s

end Sys2Proof.Machine
end

