-- ==== Sys2Proof/Machine/FixedBlock.lean ====
section
/-! DEFINITION. The fixed-block buffer's commands FB_OF and FB_XOR (44_fixedblock.md R190 to R193). -/

namespace Sys2Proof.Machine

/-- FB_OF (R192): only the first min(S0_LEN, 16) source bytes are read; the range check covers all. -/
def execFbOf (s : State) : Result :=
  guarded 0x01 [rangeCheck s (src0 s), rangeCheck s (dest s 16)] s <|
  withBytes (s.buf.readBytes (src0 s).addr (min (src0 s).len 16)) fun b =>
  .next (publish 0x01 16 (fixedBlock b) s)

/-- FB_XOR (R193): self is S1, other is S0. -/
def execFbXor (s : State) : Result :=
  guarded 0x02
    [rangeCheck s (src0 s), rangeCheck s (src1 s), rangeCheck s (dest s (src1 s).len),
      ((src0 s).len == (src1 s).len, .xorLenMismatch),
      (decide ((src1 s).len ≤ 16), .xorLenOverBlock)] s <|
  withBytes ((src1 s).bytes s.buf) fun self =>
  withBytes ((src0 s).bytes s.buf) fun other =>
  .next (publish 0x02 (src1 s).len (xorBytes self other) s)

end Sys2Proof.Machine
end

