-- ==== Sys2Proof/Machine/Gf128.lean ====
section
/-! DEFINITION. GF(2^128) elements, their product, GHASH, and the commands GF_MUL and GHASH
(43_gf128_ghash.md R170 to R178). -/

namespace Sys2Proof.Machine

/-- A GF128Element: the pair (hi, lo) of 64-bit values (R170). -/
structure GF128 where
  hi : BitVec 64
  lo : BitVec 64
  deriving DecidableEq, Repr

/-- The 128-bit integer value S = hi * 2^64 + lo of an element (R170). -/
def GF128.value (e : GF128) : Block := e.hi ++ e.lo

/-- The element with a given 128-bit value (R170). -/
def GF128.ofValue (b : Block) : GF128 := ⟨b.extractLsb' 64 64, b.extractLsb' 0 64⟩

/-- ofBytes(B): hi = int(B[0..8)), lo = int(B[8..16)) (R171). -/
def GF128.ofBytes (b : Bytes) : GF128 :=
  ⟨BitVec.ofNat 64 (beValue (b.take 8)), BitVec.ofNat 64 (beValue ((b.drop 8).take 8))⟩

/-- toBytes((hi, lo)) = BE_8(hi) || BE_8(lo) (R172). -/
def GF128.toBytes (e : GF128) : Bytes := beBytes 8 e.hi.toNat ++ beBytes 8 e.lo.toNat

/-- Addition in the field (R173). -/
def GF128.add (a b : GF128) : GF128 := ⟨a.hi ^^^ b.hi, a.lo ^^^ b.lo⟩

/-- R = 0xE1 << 120 (R174). -/
def gfR : Block := 0xE1 <<< 120

/-- V times x: the shift and conditional reduction of the loop (R174). -/
def gfShift (v : Block) : Block := if v.getLsbD 0 then (v >>> 1) ^^^ gfR else v >>> 1

/-- The loop of gfMul with n iterations to go, at i = 128 - n: its test reads bit 127 - i = n - 1 of X
(R174). -/
def gfLoop (x : Block) : Nat → Block → Block → Block
  | 0, z, _ => z
  | n + 1, z, v => gfLoop x n (if x.getLsbD n then z ^^^ v else z) (gfShift v)

/-- gfMul(X, Y) (R174). -/
def gfMul (x y : Block) : Block := gfLoop x 128 0 y

/-- V >> 1 on the pair: the low bit of hi enters bit 63 of lo (R174). -/
def GF128.shiftRight (v : GF128) : GF128 := ⟨v.hi >>> 1, (v.lo >>> 1) ||| ((v.hi &&& 1) <<< 63)⟩

/-- The shift and conditional reduction on the pair: XOR R touches hi only (R174). -/
def GF128.shift (v : GF128) : GF128 :=
  if v.lo.getLsbD 0 then ⟨v.shiftRight.hi ^^^ 0xE100000000000000, v.shiftRight.lo⟩ else v.shiftRight

/-- The bit of X that iteration i tests, on the pair: bit 63 - i of hi when i < 64, else bit 127 - i of
lo (R174). -/
def GF128.testBit (x : GF128) (i : Nat) : Bool :=
  if i < 64 then x.hi.getLsbD (63 - i) else x.lo.getLsbD (127 - i)

/-- The loop of R174 on pairs, with n iterations to go. -/
def GF128.loop (x : GF128) : Nat → GF128 → GF128 → GF128
  | 0, z, _ => z
  | n + 1, z, v => GF128.loop x n (if x.testBit (127 - n) then z.add v else z) v.shift

/-- multiply(a, b) on pairs (R174, second form). -/
def GF128.mul (x y : GF128) : GF128 := GF128.loop x 128 ⟨0, 0⟩ y

/-- ghashUpdate(acc, H, data): each chunk zero-padded to 16 bytes, acc <- (acc XOR chunk) * H (R176). -/
def ghashUpdate (acc h : Block) (data : Bytes) : Block :=
  (chunks data).foldl (fun a chunk => gfMul (a ^^^ blockOfBytes (fixedBlock chunk)) h) acc

/-- GF_MUL (R177). -/
def execGfMul (s : State) : Result :=
  guarded 0x03
    [rangeCheck s (src0 s), rangeCheck s (src1 s), rangeCheck s (dest s 16),
      fixedLenCheck (src0 s), fixedLenCheck (src1 s)] s <|
  withBytes ((src0 s).bytes s.buf) fun a =>
  withBytes ((src1 s).bytes s.buf) fun b =>
  .next (publish 0x03 16 (bytesOfBlock (gfMul (blockOfBytes a) (blockOfBytes b))) s)

/-- GHASH (R178). -/
def execGhash (s : State) : Result :=
  guarded 0x04
    [rangeCheck s (src0 s), rangeCheck s (src1 s), rangeCheck s (src2 s), rangeCheck s (dest s 16),
      fixedLenCheck (src1 s), fixedLenCheck (src2 s)] s <|
  withBytes ((src0 s).bytes s.buf) fun data =>
  withBytes ((src1 s).bytes s.buf) fun h =>
  withBytes ((src2 s).bytes s.buf) fun acc =>
  .next (publish 0x04 16
    (bytesOfBlock (ghashUpdate (blockOfBytes acc) (blockOfBytes h) data)) s)

end Sys2Proof.Machine
end

