-- ==== Sys2Proof/Machine/Gcm.lean ====
section
/-! DEFINITION. The GCM engine: J0, the counter sequence, the keystream XOR, the accumulator, the tag,
and the command GCM_UPDATE (42_gcm.md R140 to R149). -/

namespace Sys2Proof.Machine

/-- deriveJ0(H, IV) (R141). -/
def deriveJ0 (h : Block) (iv : Bytes) : Block :=
  if iv.length = 12 then blockOfBytes (iv ++ [0, 0, 0, 1])
  else
    ghashUpdate 0 h
      (iv ++ zeros (16 * ceil16 iv.length - iv.length) ++ (beBytes 8 0 ++ beBytes 8 (8 * iv.length)))

/-- inc32(CB): bytes 12..15 plus 1 mod 2^32, bytes 0..11 as they are (R142). -/
def inc32 (cb : Block) : Block := cb.extractLsb' 32 96 ++ (cb.extractLsb' 0 32 + 1)

/-- CB_i = inc32^i(J0) (R143). -/
def counterBlock (j0 : Block) : Nat → Block
  | 0 => j0
  | i + 1 => inc32 (counterBlock j0 i)

/-- The output over the remaining chunks, with `cb` the counter block before them: each chunk XOR the
leading bytes of its keystream block, as many as the chunk has (R144). -/
def ctrChunks (e : Block → Block) : Block → List Bytes → Bytes
  | _, [] => []
  | cb, x :: xs =>
    xorBytes x ((bytesOfBlock (e (inc32 cb))).take x.length) ++ ctrChunks e (inc32 cb) xs

/-- Y: the keystream XOR of X over CB_1 .. CB_m (R144). -/
def ctrXor (e : Block → Block) (j0 : Block) (x : Bytes) : Bytes := ctrChunks e j0 (chunks x)

/-- LEN: the two bit lengths, 8 bytes each (R147). -/
def lengthBlock (aadLen cLen : Nat) : Bytes := beBytes 8 (8 * aadLen) ++ beBytes 8 (8 * cLen)

/-- The accumulator over AAD, ciphertext and, unless both are empty, the length block (R146). -/
def gcmAccumulate (h : Block) (aad c : Bytes) : Block :=
  let s := ghashUpdate (ghashUpdate 0 h aad) h c
  if 0 < aad.length ∨ 0 < c.length then ghashUpdate s h (lengthBlock aad.length c.length) else s

/-- What one GCM_UPDATE computes: the output, the last counter block and the tag. -/
structure GcmResult where
  out : Bytes
  chain : Block
  tag : Block
  deriving DecidableEq, Repr

/-- GCM_UPDATE's computation (R145, R148, R149): GHASH folds the output where c encrypts and the input
where c decrypts, and the tag is E(J0) XOR S. -/
def gcmCrypt (e : Block → Block) (h : Block) (c : Dir) (iv aad x : Bytes) : GcmResult :=
  let j0 := deriveJ0 h iv
  let y := ctrXor e j0 x
  let cipher := match c with
    | .enc => y
    | .dec => x
  { out := y
    chain := counterBlock j0 (ceil16 x.length)
    tag := e j0 ^^^ gcmAccumulate h aad cipher }

/-- The successful end of GCM_UPDATE: output at D, CHAIN the last counter block (CB_0 = J0 for an empty
input), TAG and TAG_VALID (R149). -/
def gcmFinish (c : Dir) (n : Nat) (iv aad x : Bytes) (s : State) : State :=
  let r := gcmCrypt (transformBlock c (s.ctx c)) (s.ctx c).h c iv aad x
  publish 0x21 n r.out
    (s.setCtx c { s.ctx c with chain := r.chain, tag := r.tag, tagValid := true })

/-- GCM_UPDATE (R149). -/
def execGcmUpdate (c : Dir) (s : State) : Result :=
  guarded 0x21
    (contextChecks (s.ctx c) .gcm ++
      [rangeCheck s (src0 s), rangeCheck s (src1 s), rangeCheck s (src2 s),
        rangeCheck s (dest s (src0 s).len)]) s <|
  withBytes ((src0 s).bytes s.buf) fun x =>
  withBytes ((src1 s).bytes s.buf) fun aad =>
  withBytes ((src2 s).bytes s.buf) fun iv =>
  withDraw s fun d s' =>
    match d with
    | .fail => .next (raise 0x21 .inUpdate s')
    | .ok => .next (gcmFinish c (src0 s).len iv aad x s')

end Sys2Proof.Machine
end

