-- ==== Sys2Proof/Machine/Lifecycle.lean ====
section
/-! DEFINITION. NOP and the context lifecycle, CTX_CREATE and CTX_DESTROY (40_primitive_context.md R106
to R108). -/

namespace Sys2Proof.Machine

/-- NOP (R106). -/
def execNop (s : State) : Result := .next (commit 0x00 0 s)

/-- Why construction with this algorithm and key fails, in check order (R107, R201). -/
def createError (p : Configuration) (alg : Alg) (key : Bytes) : Option CmdError :=
  match alg with
  | .null => some .algNull
  | .reserved => some .algReserved
  | .aes128 => if p.keyOk .aes128 key then none else some .keySetup
  | .aes256 => if p.keyOk .aes256 key then none else some .keySetup

/-- The context CTX_CREATE builds (R107). -/
def newContext (mode : Mode) (alg : Alg) (key : Bytes) (chain h : Block) : Context :=
  { valid := true, mode := mode, alg := alg, key := key, chain := chain, h := h, tag := 0,
    tagValid := false }

/-- CTX_CREATE once the checks passed and the operands are read: the slot is emptied first, and stays
empty where construction fails (R107). -/
def createContext (c : Dir) (mode : Mode) (alg : Alg) (key : Bytes) (iv : Block) (s : State) : Result :=
  match createError s.config alg key with
  | some e => .next (raise 0x10 e (s.setCtx c Context.empty))
  | none =>
    match mode with
    | .cbc => .next (commit 0x10 0 (s.setCtx c (newContext .cbc alg key iv 0)))
    | .gcm =>
      withDraw (s.setCtx c Context.empty) fun d s' =>
        match d with
        | .fail => .next (raise 0x10 .inCreate s')
        | .ok => .next (commit 0x10 0 (s'.setCtx c (newContext .gcm alg key 0 (Config.E alg key 0))))

/-- CTX_CREATE (R107): S2 is checked and read only where MODE = CBC. -/
def execCtxCreate (c : Dir) (mode : Mode) (alg : Alg) (s : State) : Result :=
  match mode with
  | .cbc =>
    guarded 0x10 [rangeCheck s (src0 s), rangeCheck s (src2 s), fixedLenCheck (src2 s)] s <|
    withBytes ((src0 s).bytes s.buf) fun key =>
    withBytes ((src2 s).bytes s.buf) fun iv =>
    createContext c .cbc alg key (blockOfBytes iv) s
  | .gcm =>
    guarded 0x10 [rangeCheck s (src0 s)] s <|
    withBytes ((src0 s).bytes s.buf) fun key =>
    createContext c .gcm alg key 0 s

/-- CTX_DESTROY (R108): also on an invalid context. -/
def execCtxDestroy (c : Dir) (s : State) : Result :=
  .next (commit 0x11 0 (s.setCtx c Context.empty))

end Sys2Proof.Machine
end

