-- ==== Sys2Proof/Machine/Dispatch.lean ====
section
/-! DEFINITION. One arm per command, each one call of that command's meaning. -/

namespace Sys2Proof.Machine

def exec (i : Instr) (s : State) : Host.Outcome State Fault Refusal :=
  match i with
  | .nop => Sys2Proof.Machine.execNop s
  | .fbOf => Sys2Proof.Machine.execFbOf s
  | .fbXor => Sys2Proof.Machine.execFbXor s
  | .gfMul => Sys2Proof.Machine.execGfMul s
  | .ghash => Sys2Proof.Machine.execGhash s
  | .ctxCreate c mode alg => Sys2Proof.Machine.execCtxCreate c mode alg s
  | .ctxDestroy c => Sys2Proof.Machine.execCtxDestroy c s
  | .cbcReseed c => Sys2Proof.Machine.execCbcReseed c s
  | .cbcUpdate c ivo => Sys2Proof.Machine.execCbcUpdate c ivo s
  | .gcmUpdate c => Sys2Proof.Machine.execGcmUpdate c s

end Sys2Proof.Machine
end

