-- ==== Sys2Proof/Machine/Registers.lean ====
section
/-! DEFINITION. The register window REG: names, offsets, and reads and writes without a command
(10_state.md R21, R24 to R30, R36 to R40). -/

namespace Sys2Proof.Machine

/-- The registers of the window by name (R21, R24 to R39, R81). -/
inductive Reg where
  | cmd
  | status
  | s0Addr
  | s0Len
  | s1Addr
  | s1Len
  | s2Addr
  | s2Len
  | dAddr
  | resLen
  | params
  | ctxCfg (c : Dir)
  | ctxChain (c : Dir) (k : Fin 4)
  | ctxTag (c : Dir) (k : Fin 4)
  deriving DecidableEq, Repr

/-- The start of a context's window: 0x100 + 0x40*c (R37). -/
def ctxWindow : Dir → Nat
  | .enc => 0x100
  | .dec => 0x140

/-- The byte offset of a register in REG (R21, R24 to R39). -/
def Reg.offset : Reg → Nat
  | .cmd => 0x000
  | .status => 0x004
  | .s0Addr => 0x008
  | .s0Len => 0x00C
  | .s1Addr => 0x010
  | .s1Len => 0x014
  | .s2Addr => 0x018
  | .s2Len => 0x01C
  | .dAddr => 0x020
  | .resLen => 0x024
  | .params => 0x028
  | .ctxCfg c => ctxWindow c
  | .ctxChain c k => ctxWindow c + 0x10 + 4 * k.val
  | .ctxTag c k => ctxWindow c + 0x20 + 4 * k.val

/-- The registers of one context's window. -/
def ctxRegs (c : Dir) : List Reg :=
  [.ctxCfg c, .ctxChain c 0, .ctxChain c 1, .ctxChain c 2, .ctxChain c 3,
    .ctxTag c 0, .ctxTag c 1, .ctxTag c 2, .ctxTag c 3]

/-- Every mapped register. -/
def Reg.all : List Reg :=
  [.cmd, .status, .s0Addr, .s0Len, .s1Addr, .s1Len, .s2Addr, .s2Len, .dAddr, .resLen, .params]
    ++ ctxRegs .enc ++ ctxRegs .dec

/-- The register mapped at an offset, none where the offset is unmapped (R40). -/
def Reg.ofOffset (o : Nat) : Option Reg := Reg.all.find? (fun r => r.offset == o)

/-- What a register reads as. KEY and H are in none of them (R36). -/
def readReg (r : Reg) (s : State) : Word :=
  match r with
  | .cmd => s.cmd
  | .status => s.status.word
  | .s0Addr => s.desc.s0Addr
  | .s0Len => s.desc.s0Len
  | .s1Addr => s.desc.s1Addr
  | .s1Len => s.desc.s1Len
  | .s2Addr => s.desc.s2Addr
  | .s2Len => s.desc.s2Len
  | .dAddr => s.desc.dAddr
  | .resLen => s.resLen
  | .params => paramsWord s.config
  | .ctxCfg c => cfgWord c (s.ctx c)
  | .ctxChain c k => viewWord (s.ctx c).chain k
  | .ctxTag c k => viewWord (s.ctx c).tag k

/-- What the word at an offset reads as: 0 where the offset is unmapped (R40). -/
def readOffset (o : Nat) (s : State) : Word :=
  match Reg.ofOffset o with
  | some r => readReg r s
  | none => 0

/-- A host write of a register other than CMD: a descriptor register takes the value (R21), a read-only
one ignores it (R40). A write of CMD is a command (Access.lean). -/
def writeReg (r : Reg) (v : Word) (s : State) : State :=
  match r with
  | .cmd => s
  | .status => s
  | .s0Addr => { s with desc := { s.desc with s0Addr := v } }
  | .s0Len => { s with desc := { s.desc with s0Len := v } }
  | .s1Addr => { s with desc := { s.desc with s1Addr := v } }
  | .s1Len => { s with desc := { s.desc with s1Len := v } }
  | .s2Addr => { s with desc := { s.desc with s2Addr := v } }
  | .s2Len => { s with desc := { s.desc with s2Len := v } }
  | .dAddr => { s with desc := { s.desc with dAddr := v } }
  | .resLen => s
  | .params => s
  | .ctxCfg _ => s
  | .ctxChain _ _ => s
  | .ctxTag _ _ => s

end Sys2Proof.Machine
end

