-- ==== Sys2Proof/WellFormed.lean ====
section
/-! DEFINITION. What a well-formed term is: of a command, of a command word (R77) and of a host
operation (R51, R52, R66). -/

namespace Sys2Proof

/-- Every command is well-formed: each field's type has exactly the values its bits can hold (R70, R75),
so no ill-formed command can be written down. -/
def Instr.wellFormed : Instr → Bool
  | .nop => true
  | .fbOf => true
  | .fbXor => true
  | .gfMul => true
  | .ghash => true
  | .ctxCreate _ _ _ => true
  | .ctxDestroy _ => true
  | .cbcReseed _ => true
  | .cbcUpdate _ _ => true
  | .gcmUpdate _ => true

/-- A word that is a command: an assigned opcode, and no bit outside its fields (R77). -/
def wordWellFormed (w : Word) : Bool :=
  match decode w with
  | .ok i => i.wellFormed
  | .error _ => false

/-- A REG offset that names a register access: a multiple of 4 up to 0xFFC (R51). -/
def regOffsetOk (o : Nat) : Bool := o % 4 == 0 && decide (o ≤ 0xFFC)

/-- A BUF address that names a byte of this engine (R52). -/
def bufAddressOk (p : Configuration) (a : Nat) : Bool := decide (a < p.bufBytes)

/-- A host operation that spells an access of this interface (R51, R52, R66). -/
def Machine.HostOp.wellFormed (p : Configuration) : Machine.HostOp → Bool
  | .reset => true
  | .writeReg o _ => regOffsetOk o
  | .readReg o => regOffsetOk o
  | .writeBuf a _ => bufAddressOk p a
  | .readBuf a => bufAddressOk p a
  | .haltCheck => true
  | .secondAgent => false

end Sys2Proof
end

