-- ==== Sys2Proof/Machine/Access.lean ====
section
/-! DEFINITION. What each host operation does (R51, R52, R66, R82, R104, R205, R230): a CMD write runs the
common command step, every other access reads or writes one register or one byte. -/

namespace Sys2Proof.Machine

/-- The common command step of R104: ignored while HALTED (R205); else CMD <- w, decode, and either the
illegal-command report (R206) or the command. -/
def writeCmd (w : Word) (s : State) : Result :=
  if s.status.halted then .next s
  else
    match decode w with
    | .error r => .next (raise (opcField w) (.illegal r) (s.setCmd w))
    | .ok i => exec i (s.setCmd w)

/-- Reset (R230): every item of engine state to its reset value. The host's pending operations, what its
reads returned, the environment's draws and the parameters are no engine state and stay (R20; log 17). -/
def resetEngine (s : State) : State :=
  { State.reset with host := s.host, reads := s.reads, draws := s.draws, drawCount := s.drawCount,
                     config := s.config }

/-- A host write at a REG offset (R51): CMD starts a command, an unmapped offset ignores it (R40). -/
def hostWriteReg (o : Nat) (v : Word) (s : State) : Result :=
  if regOffsetOk o then
    match Reg.ofOffset o with
    | none => .next s
    | some r => if r = .cmd then writeCmd v s else .next (writeReg r v s)
  else .refused (.malformedRegAccess o)

/-- The host's read log, one entry longer (log 1). -/
def State.logRead (s : State) (r : Readout) : State := { s with reads := s.reads ++ [r] }

/-- A host read at a REG offset: it changes nothing of the engine (R51, R60). -/
def hostReadReg (o : Nat) (s : State) : Result :=
  if regOffsetOk o then .next (s.logRead (.reg o (readOffset o s)))
  else .refused (.malformedRegAccess o)

/-- A host write of one BUF byte (R52). -/
def hostWriteBuf (a : Nat) (b : Byte) (s : State) : Result :=
  if bufAddressOk s.config a then .next { s with buf := s.buf.write a b }
  else .refused (.bufAddressOutOfRange a)

/-- A host read of one BUF byte: UNINIT_BUF where nothing has written it (R52, R65). -/
def hostReadBuf (a : Nat) (s : State) : Result :=
  if bufAddressOk s.config a then
    match s.buf.read a with
    | some b => .next (s.logRead (.byte a b))
    | none => .fault (.uninitBuf a)
  else .refused (.bufAddressOutOfRange a)

/-- HALT_CHECK (R82): a read of STATUS, and the host drops the rest of its program if bit 31 is 1 (log 12). -/
def hostHaltCheck (s : State) : Result :=
  let s' := s.logRead (.reg Reg.status.offset (readReg .status s))
  if (readReg .status s).getLsbD 31 then .next { s' with host := [] } else .next s'

/-- One host operation, as one atomic step (R58, R59, R61). -/
def perform (op : HostOp) (s : State) : Result :=
  match op with
  | .reset => .next (resetEngine s)
  | .writeReg o v => hostWriteReg o v s
  | .readReg o => hostReadReg o s
  | .writeBuf a b => hostWriteBuf a b s
  | .readBuf a => hostReadBuf a s
  | .haltCheck => hostHaltCheck s
  | .secondAgent => .refused .secondHostAgent

/-- The state once its oldest pending host operation is taken. -/
def State.popHost (s : State) : State := { s with host := s.host.tail }

/-- The host performs its oldest pending operation; with none pending the engine stays as it is (R23,
R242; log 11). -/
def hostStep (s : State) : Result :=
  match s.host with
  | [] => .next s
  | op :: _ => perform op s.popHost

end Sys2Proof.Machine
end

