-- ==== Sys2Proof/Machine/Step.lean ====
section
/-! DEFINITION. One step of the machine, and how a command word is placed where the step takes its next
command (log 1). -/

namespace Sys2Proof.Machine

/-- One step: the host's oldest pending operation, in its program order (R61). -/
def step (s : State) : Host.Outcome State Fault Refusal := hostStep s

/-- The state in which the host's next operation writes this table word to CMD (R24, R83). -/
def State.withFetchWord (s : State) (nbits w : Nat) : State :=
  { s with host := .writeReg Reg.cmd.offset (tableWord nbits w) :: s.host }

end Sys2Proof.Machine
end

