-- ==== Sys2Proof/Machine/Assembler.lean ====
section
/-! DEFINITION. The host's assembly lines and pseudo-instructions, as terms, and the host operations they
stand for (R81 to R83). AsmText.lean reads them from text (log 16). -/

namespace Sys2Proof.Machine

/-- The fields written on a mnemonic line (R81); an absent field assembles as 0. -/
structure AsmFields where
  ctx : Option Dir
  mode : Option Mode
  alg : Option Alg
  ivo : Option Bool
  deriving DecidableEq, Repr

/-- The assembler refuses a field the mnemonic does not use (R72, R81). -/
def AsmFields.wellFormed (op : Opcode) (f : AsmFields) : Bool :=
  (f.ctx.isNone || op.varMask.getLsbD 8) && (f.mode.isNone || op.varMask.getLsbD 9)
    && (f.alg.isNone || op.varMask.getLsbD 10) && (f.ivo.isNone || op.varMask.getLsbD 12)

/-- The word of a mnemonic line (R70, R81). -/
def assemble (op : Opcode) (f : AsmFields) : Option Word :=
  if f.wellFormed op then
    some (op.code.setWidth 32 ||| ((f.ctx.getD .enc).bits <<< 8) ||| ((f.mode.getD .cbc).bits <<< 9)
      ||| ((f.alg.getD .null).bits <<< 10) ||| (bitWord (f.ivo.getD false) <<< 12))
  else none

/-- One line of a host program (R81, R82). -/
inductive Line where
  | wb (a : Nat) (bytes : Bytes)
  | rb (a n : Nat)
  | wr (r : Reg) (v : Word)
  | rr (r : Reg)
  | command (op : Opcode) (f : AsmFields)
  | src0 (a n : Word)
  | src1 (a n : Word)
  | src2 (a n : Word)
  | dst (a : Word)
  | rchain (c : Dir)
  | rtag (c : Dir)
  | cbcUpdateIv (c : Dir)
  | haltCheck
  deriving DecidableEq, Repr

/-- WB: the byte writes at a, a+1, … in order (R83). -/
def writeOps : Nat → Bytes → List HostOp
  | _, [] => []
  | a, b :: bs => .writeBuf a b :: writeOps (a + 1) bs

/-- RB: n byte reads from a on (R83). -/
def readOps (a n : Nat) : List HostOp := (List.range n).map (fun j => .readBuf (a + j))

/-- A register write, and a register read, by name (R83). -/
def wrOp (r : Reg) (v : Word) : HostOp := .writeReg r.offset v

/-- A register read by name (R83). -/
def rrOp (r : Reg) : HostOp := .readReg r.offset

/-- The host operations of a line (R82, R83), none where the assembler refuses it. -/
def Line.expand : Line → Option (List HostOp)
  | .wb a bytes => some (writeOps a bytes)
  | .rb a n => some (readOps a n)
  | .wr r v => some [wrOp r v]
  | .rr r => some [rrOp r]
  | .command op f => (assemble op f).map fun w => [wrOp .cmd w]
  | .src0 a n => some [wrOp .s0Addr a, wrOp .s0Len n]
  | .src1 a n => some [wrOp .s1Addr a, wrOp .s1Len n]
  | .src2 a n => some [wrOp .s2Addr a, wrOp .s2Len n]
  | .dst a => some [wrOp .dAddr a]
  | .rchain c => some [rrOp (.ctxChain c 0), rrOp (.ctxChain c 1), rrOp (.ctxChain c 2), rrOp (.ctxChain c 3)]
  | .rtag c => some [rrOp (.ctxTag c 0), rrOp (.ctxTag c 1), rrOp (.ctxTag c 2), rrOp (.ctxTag c 3)]
  | .cbcUpdateIv c => some [wrOp .cmd (encode (.cbcUpdate c true))]
  | .haltCheck => some [.haltCheck]

/-- A host program's operations, none where the assembler refuses a line. -/
def assembleProgram : List Line → Option (List HostOp)
  | [] => some []
  | l :: ls =>
    match l.expand, assembleProgram ls with
    | some ops, some rest => some (ops ++ rest)
    | _, _ => none

end Sys2Proof.Machine
end

