-- ==== Sys2Proof/Safety.lean ====
section
/-! DEFINITION. The terms claims are stated in: the invariant of every reachable state (R44), frames, what
a secret is (R36), a safe run, and the duties of the host as predicates (R218, R233, R236 to R243). -/

namespace Sys2Proof.Machine

/-! ### The invariant -/

/-- What a context satisfies in every reachable state (R31, R34, R35, R44, R140). -/
structure Context.Inv (p : Configuration) (x : Context) : Prop where
  /-- With VALID = 0 every other field is 0 (R31). -/
  empty_of_invalid : x.valid = false → x = Context.empty
  /-- A valid context holds AES128 or AES256 (R44.2). -/
  alg_of_valid : x.valid = true → x.alg = .aes128 ∨ x.alg = .aes256
  /-- A valid context's key passed key setup (R44.2). -/
  key_of_valid : x.valid = true → p.keyOk x.alg x.key = true
  /-- A valid context's key has the length of its algorithm (R44.2). -/
  key_length : x.valid = true → Config.keyBytes x.alg = some x.key.length
  /-- A CBC context has no subkey and no tag (R44.3). -/
  cbc_fields : x.mode = .cbc → x.h = 0 ∧ x.tag = 0 ∧ x.tagValid = false
  /-- A valid GCM context's subkey is E(alg, key, 0^16) (R34). -/
  gcm_subkey : x.valid = true → x.mode = .gcm → x.h = Config.E x.alg x.key 0
  /-- Without a valid tag TAG is 0^16 (R35, U21). -/
  tag_of_untagged : x.tagValid = false → x.tag = 0

/-- The (CODE, DETAIL) pairs the engine writes (R26, R27). -/
def legalReports : List (Code × Byte) :=
  [(.ok, 0x00), (.unsupportedAlgorithm, 0x01), (.unsupportedAlgorithm, 0x02), (.unsupportedAlgorithm, 0x03),
    (.primitiveFailure, 0x01), (.primitiveFailure, 0x02), (.preconditionViolation, 0x01),
    (.preconditionViolation, 0x02), (.preconditionViolation, 0x03), (.preconditionViolation, 0x04),
    (.preconditionViolation, 0x05), (.illegalCommand, 0x01), (.illegalCommand, 0x02), (.noContext, 0x00),
    (.modeMismatch, 0x00)]

/-- What every reachable state satisfies. -/
structure State.Inv (s : State) : Prop where
  /-- Both contexts are well-formed. -/
  contexts : ∀ c, (s.ctx c).Inv s.config
  /-- BUF is in canonical form. -/
  memory : s.buf.wf = true
  /-- BUF is inside its address range (R41). -/
  memory_range : s.buf.below s.config.bufBytes = true
  /-- HALTED = 1 exactly after a PRECONDITION_VIOLATION (R28, R44.4). -/
  halted_iff : s.status.halted = true ↔ s.status.code = .preconditionViolation
  /-- STATUS holds a report of R26 and R27: no reserved code or detail (R204, U8). -/
  legal_report : (s.status.code, s.status.detail) ∈ legalReports
  /-- LAST_OPC is CMD[7:0] (R25). -/
  last_opc : s.status.lastOpc = opcField s.cmd
  /-- After an error RES_LEN is 0 (R29). -/
  no_result : s.status.code ≠ .ok → s.resLen = 0
  /-- A result fits BUF (R29, R56). -/
  result_fits : s.resLen.toNat ≤ s.config.bufBytes

/-! ### Frames -/

/-- Every byte outside the n bytes from `a` on reads as before. -/
def sameBytesOutside (m m' : Memory) (a n : Nat) : Prop :=
  ∀ x, x < a ∨ a + n ≤ x → m'.read x = m.read x

/-- The bytes stand in BUF from `a` on. -/
def holdsBytes (m : Memory) (a : Nat) (b : Bytes) : Prop := m.readBytes a b.length = .ok b

/-- Nothing changed but STATUS and RES_LEN. -/
def onlyReport (s t : State) : Prop := t = { s with status := t.status, resLen := t.resLen }

/-- Nothing changed but STATUS, RES_LEN and BUF. -/
def onlyReportAndBuf (s t : State) : Prop :=
  t = { s with status := t.status, resLen := t.resLen, buf := t.buf }

/-- The command ended in this error and changed nothing else (R211). -/
def failsWith (s : State) (opc : Byte) (e : CmdError) (r : Result) : Prop :=
  r = .next { s with resLen := 0, status := errorStatus opc e }

/-- What `f` makes of the next state; a stop stays the stop it is. -/
def mapNext (f : State → State) : Result → Result
  | .next t => .next (f t)
  | .fault e => .fault e
  | .refused e => .refused e

/-! ### What a command uses (R79) -/

/-- The context a command addresses (R73). -/
def addressed : Instr → Option Dir
  | .nop => none
  | .fbOf => none
  | .fbXor => none
  | .gfMul => none
  | .ghash => none
  | .ctxCreate c _ _ => some c
  | .ctxDestroy c => some c
  | .cbcReseed c => some c
  | .cbcUpdate c _ => some c
  | .gcmUpdate c => some c

/-- The mode of the context a command needs, for the three commands that need a valid one (R104). -/
def neededMode : Instr → Option (Dir × Mode)
  | .nop => none
  | .fbOf => none
  | .fbXor => none
  | .gfMul => none
  | .ghash => none
  | .ctxCreate _ _ _ => none
  | .ctxDestroy _ => none
  | .cbcReseed c => some (c, .cbc)
  | .cbcUpdate c _ => some (c, .cbc)
  | .gcmUpdate c => some (c, .gcm)

/-- The operand and destination regions a command uses, in the order S0, S1, S2, D (R79). -/
def usedSpans (i : Instr) (s : State) : List Span :=
  match i with
  | .nop => []
  | .fbOf => [src0 s, dest s 16]
  | .fbXor => [src0 s, src1 s, dest s (src1 s).len]
  | .gfMul => [src0 s, src1 s, dest s 16]
  | .ghash => [src0 s, src1 s, src2 s, dest s 16]
  | .ctxCreate _ .cbc _ => [src0 s, src2 s]
  | .ctxCreate _ .gcm _ => [src0 s]
  | .ctxDestroy _ => []
  | .cbcReseed _ => [src2 s]
  | .cbcUpdate _ true => [src0 s, src2 s, dest s (src0 s).len]
  | .cbcUpdate _ false => [src0 s, dest s (src0 s).len]
  | .gcmUpdate _ => [src0 s, src1 s, src2 s, dest s (src0 s).len]

/-- The first length precondition of a command that does not hold (R79). -/
def lengthError (i : Instr) (s : State) : Option CmdError :=
  match i with
  | .nop => none
  | .fbOf => none
  | .fbXor =>
    if (src0 s).len ≠ (src1 s).len then some .xorLenMismatch
    else if 16 < (src1 s).len then some .xorLenOverBlock else none
  | .gfMul => if (src0 s).len = 16 ∧ (src1 s).len = 16 then none else some .fixedLen
  | .ghash => if (src1 s).len = 16 ∧ (src2 s).len = 16 then none else some .fixedLen
  | .ctxCreate _ .cbc _ => if (src2 s).len = 16 then none else some .fixedLen
  | .ctxCreate _ .gcm _ => none
  | .ctxDestroy _ => none
  | .cbcReseed _ => if (src2 s).len = 16 then none else some .fixedLen
  | .cbcUpdate _ true =>
    if (src0 s).len % 16 ≠ 0 then some .cbcLen
    else if (src2 s).len = 16 then none else some .fixedLen
  | .cbcUpdate _ false => if (src0 s).len % 16 = 0 then none else some .cbcLen
  | .gcmUpdate _ => none

/-- The error that checks 3 to 6 of R209 report for a command, none where they all pass. -/
def checkedError (i : Instr) (s : State) : Option CmdError :=
  match neededMode i with
  | some (c, m) =>
    if (s.ctx c).valid = false then some .noContext
    else if (s.ctx c).mode ≠ m then some .modeMismatch
    else if (usedSpans i s).all s.inBuf then lengthError i s else some .bufRange
  | none => if (usedSpans i s).all s.inBuf then lengthError i s else some .bufRange

/-! ### Secrets -/

/-- The same context but for KEY and H (R36). -/
def Context.sameButSecrets (x y : Context) : Prop := y = { x with key := y.key, h := y.h }

/-- The same state but for the contexts' KEY and H (R36). -/
def State.sameButSecrets (s t : State) : Prop :=
  t = { s with ctx0 := t.ctx0, ctx1 := t.ctx1 } ∧
    s.ctx0.sameButSecrets t.ctx0 ∧ s.ctx1.sameButSecrets t.ctx1

/-! ### Runs -/

/-- `k` steps from `s` end in a state, with no fault and no refusal, and the engine not halted. -/
def safeRun (k : Nat) (s : State) : Prop := ∃ t, Sys2Proof.core.run k s = .next t ∧ t.status.halted = false

/-- The operation is a command: a write of CMD (R24). -/
def HostOp.isCommand : HostOp → Bool
  | .writeReg o _ => Reg.ofOffset o == some .cmd
  | .reset => false
  | .readReg _ => false
  | .writeBuf _ _ => false
  | .readBuf _ => false
  | .haltCheck => false
  | .secondAgent => false

/-- The run of a host program ended (R242): the engine halted, or no pending operation writes CMD. What stands
behind the last command, and a reset after a halt, belong to no run (log 21). -/
def runEnded (s : State) : Bool := s.status.halted || !s.host.any HostOp.isCommand

/-- At most `k` steps, none once the run ended. -/
def runToEnd : Nat → State → Result
  | 0, s => .next s
  | k + 1, s =>
    if runEnded s then .next s
    else
      match step s with
      | .next s' => runToEnd k s'
      | .fault e => .fault e
      | .refused e => .refused e

/-- The end state of the host's program (R242): the state right after its last command, or after the command
that halted the engine. Each step takes one pending operation, so their number of steps is enough. -/
def endState (s : State) : Result := runToEnd s.host.length s

/-- What a program is judged on (R242): STATUS, RES_LEN, the context views and BUF. -/
structure EndView where
  status : Word
  resLen : Word
  views : List Word
  buf : Memory
  deriving DecidableEq, Repr

/-- That part of a state. -/
def endView (s : State) : EndView :=
  { status := readReg .status s
    resLen := readReg .resLen s
    views := (ctxRegs .enc ++ ctxRegs .dec).map (fun r => readReg r s)
    buf := s.buf }

/-- The states of the first `k` steps, the start included. -/
def visited : Nat → State → List State
  | 0, s => [s]
  | k + 1, s =>
    match step s with
    | .next s' => s :: visited k s'
    | .fault _ => [s]
    | .refused _ => [s]

/-! ### Duties of the host (log 20) -/

/-- A context that cipher commands of this mode can use: step 6 of the boot sequence (R233). -/
def readyFor (m : Mode) (c : Dir) (s : State) : Bool :=
  !s.status.halted && (s.ctx c).valid && (s.ctx c).mode == m

/-- The (ALG, KEY, IV) the host's next operation encrypts under, where it is a GCM_UPDATE on ctx0 (R236). -/
def encryptionNonce (s : State) : Option (Alg × Bytes × Bytes) :=
  match s.host with
  | .writeReg o w :: _ =>
    if Reg.ofOffset o = some .cmd ∧ decode w = .ok (.gcmUpdate .enc) ∧ readyFor .gcm .enc s = true then
      match (src2 s).bytes s.buf with
      | .ok iv => some (s.ctx0.alg, s.ctx0.key, iv)
      | .error _ => none
    else none
  | _ => none

/-- Nonce uniqueness over a run (R236). -/
def noncesUnique (k : Nat) (s : State) : Prop := ((visited k s).filterMap encryptionNonce).Nodup

/-- TAG of this context belongs to the GCM_UPDATE just run (R237): the last command was a GCM_UPDATE of this
context, and it succeeded. -/
def tagCurrent (c : Dir) (s : State) : Bool :=
  decide (decode s.cmd = .ok (.gcmUpdate c)) && s.status.word == 0x00002100 && (s.ctx c).tagValid

/-- The bytes at D are this command's output: only where no error was reported (R238). -/
def outputValid (s : State) : Bool := s.status.code == .ok

/-- A CBC record is padded to whole blocks before CBC_UPDATE (R239). -/
def cbcPadded (x : Bytes) : Bool := x.length % 16 == 0

/-- The host's comparison of a received tag: all 16 bytes are combined whatever they hold (R218). -/
def tagMatches (received : Bytes) (tag : Block) : Bool :=
  received.length == 16 && (xorBytes received (bytesOfBlock tag)).foldl (fun a b => a ||| b) 0 == 0

/-- Recovered plaintext may be used only once the tag was compared (R218, R243). -/
def mayRelease (received : Bytes) (s : State) : Bool :=
  tagCurrent .dec s && tagMatches received s.ctx1.tag

end Sys2Proof.Machine
end

