-- ==== Sys2Proof/Certificates/Slice0/Obligations.lean ====
section
/-! DEFINITION. The statements for the provers. Each docstring names the rule of spec/ it formalises. -/

open Sys2Proof Sys2Proof.Machine

/-! ### Encoding -/

/-- Decoding an encoded command gives it back, for every command and every field value (R70 to R77). -/
def Obligations.DecodeOfEncodeIsTheCommand : Prop :=
  ∀ i : Instr, i.wellFormed = true → decode (encode i) = .ok i

/-- A word that decodes is the encoding of its command: no bit of a command word is dropped (R70 to R78). -/
def Obligations.EncodeOfDecodeIsTheWord : Prop :=
  ∀ (w : Word) (i : Instr), decode w = .ok i → encode i = w

/-- R72: a word selects a row exactly when (w AND mask) = match, no word matches two rows, and a row's
mask leaves out exactly its variable bits. -/
def Obligations.WordSelectsItsTableRow : Prop :=
  (∀ (w : Word) (op : Opcode),
      (∃ i, decode w = .ok i ∧ i.opcode = op) ↔ w &&& op.maskWord = op.matchWord) ∧
    (∀ (w : Word) (op op' : Opcode),
      w &&& op.maskWord = op.matchWord → w &&& op'.maskWord = op'.matchWord → op = op') ∧
    (∀ op : Opcode, op.maskWord = ~~~op.varMask ∧ op.matchWord = op.code.setWidth 32)

/-- R77: an unassigned OPC is OPC_RESERVED, an assigned one with a nonzero bit outside its fields is
BITS_RESERVED, and any other word is the opcode's command with its fields w[8], w[9], w[11:10], w[12]. -/
def Obligations.DecodeIsTotalAndNamesItsRejections : Prop :=
  ∀ w : Word,
    ((∀ op : Opcode, op.code ≠ w.extractLsb' 0 8) → decode w = .error .opcReserved) ∧
    ∀ op : Opcode, op.code = w.extractLsb' 0 8 →
      (w &&& ~~~(0x000000FF ||| op.varMask) ≠ 0 → decode w = .error .bitsReserved) ∧
      (w &&& ~~~(0x000000FF ||| op.varMask) = 0 →
        ∃ i, decode w = .ok i ∧ i.opcode = op ∧
          (∀ c m a, i = .ctxCreate c m a →
            c.bits = (w.extractLsb' 8 1).setWidth 32 ∧ m.bits = (w.extractLsb' 9 1).setWidth 32 ∧
              a.bits = (w.extractLsb' 10 2).setWidth 32) ∧
          (∀ c, addressed i = some c → c.bits = (w.extractLsb' 8 1).setWidth 32) ∧
          (∀ c o, i = .cbcUpdate c o → bitWord o = (w.extractLsb' 12 1).setWidth 32))

/-- The worked encodings of 30_encoding.md section 4, and every assembled word and vector V-ENC-1 to V-ENC-9 of
95_test_vectors.md section 5.1. -/
def Obligations.WorkedEncodingsDecode : Prop :=
  decode 0x00000000 = .ok .nop ∧ decode 0x00000001 = .ok .fbOf ∧ decode 0x00000002 = .ok .fbXor ∧
  decode 0x00000003 = .ok .gfMul ∧ decode 0x00000004 = .ok .ghash ∧
  decode 0x00000410 = .ok (.ctxCreate .enc .cbc .aes128) ∧
  decode 0x00000510 = .ok (.ctxCreate .dec .cbc .aes128) ∧
  decode 0x00000610 = .ok (.ctxCreate .enc .gcm .aes128) ∧
  decode 0x00000710 = .ok (.ctxCreate .dec .gcm .aes128) ∧
  decode 0x00000A10 = .ok (.ctxCreate .enc .gcm .aes256) ∧
  decode 0x00000B10 = .ok (.ctxCreate .dec .gcm .aes256) ∧
  decode 0x00000111 = .ok (.ctxDestroy .dec) ∧ decode 0x00000012 = .ok (.cbcReseed .enc) ∧
  decode 0x00000020 = .ok (.cbcUpdate .enc false) ∧ decode 0x00001020 = .ok (.cbcUpdate .enc true) ∧
  decode 0x00001120 = .ok (.cbcUpdate .dec true) ∧ decode 0x00000121 = .ok (.gcmUpdate .dec) ∧
  decode 0x000000FF = .error .opcReserved ∧ decode 0x00000013 = .error .opcReserved ∧
  decode 0x00000100 = .error .bitsReserved ∧ decode 0x80000000 = .error .bitsReserved ∧
  decode 0x00000101 = .error .bitsReserved ∧ decode 0x00000211 = .error .bitsReserved ∧
  decode 0x00002020 = .error .bitsReserved ∧ decode 0x00000220 = .error .bitsReserved

/-- R81: an assembled mnemonic line is a command of that mnemonic with the fields written, an absent
field 0, so the assembler cannot produce a BITS_RESERVED word; and a line with a field the mnemonic does not
use is refused. -/
def Obligations.AssembledLinesAreCommands : Prop :=
  (∀ (op : Opcode) (f : AsmFields) (w : Word), assemble op f = some w →
    ∃ i, decode w = .ok i ∧ i.opcode = op ∧ opcField w = op.code ∧
      (∀ c, addressed i = some c → c = f.ctx.getD .enc) ∧
      (∀ c m a, i = .ctxCreate c m a → m = f.mode.getD .cbc ∧ a = f.alg.getD .null) ∧
      (∀ c o, i = .cbcUpdate c o → o = f.ivo.getD false)) ∧
  (∀ (op : Opcode) (f : AsmFields),
    (op ≠ .ctxCreate ∧ (f.mode ≠ none ∨ f.alg ≠ none)) ∨ (op ≠ .cbcUpdate ∧ f.ivo ≠ none) ∨
        (op ∈ [.nop, .fbOf, .fbXor, .gfMul, .ghash] ∧ f.ctx ≠ none) →
      assemble op f = none)

/-! ### Host accesses and steps -/

/-- A step whose next host operation writes a decodable word to CMD runs exactly that command, in the state
with the operation taken and CMD holding the word (R24, R104). -/
def Obligations.StepRunsTheDecodedCommand : Prop :=
  ∀ (s : State) (w : Word) (i : Instr) (rest : List HostOp),
    s.host = .writeReg 0x000 w :: rest → s.status.halted = false → decode w = .ok i →
      step s = exec i { s with host := rest, cmd := w }

/-- R206: an illegal word is reported with code 5, its own low byte and its detail; CMD takes the word,
RES_LEN is 0, and nothing else changes. -/
def Obligations.IllegalWordIsReported : Prop :=
  ∀ (s : State) (w : Word) (r : Reject) (rest : List HostOp),
    s.host = .writeReg 0x000 w :: rest → s.status.halted = false → decode w = .error r →
      ∃ t, step s = .next t ∧
        t.status.word = 0x5 ||| ((w &&& 0xFF) <<< 8) |||
          ((if r = .opcReserved then 0x01 else 0x02 : Word) <<< 16) ∧
        t = { s with host := rest, cmd := w, resLen := 0, status := t.status }

/-- R205: a command that ends in PRECONDITION_VIOLATION leaves HALTED = 1; every CMD write is then ignored
entirely, while descriptor writes, BUF accesses and register reads still take effect, and only reset clears
HALTED. -/
def Obligations.HaltedEngineIgnoresCommands : Prop :=
  (∀ (i : Instr) (s t : State), exec i s = .next t → t.status.code = .preconditionViolation →
    t.status.halted = true) ∧
  ∀ (s : State) (rest : List HostOp), s.status.halted = true →
    (∀ w, s.host = .writeReg 0x000 w :: rest → step s = .next { s with host := rest }) ∧
    (∀ o v, o ∈ [0x008, 0x00C, 0x010, 0x014, 0x018, 0x01C, 0x020] → s.host = .writeReg o v :: rest →
      ∃ t, step s = .next t ∧ readOffset o t = v) ∧
    (∀ a b, a < s.config.bufBytes → s.host = .writeBuf a b :: rest →
      ∃ t, step s = .next t ∧ t.buf.read a = some b) ∧
    (∀ a b, a < s.config.bufBytes → s.buf.read a = some b → s.host = .readBuf a :: rest →
      step s = .next { s with host := rest, reads := s.reads ++ [.byte a b] }) ∧
    (∀ o, o % 4 = 0 → o ≤ 0xFFC → s.host = .readReg o :: rest →
      step s = .next { s with host := rest, reads := s.reads ++ [.reg o (readOffset o s)] }) ∧
    (∀ t, s.host.head? ≠ some .reset → step s = .next t → t.status.halted = true)

/-- R231: reset leaves HALTED, and no other step clears it or changes what a halted engine reports. -/
def Obligations.OnlyResetLeavesHalted : Prop :=
  ∀ s : State, s.status.halted = true →
    (∀ t, step s = .next t → s.host.head? ≠ some .reset →
      t.status = s.status ∧ t.resLen = s.resLen ∧ t.cmd = s.cmd ∧ (∀ c, t.ctx c = s.ctx c)) ∧
    (s.host.head? = some .reset → ∃ t, step s = .next t ∧ t.status.halted = false)

/-- HALTED is set to 1 by, and only by, a command that ends in PRECONDITION_VIOLATION (R28). -/
def Obligations.OnlyPreconditionViolationHalts : Prop :=
  (∀ s t : State, s.status.halted = false → step s = .next t → t.status.halted = true →
    t.status.code = .preconditionViolation ∧ ∃ w rest, s.host = .writeReg 0x000 w :: rest) ∧
  (∀ (i : Instr) (s t : State), exec i s = .next t →
    (t.status.halted = true ↔ t.status.code = .preconditionViolation))

/-- R21: each descriptor register takes the word written to it, all 32 bits, and reads it back; no other
register changes; after reset each reads 0. -/
def Obligations.DescriptorsReadBackAsWritten : Prop :=
  (∀ (s : State) (o : Nat) (v : Word) (rest : List HostOp),
    o ∈ [0x008, 0x00C, 0x010, 0x014, 0x018, 0x01C, 0x020] → s.host = .writeReg o v :: rest →
      ∃ t, step s = .next t ∧ readOffset o t = v ∧
        (∀ o', o' ≠ o → readOffset o' t = readOffset o' s) ∧
        t = { s with host := rest, desc := t.desc }) ∧
  (∀ o ∈ [0x008, 0x00C, 0x010, 0x014, 0x018, 0x01C, 0x020], readOffset o State.reset = 0)

/-- R40: a write to a read-only register or an unmapped offset changes nothing, an unmapped offset reads
0, and so do the reserved bits of STATUS, PARAMS and CTXc_CFG. -/
def Obligations.ReadOnlyAndUnmappedOffsetsIgnoreWrites : Prop :=
  (∀ (s : State) (o : Nat) (v : Word) (rest : List HostOp), o % 4 = 0 → o ≤ 0xFFC → o ≠ 0x000 →
    o ∉ [0x008, 0x00C, 0x010, 0x014, 0x018, 0x01C, 0x020] → s.host = .writeReg o v :: rest →
      step s = .next { s with host := rest }) ∧
  (∀ (s : State) (o : Nat),
    (0x02C ≤ o ∧ o ≤ 0x0FC) ∨ (0x104 ≤ o ∧ o ≤ 0x10C) ∨ (0x130 ≤ o ∧ o ≤ 0x13C) ∨
      (0x144 ≤ o ∧ o ≤ 0x14C) ∨ (0x170 ≤ o ∧ o ≤ 0x17C) ∨ 0x180 ≤ o → readOffset o s = 0) ∧
  (∀ s : State, readOffset 0x004 s &&& 0x7F0000F0 = 0 ∧ readOffset 0x028 s &&& 0xFFF00000 = 0 ∧
    readOffset 0x100 s &&& 0xFFFFFFC0 = 0 ∧ readOffset 0x140 s &&& 0xFFFFFFC0 = 0)

/-- Host reads return the register or the byte and change nothing of the engine; a host write of a BUF byte sets
that byte, marks it written and leaves every other byte and all other state alone; HALT_CHECK reads STATUS and
drops the rest of the host's program where HALTED is 1; a host with nothing left to do leaves the engine as it
is (R45, R51, R52, R60, R82, R242; log 11 and log 12). -/
def Obligations.HostAccessesTakeEffect : Prop :=
  (∀ (s : State) (o : Nat) (rest : List HostOp), o % 4 = 0 → o ≤ 0xFFC → s.host = .readReg o :: rest →
    step s = .next { s with host := rest, reads := s.reads ++ [.reg o (readOffset o s)] }) ∧
  (∀ (s : State) (a : Nat) (b : Byte) (rest : List HostOp), a < s.config.bufBytes → s.buf.read a = some b →
    s.host = .readBuf a :: rest →
    step s = .next { s with host := rest, reads := s.reads ++ [.byte a b] }) ∧
  (∀ (s : State) (a : Nat) (b : Byte) (rest : List HostOp), a < s.config.bufBytes →
    s.host = .writeBuf a b :: rest →
      ∃ t, step s = .next t ∧ t.buf.read a = some b ∧ t.buf.written a = true ∧
        sameBytesOutside s.buf t.buf a 1 ∧ t = { s with host := rest, buf := t.buf }) ∧
  (∀ (s : State) (rest : List HostOp), s.host = .haltCheck :: rest →
    step s = .next { s with host := if s.status.halted then [] else rest,
                            reads := s.reads ++ [.reg 0x004 s.status.word] }) ∧
  (∀ s : State, s.host = [] → step s = .next s)

/-- An access that spells none of this interface is refused, and a byte nothing has written faults when the
host reads it (R51, R52, R65, R66). -/
def Obligations.MalformedAccessesStop : Prop :=
  ∀ (s : State) (rest : List HostOp),
    (∀ o, o % 4 ≠ 0 ∨ 0xFFC < o →
      (s.host = .readReg o :: rest → step s = .refused (.malformedRegAccess o)) ∧
      ∀ v, s.host = .writeReg o v :: rest → step s = .refused (.malformedRegAccess o)) ∧
    (∀ a, s.config.bufBytes ≤ a →
      (s.host = .readBuf a :: rest → step s = .refused (.bufAddressOutOfRange a)) ∧
      ∀ b, s.host = .writeBuf a b :: rest → step s = .refused (.bufAddressOutOfRange a)) ∧
    (∀ a, a < s.config.bufBytes → s.buf.read a = none → s.host = .readBuf a :: rest →
      step s = .fault (.uninitBuf a)) ∧
    (s.host = .secondAgent :: rest → step s = .refused .secondHostAgent)

/-- Reset sets every register and both contexts to their reset values and clears WRITTEN, whatever the state was,
and State.reset holds the same values (R43). PARAMS reads the constant of R30 for the BUF_BYTES of this engine:
State.reset has the default, 0x00021010, which is the model's choice (log 5). KEY is 0^16 as R230 writes it (log 7). -/
def Obligations.ResetGivesTheResetValues : Prop :=
  ∀ t : State,
    t = State.reset ∨ (∃ (s : State) (rest : List HostOp), s.host = .reset :: rest ∧ step s = .next t) →
      t.cmd = 0 ∧ t.status.word = 0 ∧ t.resLen = 0 ∧ t.desc = ⟨0, 0, 0, 0, 0, 0, 0⟩ ∧
      (∀ c, t.ctx c = ⟨false, .cbc, .null, List.replicate 16 0, 0, 0, 0, false⟩) ∧
      (∀ a, t.buf.written a = false) ∧ readOffset 0x028 t = 0x00020010 ||| (BitVec.ofNat 32 t.config.bufLog2 <<< 8) ∧
      (t = State.reset → readOffset 0x028 t = 0x00021010) ∧
      (∀ o, o ≠ 0x028 → readOffset o t = 0)

/-- A reset completes in every state (R230). That the host's remaining operations, its read log, the environment's
draws and the parameters stay is the model's choice (log 17). -/
def Obligations.ResetCompletes : Prop :=
  ∀ (s : State) (rest : List HostOp), s.host = .reset :: rest →
    step s = .next { State.reset with
      host := rest, reads := s.reads, draws := s.draws, drawCount := s.drawCount, config := s.config }

/-! ### Views -/

/-- The fields of the STATUS word stand at the places of R25; a success reports CODE 0 and DETAIL 0, and each error
the CODE and the DETAIL that the tables of R26 and R27 give it, none of them OK or the reserved code 4 (R204). A read
of CMD returns the last accepted word (R24), and a read of RES_LEN the result length (R29). -/
def Obligations.StatusWordLayout : Prop :=
  (∀ (opc : Byte) (e : CmdError), ((errorStatus opc e).code, (errorStatus opc e).detail) ∈ legalReports ∧
    (errorStatus opc e).code ≠ .ok ∧ (errorStatus opc e).code ≠ .authenticationFailure) ∧
  (∀ opc : Byte,
    let report := fun (e : CmdError) => ((errorStatus opc e).code.value, (errorStatus opc e).detail)
    ((okStatus opc).code.value, (okStatus opc).detail) = (0, 0x00) ∧
    report .algNull = (1, 0x01) ∧ report .algReserved = (1, 0x02) ∧ report .keySetup = (1, 0x03) ∧
    report .inUpdate = (2, 0x01) ∧ report .inCreate = (2, 0x02) ∧
    report .cbcLen = (3, 0x01) ∧ report .xorLenMismatch = (3, 0x02) ∧ report .xorLenOverBlock = (3, 0x03) ∧
    report .fixedLen = (3, 0x04) ∧ report .bufRange = (3, 0x05) ∧
    report (.illegal .opcReserved) = (5, 0x01) ∧ report (.illegal .bitsReserved) = (5, 0x02) ∧
    report .noContext = (6, 0x00) ∧ report .modeMismatch = (7, 0x00)) ∧
  ∀ s : State,
    readOffset 0x000 s = s.cmd ∧ readOffset 0x024 s = s.resLen ∧
    (readOffset 0x004 s).extractLsb' 0 4 = s.status.code.value ∧
    (readOffset 0x004 s).extractLsb' 4 4 = 0 ∧
    (readOffset 0x004 s).extractLsb' 8 8 = s.status.lastOpc ∧
    (readOffset 0x004 s).extractLsb' 16 8 = s.status.detail ∧
    (readOffset 0x004 s).extractLsb' 24 7 = 0 ∧
    (readOffset 0x004 s).getLsbD 31 = s.status.halted

/-- R38, R39, R54: word k of the CHAIN and TAG views is bytes 4k .. 4k+3 of the field, byte 4k in bits 31:24,
whatever TAG_VALID is; writes of the views are ignored, and they read 0 after reset. -/
def Obligations.ContextViewsAreBigEndian : Prop :=
  ∀ (s : State) (c : Dir) (k : Fin 4),
    readOffset (0x110 + 0x40 * c.bits.toNat + 4 * k.val) s =
      BitVec.ofNat 32 (beValue (((bytesOfBlock (s.ctx c).chain).drop (4 * k.val)).take 4)) ∧
    readOffset (0x120 + 0x40 * c.bits.toNat + 4 * k.val) s =
      BitVec.ofNat 32 (beValue (((bytesOfBlock (s.ctx c).tag).drop (4 * k.val)).take 4)) ∧
    (∀ b ∈ [0x110, 0x120], ∀ v rest, s.host = .writeReg (b + 0x40 * c.bits.toNat + 4 * k.val) v :: rest →
      step s = .next { s with host := rest }) ∧
    (∀ b ∈ [0x110, 0x120], readOffset (b + 0x40 * c.bits.toNat + 4 * k.val) State.reset = 0)

/-- R37: CTXc_CFG reads VALID, MODE, DIR, ALG and TAG_VALID at their places, and 0 for an invalid context;
writes are ignored, and it reads 0 after reset. -/
def Obligations.CfgWordLayout : Prop :=
  ∀ (s : State) (c : Dir),
    ((s.ctx c).valid = false → readOffset (0x100 + 0x40 * c.bits.toNat) s = 0) ∧
    ((s.ctx c).valid = true →
      readOffset (0x100 + 0x40 * c.bits.toNat) s =
        BitVec.ofNat 32 (1 + 2 * (s.ctx c).mode.bits.toNat + 4 * c.bits.toNat +
          8 * (s.ctx c).alg.bits.toNat + 32 * (s.ctx c).tagValid.toNat)) ∧
    (∀ v rest, s.host = .writeReg (0x100 + 0x40 * c.bits.toNat) v :: rest →
      step s = .next { s with host := rest }) ∧
    readOffset (0x100 + 0x40 * c.bits.toNat) State.reset = 0

/-- PARAMS holds BLOCK_BYTES = 16, log2(BUF_BYTES) and NUM_CTX = 2 at their places, and 0 above; no step changes it,
and a host write of it is ignored (R30). Every power of two between 2^8 and 2^24 is a BUF_BYTES (R6). That the
parameters stand in State, where no step changes them, and that State.reset has the default is the model's choice
(log 5). -/
def Obligations.ParamsIsConstant : Prop :=
  (∀ s : State,
    (readOffset 0x028 s).extractLsb' 0 8 = 16 ∧
    (readOffset 0x028 s).extractLsb' 8 8 = BitVec.ofNat 8 s.config.bufLog2 ∧
    (readOffset 0x028 s).extractLsb' 16 4 = 2 ∧ (readOffset 0x028 s).extractLsb' 20 12 = 0) ∧
  (∀ s t : State, step s = .next t → t.config = s.config ∧ readOffset 0x028 t = readOffset 0x028 s) ∧
  (∀ (s : State) (v : Word) (rest : List HostOp), s.host = .writeReg 0x028 v :: rest →
    step s = .next { s with host := rest }) ∧
  (∀ p : Configuration, p.bufBytes = 2 ^ p.bufLog2 ∧ 8 ≤ p.bufLog2 ∧ p.bufLog2 ≤ 24) ∧
  (∀ k, 8 ≤ k → k ≤ 24 → ∃ p : Configuration, p.bufLog2 = k) ∧
  readOffset 0x028 State.reset = 0x00021010 ∧ State.reset.config.bufBytes = 65536

/-- No register read depends on a context's KEY or H (R36). -/
def Obligations.RegisterReadsHideSecrets : Prop :=
  ∀ (s t : State) (o : Nat), s.sameButSecrets t → readOffset o t = readOffset o s

/-! ### Commands: completion and result -/

/-- NOP completes in every state with STATUS 0 and RES_LEN 0, and changes nothing else (R106). -/
def Obligations.NopCompletes : Prop :=
  ∀ s : State, ∃ t, exec .nop s = .next t ∧ t.status.word = 0x00000000 ∧ t.resLen = 0 ∧ onlyReport s t

/-- FB_OF writes the source, zero-padded or truncated to 16 bytes, at D (R190, R192). -/
def Obligations.FbOfCompletes : Prop :=
  ∀ (s : State) (b : Bytes),
    s.desc.s0Addr.toNat + s.desc.s0Len.toNat ≤ s.config.bufBytes →
    s.desc.dAddr.toNat + 16 ≤ s.config.bufBytes →
    s.buf.readBytes s.desc.s0Addr.toNat (min s.desc.s0Len.toNat 16) = .ok b →
    ∃ t, exec .fbOf s = .next t ∧ t.status.word = 0x00000100 ∧ t.resLen = 16 ∧
      holdsBytes t.buf s.desc.dAddr.toNat (b ++ List.replicate (16 - b.length) 0) ∧
      sameBytesOutside s.buf t.buf s.desc.dAddr.toNat 16 ∧ onlyReportAndBuf s t

/-- FB_XOR writes the byte-wise XOR of S1 and S0 at D, for every equal length up to 16 (R191, R193). -/
def Obligations.FbXorCompletes : Prop :=
  ∀ (s : State) (n : Nat) (self other : Bytes),
    s.desc.s0Len.toNat = n → s.desc.s1Len.toNat = n → n ≤ 16 →
    s.desc.s0Addr.toNat + n ≤ s.config.bufBytes → s.desc.s1Addr.toNat + n ≤ s.config.bufBytes →
    s.desc.dAddr.toNat + n ≤ s.config.bufBytes →
    s.buf.readBytes s.desc.s1Addr.toNat n = .ok self → s.buf.readBytes s.desc.s0Addr.toNat n = .ok other →
    ∃ t, exec .fbXor s = .next t ∧ t.status.word = 0x00000200 ∧ t.resLen.toNat = n ∧
      (∀ j, j < n → t.buf.read (s.desc.dAddr.toNat + j) = some (self[j]?.getD 0 ^^^ other[j]?.getD 0)) ∧
      sameBytesOutside s.buf t.buf s.desc.dAddr.toNat n ∧ onlyReportAndBuf s t

/-- GF_MUL writes the serialized product of its two 16-byte operands at D (R177). -/
def Obligations.GfMulCompletes : Prop :=
  ∀ (s : State) (a b : Bytes),
    s.desc.s0Len = 16 → s.desc.s1Len = 16 →
    s.desc.s0Addr.toNat + 16 ≤ s.config.bufBytes → s.desc.s1Addr.toNat + 16 ≤ s.config.bufBytes →
    s.desc.dAddr.toNat + 16 ≤ s.config.bufBytes →
    s.buf.readBytes s.desc.s0Addr.toNat 16 = .ok a → s.buf.readBytes s.desc.s1Addr.toNat 16 = .ok b →
    ∃ t, exec .gfMul s = .next t ∧ t.status.word = 0x00000300 ∧ t.resLen = 16 ∧
      holdsBytes t.buf s.desc.dAddr.toNat (bytesOfBlock (gfMul (blockOfBytes a) (blockOfBytes b))) ∧
      sameBytesOutside s.buf t.buf s.desc.dAddr.toNat 16 ∧ onlyReportAndBuf s t

/-- GHASH writes the accumulator S2 updated with H = S1 over the data S0 at D (R178). -/
def Obligations.GhashCompletes : Prop :=
  ∀ (s : State) (data h acc : Bytes),
    s.desc.s1Len = 16 → s.desc.s2Len = 16 →
    s.desc.s0Addr.toNat + s.desc.s0Len.toNat ≤ s.config.bufBytes →
    s.desc.s1Addr.toNat + 16 ≤ s.config.bufBytes → s.desc.s2Addr.toNat + 16 ≤ s.config.bufBytes →
    s.desc.dAddr.toNat + 16 ≤ s.config.bufBytes →
    s.buf.readBytes s.desc.s0Addr.toNat s.desc.s0Len.toNat = .ok data →
    s.buf.readBytes s.desc.s1Addr.toNat 16 = .ok h → s.buf.readBytes s.desc.s2Addr.toNat 16 = .ok acc →
    ∃ t, exec .ghash s = .next t ∧ t.status.word = 0x00000400 ∧ t.resLen = 16 ∧
      holdsBytes t.buf s.desc.dAddr.toNat
        (bytesOfBlock (ghashUpdate (blockOfBytes acc) (blockOfBytes h) data)) ∧
      sameBytesOutside s.buf t.buf s.desc.dAddr.toNat 16 ∧ onlyReportAndBuf s t

/-- CTX_CREATE of a CBC context completes with the new context in the slot, the other context and BUF
untouched (R107). The key has its algorithm's length and is none the engine's key setup rejects, which are none at
the spec's default of keyOk (R102; log 4). -/
def Obligations.CtxCreateCbcCompletes : Prop :=
  ∀ (s : State) (c : Dir) (alg : Alg) (key iv : Bytes),
    (alg = .aes128 ∧ key.length = 16) ∨ (alg = .aes256 ∧ key.length = 32) →
    (alg, key) ∉ s.config.rejectedKeys →
    s.desc.s2Len = 16 →
    s.desc.s0Addr.toNat + s.desc.s0Len.toNat ≤ s.config.bufBytes →
    s.desc.s2Addr.toNat + 16 ≤ s.config.bufBytes →
    s.buf.readBytes s.desc.s0Addr.toNat s.desc.s0Len.toNat = .ok key →
    s.buf.readBytes s.desc.s2Addr.toNat 16 = .ok iv →
    ∃ t, exec (.ctxCreate c .cbc alg) s = .next t ∧ t.status.word = 0x00001000 ∧ t.resLen = 0 ∧
      t.ctx c = ⟨true, .cbc, alg, key, blockOfBytes iv, 0, 0, false⟩ ∧ t.ctx c.other = s.ctx c.other ∧
      t = { s with status := t.status, resLen := t.resLen, ctx0 := t.ctx0, ctx1 := t.ctx1 }

/-- CTX_CREATE of a GCM context completes with H = E(alg, key, 0^16) and CHAIN = 0^16, whatever the S2
descriptor holds, when the draw is ok (R107). The key has its algorithm's length and is none the engine's key setup
rejects (R102; log 4). -/
def Obligations.CtxCreateGcmCompletes : Prop :=
  ∀ (s : State) (c : Dir) (alg : Alg) (key : Bytes),
    (alg = .aes128 ∧ key.length = 16) ∨ (alg = .aes256 ∧ key.length = 32) →
    (alg, key) ∉ s.config.rejectedKeys →
    s.desc.s0Addr.toNat + s.desc.s0Len.toNat ≤ s.config.bufBytes →
    s.buf.readBytes s.desc.s0Addr.toNat s.desc.s0Len.toNat = .ok key → s.nextDraw = .ok →
    ∃ t, exec (.ctxCreate c .gcm alg) s = .next t ∧ t.status.word = 0x00001000 ∧ t.resLen = 0 ∧
      t.ctx c = ⟨true, .gcm, alg, key, 0, Config.E alg key 0, 0, false⟩ ∧
      t.ctx c.other = s.ctx c.other ∧
      t = { s with status := t.status, resLen := t.resLen, ctx0 := t.ctx0, ctx1 := t.ctx1,
                   draws := s.draws.tail, drawCount := s.drawCount + 1 }

/-- CTX_CREATE that fails with UNSUPPORTED_ALGORITHM or PRIMITIVE_FAILURE leaves the slot empty, the other
context and BUF untouched, and does not halt (R107, R201, R202). Key setup fails on a key of the wrong length, and on
one the engine's key setup rejects (R102; log 4). -/
def Obligations.FailedCtxCreateEmptiesTheSlot : Prop :=
  ∀ (s : State) (c : Dir) (m : Mode) (alg : Alg) (key : Bytes),
    checkedError (.ctxCreate c m alg) s = none →
    s.buf.readBytes s.desc.s0Addr.toNat s.desc.s0Len.toNat = .ok key →
    (m = .cbc → ∃ iv, s.buf.readBytes s.desc.s2Addr.toNat 16 = .ok iv) →
    ∀ word : Word,
      (alg = .null ∧ word = 0x00011001) ∨ (alg = .reserved ∧ word = 0x00021001) ∨
        (((alg = .aes128 ∧ key.length ≠ 16) ∨ (alg = .aes256 ∧ key.length ≠ 32) ∨
            ((alg = .aes128 ∨ alg = .aes256) ∧ (alg, key) ∈ s.config.rejectedKeys)) ∧ word = 0x00031001) ∨
        (m = .gcm ∧ ((alg = .aes128 ∧ key.length = 16) ∨ (alg = .aes256 ∧ key.length = 32)) ∧
          (alg, key) ∉ s.config.rejectedKeys ∧ s.nextDraw = .fail ∧ word = 0x00021002) →
      ∃ t, exec (.ctxCreate c m alg) s = .next t ∧ t.status.word = word ∧ t.resLen = 0 ∧
        t.status.halted = false ∧ t.ctx c = Context.empty ∧ t.ctx c.other = s.ctx c.other ∧
        t.buf = s.buf ∧ t.desc = s.desc

/-- CTX_DESTROY completes in every state, with the slot empty and nothing else changed (R108). -/
def Obligations.CtxDestroyCompletes : Prop :=
  ∀ (s : State) (c : Dir),
    ∃ t, exec (.ctxDestroy c) s = .next t ∧ t.status.word = 0x00001100 ∧ t.resLen = 0 ∧
      t.ctx c = ⟨false, .cbc, .null, List.replicate 16 0, 0, 0, 0, false⟩ ∧
      t.ctx c.other = s.ctx c.other ∧
      t = { s with status := t.status, resLen := t.resLen, ctx0 := t.ctx0, ctx1 := t.ctx1 }

/-- CBC_RESEED completes with CHAIN the 16 bytes of S2 and nothing else of the context changed (R126). -/
def Obligations.CbcReseedCompletes : Prop :=
  ∀ (s : State) (c : Dir) (iv : Bytes),
    (s.ctx c).valid = true → (s.ctx c).mode = .cbc → s.desc.s2Len = 16 →
    s.desc.s2Addr.toNat + 16 ≤ s.config.bufBytes →
    s.buf.readBytes s.desc.s2Addr.toNat 16 = .ok iv →
    ∃ t, exec (.cbcReseed c) s = .next t ∧ t.status.word = 0x00001200 ∧ t.resLen = 0 ∧
      t.ctx c = { s.ctx c with chain := blockOfBytes iv } ∧ bytesOfBlock (t.ctx c).chain = iv ∧
      t.ctx c.other = s.ctx c.other ∧
      t = { s with status := t.status, resLen := t.resLen, ctx0 := t.ctx0, ctx1 := t.ctx1 }

/-- CBC_UPDATE completes, in both directions and with or without the override: the output of the direction's
iteration from the override or CHAIN stands at D, CHAIN is the last IV, and an empty input takes no draw
(R121, R122, R125, R127). -/
def Obligations.CbcUpdateCompletes : Prop :=
  ∀ (s : State) (c : Dir) (ivo : Bool) (x : Bytes) (iv : Block) (n : Nat),
    (s.ctx c).valid = true → (s.ctx c).mode = .cbc → s.desc.s0Len.toNat = n → n % 16 = 0 →
    s.desc.s0Addr.toNat + n ≤ s.config.bufBytes → s.desc.dAddr.toNat + n ≤ s.config.bufBytes →
    s.buf.readBytes s.desc.s0Addr.toNat n = .ok x →
    (ivo = false → iv = (s.ctx c).chain) →
    (ivo = true → s.desc.s2Len = 16 ∧ s.desc.s2Addr.toNat + 16 ≤ s.config.bufBytes ∧
      ∃ b, s.buf.readBytes s.desc.s2Addr.toNat 16 = .ok b ∧ iv = blockOfBytes b) →
    (0 < n → s.nextDraw = .ok) →
    ∃ t, exec (.cbcUpdate c ivo) s = .next t ∧ t.status.word = 0x00002000 ∧ t.resLen.toNat = n ∧
      holdsBytes t.buf s.desc.dAddr.toNat (bytesOfBlocks (match c with
        | .enc => (cbcEncrypt (Config.E (s.ctx c).alg (s.ctx c).key) iv (blocksOf x)).1
        | .dec => (cbcDecrypt (Config.Einv (s.ctx c).alg (s.ctx c).key) iv (blocksOf x)).1)) ∧
      t.ctx c = { s.ctx c with chain := match c with
        | .enc => (cbcEncrypt (Config.E (s.ctx c).alg (s.ctx c).key) iv (blocksOf x)).2
        | .dec => (cbcDecrypt (Config.Einv (s.ctx c).alg (s.ctx c).key) iv (blocksOf x)).2 } ∧
      t.ctx c.other = s.ctx c.other ∧ sameBytesOutside s.buf t.buf s.desc.dAddr.toNat n ∧
      t = { s with status := t.status, resLen := t.resLen, buf := t.buf, ctx0 := t.ctx0, ctx1 := t.ctx1,
                   draws := if 0 < n then s.draws.tail else s.draws,
                   drawCount := if 0 < n then s.drawCount + 1 else s.drawCount }

/-- GCM_UPDATE completes in both directions: the keystream XOR stands at D, CHAIN is the last counter block,
TAG is E(J0) XOR the accumulator over AAD and ciphertext, and TAG_VALID is 1 (R144 to R149). -/
def Obligations.GcmUpdateCompletes : Prop :=
  ∀ (s : State) (c : Dir) (x aad iv : Bytes) (n : Nat),
    (s.ctx c).valid = true → (s.ctx c).mode = .gcm → s.desc.s0Len.toNat = n →
    s.desc.s0Addr.toNat + n ≤ s.config.bufBytes →
    s.desc.s1Addr.toNat + s.desc.s1Len.toNat ≤ s.config.bufBytes →
    s.desc.s2Addr.toNat + s.desc.s2Len.toNat ≤ s.config.bufBytes →
    s.desc.dAddr.toNat + n ≤ s.config.bufBytes →
    s.buf.readBytes s.desc.s0Addr.toNat n = .ok x →
    s.buf.readBytes s.desc.s1Addr.toNat s.desc.s1Len.toNat = .ok aad →
    s.buf.readBytes s.desc.s2Addr.toNat s.desc.s2Len.toNat = .ok iv → s.nextDraw = .ok →
    let e := Config.E (s.ctx c).alg (s.ctx c).key
    let j0 := deriveJ0 (s.ctx c).h iv
    let y := ctrXor e j0 x
    let cipher := if c = .enc then y else x
    ∃ t, exec (.gcmUpdate c) s = .next t ∧ t.status.word = 0x00002100 ∧ t.resLen.toNat = n ∧
      holdsBytes t.buf s.desc.dAddr.toNat y ∧
      t.ctx c = { s.ctx c with
        chain := counterBlock j0 (ceil16 n)
        tag := e j0 ^^^ gcmAccumulate (s.ctx c).h aad cipher
        tagValid := true } ∧
      t.ctx c.other = s.ctx c.other ∧ sameBytesOutside s.buf t.buf s.desc.dAddr.toNat n ∧
      t = { s with status := t.status, resLen := t.resLen, buf := t.buf, ctx0 := t.ctx0, ctx1 := t.ctx1,
                   draws := s.draws.tail, drawCount := s.drawCount + 1 }

/-! ### Commands: errors -/

/-- Checks 3 to 6 of R209: the first of NO_CONTEXT, MODE_MISMATCH, BUF_RANGE over the regions R79 names and
the length preconditions that fails is the report, and nothing but STATUS and RES_LEN changes; where all
pass, none of these is reported. -/
def Obligations.ChecksFollowTheirOrder : Prop :=
  ∀ (i : Instr) (s : State),
    (∀ e, checkedError i s = some e → failsWith s i.opcode.code e (exec i s)) ∧
    (checkedError i s = none → ∀ t, exec i s = .next t →
      t.status.code ≠ .noContext ∧ t.status.code ≠ .modeMismatch ∧
        t.status.code ≠ .preconditionViolation)

/-- A primitive failure in CBC_UPDATE with a non-empty input or in GCM_UPDATE is reported and changes nothing
else of the engine (R128, R202); with PRIM_CAN_FAIL false no command reports one (R101). -/
def Obligations.PrimitiveFailureChangesNothing : Prop :=
  (∀ (i : Instr) (s t : State), s.config.primCanFail = false → exec i s = .next t →
    t.status.code ≠ .primitiveFailure) ∧
  ∀ (i : Instr) (s : State) (word : Word),
    (∃ c ivo, i = .cbcUpdate c ivo ∧ 0 < s.desc.s0Len.toNat ∧ word = 0x00012002 ∧
        (∃ b, (src0 s).bytes s.buf = .ok b) ∧ (ivo = true → ∃ b, (src2 s).bytes s.buf = .ok b)) ∨
      (∃ c, i = .gcmUpdate c ∧ word = 0x00012102 ∧
        ∀ p ∈ [src0 s, src1 s, src2 s], ∃ b, p.bytes s.buf = .ok b) →
    checkedError i s = none → s.nextDraw = .fail →
    ∃ t, exec i s = .next t ∧ t.status.word = word ∧ t.status.halted = false ∧
      t = { s with status := t.status, resLen := 0, draws := s.draws.tail,
                   drawCount := s.drawCount + 1 }

/-- R211: a command that raises an error writes RES_LEN = 0, STATUS from its code, detail and own opcode, CMD the
word, and EMPTY to the slot of a CTX_CREATE that ends in UNSUPPORTED_ALGORITHM or PRIMITIVE_FAILURE; nothing else of
the engine changes. (The draws are the environment's: log 2.) -/
def Obligations.FailedCommandsChangeOnlyTheReport : Prop :=
  ∀ (s t : State) (w : Word) (rest : List HostOp),
    s.host = .writeReg 0x000 w :: rest → s.status.halted = false → step s = .next t → t.status.code ≠ .ok →
    t.status.word = t.status.code.value.setWidth 32 ||| ((w &&& 0xFF) <<< 8) |||
      (t.status.detail.setWidth 32 <<< 16) |||
      (if t.status.code = .preconditionViolation then 0x80000000 else 0) ∧
    (∀ c m a, decode w = .ok (.ctxCreate c m a) →
      t.status.code = .unsupportedAlgorithm ∨ t.status.code = .primitiveFailure → t.ctx c = Context.empty) ∧
    (∀ c, ¬ ((∃ m a, decode w = .ok (.ctxCreate c m a)) ∧
        (t.status.code = .unsupportedAlgorithm ∨ t.status.code = .primitiveFailure)) → t.ctx c = s.ctx c) ∧
    t = { s with host := rest, cmd := w, status := t.status, resLen := 0, ctx0 := t.ctx0, ctx1 := t.ctx1,
                 draws := t.draws, drawCount := t.drawCount }

/-- No command is refused, and one stops only because it reads a byte nothing has written (R65). -/
def Obligations.CommandsStopOnlyOnUnwrittenBytes : Prop :=
  ∀ (i : Instr) (s : State),
    (∃ t, exec i s = .next t) ∨
      (∃ a, exec i s = .fault (.uninitBuf a) ∧ s.buf.written a = false ∧ a < s.config.bufBytes)

/-! ### Frames -/

/-- R22: no command writes a descriptor register, nor CMD, the host's operations or its read log; a step that
changes a descriptor is a reset or a host write of that register. -/
def Obligations.CommandsLeaveTheDescriptors : Prop :=
  (∀ (i : Instr) (s t : State), exec i s = .next t →
    t.desc = s.desc ∧ t.cmd = s.cmd ∧ t.host = s.host ∧ t.reads = s.reads) ∧
  (∀ s t : State, step s = .next t → ∀ o ∈ [0x008, 0x00C, 0x010, 0x014, 0x018, 0x01C, 0x020],
    readOffset o t = readOffset o s ∨ s.host.head? = some .reset ∨
      ∃ v, s.host.head? = some (.writeReg o v))

/-- A command stores only RES_LEN bytes at D_ADDR: every other byte reads as before; all of BUF does after an
error, and after a command without a result: NOP, CTX_CREATE, CTX_DESTROY, CBC_RESEED (R29, R58). -/
def Obligations.BytesOutsideTheResultAreUnchanged : Prop :=
  ∀ (i : Instr) (s t : State), exec i s = .next t →
    sameBytesOutside s.buf t.buf s.desc.dAddr.toNat t.resLen.toNat ∧
    (t.status.code ≠ .ok ∨ i = .nop ∨ (∃ c m a, i = .ctxCreate c m a) ∨ (∃ c, i = .ctxDestroy c) ∨
        (∃ c, i = .cbcReseed c) →
      t.resLen = 0 ∧ t.buf = s.buf)

/-- The fixed-block and GF commands touch no context and take no draw: only STATUS, RES_LEN and BUF may
change (R73). -/
def Obligations.PureCommandsTouchNoContext : Prop :=
  ∀ (i : Instr) (s t : State), exec i s = .next t →
    i = .nop ∨ i = .fbOf ∨ i = .fbXor ∨ i = .gfMul ∨ i = .ghash → onlyReportAndBuf s t

/-- The update commands and CBC_RESEED keep the context's VALID, MODE, ALG, KEY and H; the CBC ones keep TAG
and TAG_VALID too (R33 to R35). -/
def Obligations.UpdatesKeepTheKey : Prop :=
  ∀ (i : Instr) (s t : State) (c : Dir), exec i s = .next t →
    (∃ ivo, i = .cbcUpdate c ivo) ∨ i = .cbcReseed c ∨ i = .gcmUpdate c →
    t.ctx c = { s.ctx c with chain := (t.ctx c).chain, tag := (t.ctx c).tag,
                             tagValid := (t.ctx c).tagValid } ∧
    (i ≠ .gcmUpdate c → (t.ctx c).tag = (s.ctx c).tag ∧ (t.ctx c).tagValid = (s.ctx c).tagValid)

/-- A command reads and writes no field of a context it does not address: that context stays, and changing it
changes nothing else (R216). -/
def Obligations.CommandsIgnoreTheOtherContext : Prop :=
  ∀ (i : Instr) (s : State) (c : Dir), addressed i ≠ some c →
    (∀ t, exec i s = .next t → t.ctx c = s.ctx c) ∧
    (∀ x, exec i (s.setCtx c x) = mapNext (fun t => t.setCtx c x) (exec i s))

/-! ### The invariant -/

/-- The invariant holds after reset (R43, R44). -/
def Obligations.ResetSatisfiesTheInvariant : Prop := State.reset.Inv

/-- Every step keeps the invariant, from every state that has it (R44). -/
def Obligations.EveryStepKeepsTheInvariant : Prop :=
  ∀ s t : State, s.Inv → step s = .next t → t.Inv

/-! ### The functions -/

/-- R172: toBytes is BE_8(hi) || BE_8(lo), inverse to R171 both ways, and in integer terms S = int(B). -/
def Obligations.ElementSerializationIsInverse : Prop :=
  (∀ b : Bytes, b.length = 16 → (GF128.ofBytes b).toBytes = b ∧
    (GF128.ofBytes b).value.toNat = beValue b) ∧
  (∀ e : GF128, e.toBytes = beBytes 8 e.hi.toNat ++ beBytes 8 e.lo.toNat ∧ GF128.ofBytes e.toBytes = e ∧
    e.toBytes = bytesOfBlock e.value)

/-- gfMul distributes over XOR on both sides, 0 annihilates, and 80 00 .. 00 is the identity (R175). -/
def Obligations.GfMulIsBilinearWithIdentity : Prop :=
  (∀ x y z : Block, gfMul x (y ^^^ z) = gfMul x y ^^^ gfMul x z ∧
    gfMul (x ^^^ y) z = gfMul x z ^^^ gfMul y z) ∧
  (∀ y : Block, gfMul 0 y = 0 ∧ gfMul y 0 = 0) ∧
  (∀ y : Block, gfMul (1 <<< 127) y = y ∧ gfMul y (1 <<< 127) = y) ∧
  gfMul (1 <<< 126) 1 = 0xE1 <<< 120

/-- gfMul is commutative and associative (R175). -/
def Obligations.GfMulIsCommutativeAndAssociative : Prop :=
  (∀ x y : Block, gfMul x y = gfMul y x) ∧
  (∀ x y z : Block, gfMul (gfMul x y) z = gfMul x (gfMul y z))

/-- The (hi, lo) form of the multiplication of R174 computes the integer form. -/
def Obligations.PairMultiplicationAgrees : Prop :=
  ∀ a b : GF128, (GF128.mul a b).value = gfMul a.value b.value

/-- R176: empty data leaves the accumulator; other data folds its first chunk, zero-padded to 16 bytes, and
then the rest; a short last chunk counts as if the data were zero-padded. -/
def Obligations.GhashFoldsZeroPaddedChunks : Prop :=
  (∀ acc h : Block, ghashUpdate acc h [] = acc) ∧
  (∀ (acc h : Block) (chunk rest : Bytes), chunk.length = 16 →
    ghashUpdate acc h (chunk ++ rest) = ghashUpdate (gfMul (acc ^^^ blockOfBytes chunk) h) h rest) ∧
  (∀ (acc h : Block) (chunk : Bytes), 0 < chunk.length → chunk.length < 16 →
    ghashUpdate acc h chunk =
      gfMul (acc ^^^ blockOfBytes (chunk ++ List.replicate (16 - chunk.length) 0)) h) ∧
  (∀ (acc h : Block) (data : Bytes),
    ghashUpdate acc h data =
      ghashUpdate acc h (data ++ List.replicate (16 * ceil16 data.length - data.length) 0))

/-- R142: inc32 adds 1 modulo 2^32 to bytes 12..15 and never changes bytes 0..11. -/
def Obligations.Inc32WrapsInTheLowWord : Prop :=
  ∀ cb : Block,
    (bytesOfBlock (inc32 cb)).take 12 = (bytesOfBlock cb).take 12 ∧
    beValue ((bytesOfBlock (inc32 cb)).drop 12) = (beValue ((bytesOfBlock cb).drop 12) + 1) % 2 ^ 32

/-- R141: a 12-byte IV gives IV || 00000001; every other length folds the zero-padded IV and the block of its
bit length through GHASH from 0; the empty IV gives 0^16. -/
def Obligations.J0FollowsTheIvLength : Prop :=
  (∀ (h : Block) (iv : Bytes), iv.length = 12 → bytesOfBlock (deriveJ0 h iv) = iv ++ [0, 0, 0, 1]) ∧
  (∀ (h : Block) (iv : Bytes), iv.length ≠ 12 →
    deriveJ0 h iv = gfMul (ghashUpdate 0 h iv ^^^ BitVec.ofNat 128 (8 * iv.length % 2 ^ 64)) h) ∧
  (∀ h : Block, deriveJ0 h [] = 0)

/-- R144: the output has the input's length, and byte j of it is byte j of the input XOR byte j mod 16 of
E(CB_i) with i = j / 16 + 1. -/
def Obligations.KeystreamXorIsBytewise : Prop :=
  ∀ (e : Block → Block) (j0 : Block) (x : Bytes),
    (ctrXor e j0 x).length = x.length ∧
    ∀ j, j < x.length →
      (ctrXor e j0 x)[j]?.getD 0 =
        x[j]?.getD 0 ^^^ (bytesOfBlock (e (counterBlock j0 (j / 16 + 1))))[j % 16]?.getD 0

/-- No byte of the last keystream block beyond the input affects the output, the tag or CHAIN: two
transforms that agree on J0, on the earlier counter blocks and on the leading bytes of the last one give the
same result (R150). -/
def Obligations.UnusedKeystreamHasNoEffect : Prop :=
  ∀ (e e' : Block → Block) (h : Block) (c : Dir) (iv aad x : Bytes),
    e' (deriveJ0 h iv) = e (deriveJ0 h iv) →
    (∀ j, j < x.length →
      (bytesOfBlock (e' (counterBlock (deriveJ0 h iv) (j / 16 + 1))))[j % 16]? =
        (bytesOfBlock (e (counterBlock (deriveJ0 h iv) (j / 16 + 1))))[j % 16]?) →
    gcmCrypt e' h c iv aad x = gcmCrypt e h c iv aad x

/-- The condition of step 3 of R146 makes no difference: folding the length block always gives the same
accumulator. -/
def Obligations.LengthBlockConditionIsImmaterial : Prop :=
  ∀ (h : Block) (aad c : Bytes),
    gcmAccumulate h aad c =
      ghashUpdate (ghashUpdate (ghashUpdate 0 h aad) h c) h
        (beBytes 8 (8 * aad.length) ++ beBytes 8 (8 * c.length))

/-- R129: two successful CBC_UPDATEs in a row on one context, without the override, give the output and the
CHAIN of one CBC_UPDATE on both inputs from the same context, in either direction. -/
def Obligations.CbcChainsAcrossCalls : Prop :=
  ∀ (c : Dir) (s1 t1 s2 t2 s t : State) (x1 x2 y1 y2 y : Bytes),
    exec (.cbcUpdate c false) s1 = .next t1 → t1.status.code = .ok → (src0 s1).bytes s1.buf = .ok x1 →
    t1.buf.readBytes s1.desc.dAddr.toNat s1.desc.s0Len.toNat = .ok y1 →
    s2.ctx c = t1.ctx c → exec (.cbcUpdate c false) s2 = .next t2 → t2.status.code = .ok →
    (src0 s2).bytes s2.buf = .ok x2 →
    t2.buf.readBytes s2.desc.dAddr.toNat s2.desc.s0Len.toNat = .ok y2 →
    s.ctx c = s1.ctx c → exec (.cbcUpdate c false) s = .next t → t.status.code = .ok →
    (src0 s).bytes s.buf = .ok (x1 ++ x2) →
    t.buf.readBytes s.desc.dAddr.toNat s.desc.s0Len.toNat = .ok y →
    y = y1 ++ y2 ∧ (t.ctx c).chain = (t2.ctx c).chain

/-- R130: with an inverse pair of transforms, decrypting the encryption of whole blocks from the same IV
gives them back, and both directions end with the same IV. -/
def Obligations.CbcRoundTrip : Prop :=
  ∀ (f g : Block → Block), (∀ b, g (f b) = b) → ∀ (iv : Block) (p : Bytes), p.length % 16 = 0 →
    let y := bytesOfBlocks (cbcRun .enc f iv (blocksOf p)).1
    y.length = p.length ∧
    bytesOfBlocks (cbcRun .dec g iv (blocksOf y)).1 = p ∧
    (cbcRun .dec g iv (blocksOf y)).2 = (cbcRun .enc f iv (blocksOf p)).2

/-- Each CBC output block: y_i = f(x_i XOR y_{i-1}) for encryption and y_i = g(x_i) XOR x_{i-1} for
decryption, with y_{-1} = x_{-1} = IV, and the last IV is the last ciphertext block (R121, R122). -/
def Obligations.CbcBlocksFollowTheIteration : Prop :=
  ∀ (f : Block → Block) (iv : Block) (xs : List Block),
    (cbcEncrypt f iv xs).1.length = xs.length ∧ (cbcDecrypt f iv xs).1.length = xs.length ∧
    (∀ i, i < xs.length →
      (cbcEncrypt f iv xs).1[i]?.getD 0 =
        f (xs[i]?.getD 0 ^^^ (iv :: (cbcEncrypt f iv xs).1)[i]?.getD 0) ∧
      (cbcDecrypt f iv xs).1[i]?.getD 0 = f (xs[i]?.getD 0) ^^^ (iv :: xs)[i]?.getD 0) ∧
    (cbcEncrypt f iv xs).2 = (iv :: (cbcEncrypt f iv xs).1).getLast (by simp) ∧
    (cbcDecrypt f iv xs).2 = (iv :: xs).getLast (by simp)

/-- R151: GCM_UPDATE on ctx1 of what GCM_UPDATE on ctx0 wrote, with the same ALG, KEY, AAD and IV, writes the
plaintext back and computes the same tag. The contexts' invariant (R34, R44) makes their H equal. -/
def Obligations.GcmOpenReturnsWhatSealTook : Prop :=
  ∀ (s t u : State) (p aad iv y : Bytes),
    exec (.gcmUpdate .enc) s = .next t → t.status.code = .ok →
    s.buf.readBytes s.desc.s0Addr.toNat s.desc.s0Len.toNat = .ok p →
    s.buf.readBytes s.desc.s1Addr.toNat s.desc.s1Len.toNat = .ok aad →
    s.buf.readBytes s.desc.s2Addr.toNat s.desc.s2Len.toNat = .ok iv →
    t.buf.readBytes s.desc.dAddr.toNat s.desc.s0Len.toNat = .ok y →
    u.ctx1.valid = true → u.ctx1.mode = .gcm → u.ctx1.alg = s.ctx0.alg → u.ctx1.key = s.ctx0.key →
    s.ctx0.Inv s.config → u.ctx1.Inv u.config →
    (usedSpans (.gcmUpdate .dec) u).all u.inBuf = true →
    u.buf.readBytes u.desc.s0Addr.toNat u.desc.s0Len.toNat = .ok y →
    u.buf.readBytes u.desc.s1Addr.toNat u.desc.s1Len.toNat = .ok aad →
    u.buf.readBytes u.desc.s2Addr.toNat u.desc.s2Len.toNat = .ok iv → u.nextDraw = .ok →
    ∃ v, exec (.gcmUpdate .dec) u = .next v ∧ v.status.word = 0x00002100 ∧
      holdsBytes v.buf u.desc.dAddr.toNat p ∧ v.ctx1.tag = t.ctx0.tag ∧ v.ctx1.tagValid = true

/-- The host's combined comparison accepts exactly the 16 bytes of TAG (R218). -/
def Obligations.TagComparisonIsExact : Prop :=
  ∀ (received : Bytes) (tag : Block), tagMatches received tag = true ↔ received = bytesOfBlock tag
end

