-- ==== Sys2Proof/Laws/Bytes.lean ====
section
/-! SUPPORT. The laws of byte sequences: lengths, the block and byte forms are inverse, chunks cut and
join. -/

namespace Sys2Proof.Machine

/-! ### Lengths -/

@[simp] theorem length_beBytes (k v : Nat) : (beBytes k v).length = k := by
  induction k with
  | zero => rfl
  | succ k ih => simp [beBytes, ih]

@[simp] theorem length_bytesOfBlock (x : Block) : (bytesOfBlock x).length = 16 := length_beBytes _ _

@[simp] theorem length_zeros (n : Nat) : (zeros n).length = n := by simp [zeros]

@[simp] theorem length_fixedBlock (b : Bytes) : (fixedBlock b).length = 16 := by
  unfold fixedBlock
  split
  · simp; omega
  · simp; omega

@[simp] theorem length_xorBytes (a b : Bytes) : (xorBytes a b).length = min a.length b.length := by
  simp [xorBytes]

@[simp] theorem length_bytesOfBlocks (xs : List Block) : (bytesOfBlocks xs).length = 16 * xs.length := by
  induction xs with
  | nil => rfl
  | cons x xs ih => simp [bytesOfBlocks] at ih ⊢; omega

/-! ### Integers and bytes -/

@[simp] theorem beValue_nil : beValue [] = 0 := rfl

theorem foldl_beValue (b : Bytes) (v : Nat) :
    b.foldl (fun v x => v * 256 + x.toNat) v = v * 256 ^ b.length + beValue b := by
  induction b generalizing v with
  | nil => simp
  | cons x xs ih =>
    simp only [beValue, List.foldl_cons, List.length_cons]
    rw [ih, ih (0 * 256 + x.toNat)]
    ring

theorem beValue_cons (x : Byte) (xs : Bytes) :
    beValue (x :: xs) = x.toNat * 256 ^ xs.length + beValue xs := by
  simp only [beValue, List.foldl_cons]
  rw [foldl_beValue]
  simp [beValue]

theorem beValue_append (a b : Bytes) : beValue (a ++ b) = beValue a * 256 ^ b.length + beValue b := by
  rw [beValue, List.foldl_append, foldl_beValue]
  rfl

theorem beValue_lt (b : Bytes) : beValue b < 256 ^ b.length := by
  induction b with
  | nil => simp
  | cons x xs ih =>
    rw [beValue_cons, List.length_cons, pow_succ]
    have hx := x.isLt
    nlinarith [Nat.pos_of_ne_zero (pow_ne_zero xs.length (by decide : (256 : Nat) ≠ 0))]

/-- A byte count of digits cut from a number is the number modulo that size. -/
theorem beValue_beBytes_mod (k v : Nat) : beValue (beBytes k v) = v % 256 ^ k := by
  induction k with
  | zero => simp [beBytes, Nat.mod_one]
  | succ k ih =>
    rw [beBytes, beValue_cons, ih, length_beBytes, BitVec.toNat_ofNat, pow_succ 256 k,
      Nat.mod_mul (a := 256 ^ k) (b := 256), Nat.mul_comm (256 ^ k), Nat.add_comm]

theorem beValue_beBytes {k v : Nat} (h : v < 256 ^ k) : beValue (beBytes k v) = v := by
  rw [beValue_beBytes_mod, Nat.mod_eq_of_lt h]

/-- Digits above the ones written do not matter. -/
theorem beBytes_add_mul (k a v : Nat) : beBytes k (a * 256 ^ k + v) = beBytes k v := by
  induction k generalizing a with
  | zero => rfl
  | succ k ih =>
    have h1 : a * 256 ^ (k + 1) + v = (a * 256) * 256 ^ k + v := by rw [pow_succ]; ring
    have h2 : (a * 256 * 256 ^ k + v) / 256 ^ k = a * 256 + v / 256 ^ k := by
      rw [Nat.add_comm, Nat.add_mul_div_right _ _ (Nat.pos_of_ne_zero (pow_ne_zero k (by decide)))]
      ring
    simp only [beBytes]
    rw [h1, ih (a * 256), h2]
    congr 1
    apply BitVec.eq_of_toNat_eq
    simp only [BitVec.toNat_ofNat]
    omega

theorem beBytes_beValue (b : Bytes) : beBytes b.length (beValue b) = b := by
  induction b with
  | nil => rfl
  | cons x xs ih =>
    rw [beValue_cons, List.length_cons, beBytes, beBytes_add_mul, ih]
    congr 1
    have hp : 0 < 256 ^ xs.length := Nat.pos_of_ne_zero (pow_ne_zero _ (by decide))
    rw [Nat.add_comm, Nat.add_mul_div_right _ _ hp, Nat.div_eq_of_lt (beValue_lt xs), Nat.zero_add]
    simp

/-! ### Blocks and bytes -/

@[simp] theorem blockOfBytes_bytesOfBlock (x : Block) : blockOfBytes (bytesOfBlock x) = x := by
  unfold blockOfBytes bytesOfBlock
  rw [beValue_beBytes (by have := x.isLt; norm_num at this ⊢; omega)]
  simp

theorem bytesOfBlock_blockOfBytes {b : Bytes} (h : b.length = 16) : bytesOfBlock (blockOfBytes b) = b := by
  have hlt := beValue_lt b
  rw [h] at hlt
  unfold blockOfBytes bytesOfBlock
  rw [BitVec.toNat_ofNat, Nat.mod_eq_of_lt (by norm_num at hlt ⊢; omega)]
  conv_lhs => rw [← h]
  exact beBytes_beValue b

/-- A sequence that is already 16 bytes is its own fixed block. -/
theorem fixedBlock_of_length {b : Bytes} (h : b.length = 16) : fixedBlock b = b := by
  simp [fixedBlock, h, List.take_of_length_le]

theorem fixedBlock_append_zeros {b : Bytes} (h : b.length ≤ 16) :
    fixedBlock b = b ++ zeros (16 - b.length) := by
  unfold fixedBlock
  split
  · have hb : b.length = 16 := by omega
    simp [hb, List.take_of_length_le, zeros]
  · rfl

theorem xorBytes_self_cancel {a b : Bytes} (h : a.length = b.length) :
    xorBytes (xorBytes a b) b = a := by
  induction a generalizing b with
  | nil => rfl
  | cons x xs ih =>
    cases b with
    | nil => simp at h
    | cons y ys =>
      have hl : xs.length = ys.length := by simpa using h
      have := ih hl
      simp only [xorBytes, List.zipWith_cons_cons] at this ⊢
      rw [this, BitVec.xor_assoc, BitVec.xor_self, BitVec.xor_zero]

/-! ### Chunks -/

@[simp] theorem ceil16_zero : ceil16 0 = 0 := rfl

theorem ceil16_add_sixteen (n : Nat) : ceil16 (n + 16) = ceil16 n + 1 := by unfold ceil16; omega

@[simp] theorem chunks_nil : chunks [] = [] := rfl

/-- Non-empty data is its first chunk and the chunks of the rest. -/
theorem chunks_of_pos {data : Bytes} (h : 0 < data.length) :
    chunks data = data.take 16 :: chunks (data.drop 16) := by
  have hc : ceil16 data.length = ceil16 (data.drop 16).length + 1 := by
    simp only [List.length_drop, ceil16]; omega
  unfold chunks
  rw [hc, List.range_succ_eq_map, List.map_cons, List.map_map]
  simp only [Nat.mul_zero, List.drop_zero, List.cons.injEq, true_and]
  apply List.map_congr_left
  intro j _
  simp only [Function.comp, List.drop_drop]
  rw [show 16 * (j + 1) = 16 + 16 * j by ring]

@[simp] theorem length_chunks (data : Bytes) : (chunks data).length = ceil16 data.length := by
  simp [chunks]

/-- A whole chunk in front is cut off whole. -/
theorem chunks_append_block {b rest : Bytes} (h : b.length = 16) :
    chunks (b ++ rest) = b :: chunks rest := by
  rw [chunks_of_pos (by simp; omega)]
  simp [h]

/-- Induction along the chunks of a byte sequence. -/
theorem chunks_induction {motive : Bytes → Prop} (nil : motive [])
    (step : ∀ data : Bytes, 0 < data.length → motive (data.drop 16) → motive data) (data : Bytes) :
    motive data := by
  generalize hn : data.length = n
  induction n using Nat.strong_induction_on generalizing data with
  | _ n ih =>
    by_cases h : 0 < data.length
    · exact step data h (ih (data.drop 16).length (by simp; omega) _ rfl)
    · have : data = [] := by cases data <;> simp_all
      exact this ▸ nil

/-- The chunks, joined, are the data. -/
theorem flatten_chunks (data : Bytes) : (chunks data).flatten = data := by
  induction data using chunks_induction with
  | nil => rfl
  | step data h ih => rw [chunks_of_pos h, List.flatten_cons, ih, List.take_append_drop]

theorem length_le_of_mem_chunks {data c : Bytes} (h : c ∈ chunks data) : c.length ≤ 16 := by
  simp only [chunks, List.mem_map] at h
  obtain ⟨j, _, rfl⟩ := h
  simp

theorem length_eq_of_mem_chunks {data c : Bytes} (hd : data.length % 16 = 0) (h : c ∈ chunks data) :
    c.length = 16 := by
  induction data using chunks_induction with
  | nil => simp at h
  | step data hpos ih =>
    rw [chunks_of_pos hpos] at h
    rcases List.mem_cons.1 h with rfl | h
    · simp; omega
    · exact ih (by simp; omega) h

/-- Whole chunks in front are cut off whole. -/
theorem chunks_append {a b : Bytes} (h : a.length % 16 = 0) : chunks (a ++ b) = chunks a ++ chunks b := by
  induction a using chunks_induction with
  | nil => rfl
  | step a hpos ih =>
    have h16 : 16 ≤ a.length := by omega
    have e : a ++ b = a.take 16 ++ (a.drop 16 ++ b) := by
      rw [← List.append_assoc, List.take_append_drop]
    rw [e, chunks_append_block (by simp; omega), ih (by simp; omega), chunks_of_pos hpos]
    rfl

theorem blocksOf_append {a b : Bytes} (h : a.length % 16 = 0) :
    blocksOf (a ++ b) = blocksOf a ++ blocksOf b := by
  simp [blocksOf, chunks_append h]

theorem length_blocksOf (data : Bytes) : (blocksOf data).length = ceil16 data.length := by
  simp [blocksOf]

/-- Whole blocks of bytes, as blocks and back. -/
theorem bytesOfBlocks_blocksOf {data : Bytes} (h : data.length % 16 = 0) :
    bytesOfBlocks (blocksOf data) = data := by
  have key : ∀ cs : List Bytes, (∀ c ∈ cs, c.length = 16) →
      bytesOfBlocks (cs.map blockOfBytes) = cs.flatten := by
    intro cs hcs
    induction cs with
    | nil => rfl
    | cons c cs ih =>
      have hc := bytesOfBlock_blockOfBytes (hcs c List.mem_cons_self)
      have := ih (fun c hc => hcs c (List.mem_cons_of_mem _ hc))
      simp only [bytesOfBlocks, List.map_cons, List.flatMap_cons, List.flatten_cons] at this ⊢
      rw [hc, this]
  rw [blocksOf, key _ (fun c hc => length_eq_of_mem_chunks h hc), flatten_chunks]

/-- Blocks, as bytes and back. -/
@[simp] theorem blocksOf_bytesOfBlocks (xs : List Block) : blocksOf (bytesOfBlocks xs) = xs := by
  induction xs with
  | nil => rfl
  | cons x xs ih =>
    have e : bytesOfBlocks (x :: xs) = bytesOfBlock x ++ bytesOfBlocks xs := rfl
    rw [blocksOf, e, chunks_append_block (length_bytesOfBlock x), List.map_cons,
      blockOfBytes_bytesOfBlock]
    exact congrArg (x :: ·) ih

end Sys2Proof.Machine
end

