-- ==== Sys2Proof/Laws/Gf128.lean ====
section
/-! SUPPORT. The laws of the GF(2^128) loop and of GHASH that later proofs rest on. -/

namespace Sys2Proof.Machine

/-! ### The loop -/

@[simp] theorem gfShift_zero : gfShift 0#128 = 0#128 := rfl

/-- Multiplication by x is linear. -/
theorem gfShift_xor (a b : Block) : gfShift (a ^^^ b) = gfShift a ^^^ gfShift b := by
  unfold gfShift
  rw [BitVec.getLsbD_xor]
  have hs : (a ^^^ b) >>> 1 = (a >>> 1) ^^^ (b >>> 1) := BitVec.ushiftRight_xor_distrib ..
  rw [hs]
  cases a.getLsbD 0 <;> cases b.getLsbD 0 <;> simp
  · rw [BitVec.xor_assoc]
  · rw [BitVec.xor_assoc, BitVec.xor_assoc, BitVec.xor_comm gfR]
  · rw [show a >>> 1 ^^^ gfR ^^^ (b >>> 1 ^^^ gfR) = a >>> 1 ^^^ b >>> 1 ^^^ (gfR ^^^ gfR) by ac_rfl]
    simp

/-- V after n rounds of the loop: V times x^n. -/
def gfShiftN : Nat → Block → Block
  | 0, v => v
  | n + 1, v => gfShiftN n (gfShift v)

@[simp] theorem gfShiftN_zero_right (n : Nat) : gfShiftN n 0#128 = 0#128 := by
  induction n with
  | zero => rfl
  | succ n ih => simp only [gfShiftN, gfShift_zero, ih]

theorem gfShiftN_xor (n : Nat) (a b : Block) :
    gfShiftN n (a ^^^ b) = gfShiftN n a ^^^ gfShiftN n b := by
  induction n generalizing a b with
  | zero => rfl
  | succ n ih => simp only [gfShiftN, gfShift_xor, ih]

theorem gfShiftN_add (m n : Nat) (v : Block) : gfShiftN (m + n) v = gfShiftN n (gfShiftN m v) := by
  induction m generalizing v with
  | zero => simp [gfShiftN]
  | succ m ih => rw [Nat.succ_add, gfShiftN, ih]; rfl

/-- The accumulator only collects. -/
theorem gfLoop_acc (x : Block) (n : Nat) (z v : Block) : gfLoop x n z v = z ^^^ gfLoop x n 0 v := by
  induction n generalizing z v with
  | zero => simp [gfLoop]
  | succ n ih =>
    rw [gfLoop, ih, gfLoop, ih (if x.getLsbD n = true then 0 ^^^ v else 0)]
    split <;> simp [BitVec.xor_assoc]

/-- One round of the loop. -/
theorem gfLoop_succ (x : Block) (n : Nat) (v : Block) :
    gfLoop x (n + 1) 0 v = (if x.getLsbD n then v else 0) ^^^ gfLoop x n 0 (gfShift v) := by
  rw [gfLoop, gfLoop_acc]
  split <;> simp

@[simp] theorem gfLoop_zero_right (x : Block) (n : Nat) : gfLoop x n 0#128 0#128 = 0#128 := by
  induction n with
  | zero => rfl
  | succ n ih =>
    rw [gfLoop, gfShift_zero]
    split <;> simpa using ih

/-- The loop is linear in its second factor. -/
theorem gfLoop_xor_right (x : Block) (n : Nat) (v w : Block) :
    gfLoop x n 0 (v ^^^ w) = gfLoop x n 0 v ^^^ gfLoop x n 0 w := by
  induction n generalizing v w with
  | zero => simp [gfLoop]
  | succ n ih =>
    rw [gfLoop_succ, gfLoop_succ, gfLoop_succ, gfShift_xor, ih]
    split
    · ac_rfl
    · simp

/-- The loop is linear in its first factor. -/
theorem gfLoop_xor_left (x y : Block) (n : Nat) (v : Block) :
    gfLoop (x ^^^ y) n 0 v = gfLoop x n 0 v ^^^ gfLoop y n 0 v := by
  induction n generalizing v with
  | zero => simp [gfLoop]
  | succ n ih =>
    rw [gfLoop_succ, gfLoop_succ, gfLoop_succ, ih, BitVec.getLsbD_xor]
    generalize gfLoop x n 0 (gfShift v) = p
    generalize gfLoop y n 0 (gfShift v) = q
    cases x.getLsbD n <;> cases y.getLsbD n <;> simp
    · ac_rfl
    · ac_rfl
    · rw [show v ^^^ p ^^^ (v ^^^ q) = (v ^^^ v) ^^^ (p ^^^ q) by ac_rfl]
      simp

/-- The loop commutes with multiplication by x. -/
theorem gfLoop_gfShift (x : Block) (n : Nat) (v : Block) :
    gfLoop x n 0 (gfShift v) = gfShift (gfLoop x n 0 v) := by
  induction n generalizing v with
  | zero => simp [gfLoop]
  | succ n ih =>
    rw [gfLoop_succ, gfLoop_succ, gfShift_xor, ih]
    split <;> simp

/-- A first factor with no bit among those still to be tested contributes nothing. -/
theorem gfLoop_of_low_zero (x : Block) (n : Nat) (v : Block) (h : ∀ i, i < n → x.getLsbD i = false) :
    gfLoop x n 0 v = 0 := by
  induction n generalizing v with
  | zero => rfl
  | succ n ih => rw [gfLoop_succ, ih _ (fun i hi => h i (by omega)), h n (by omega)]; simp

/-! ### GHASH -/

@[simp] theorem ghashUpdate_nil (acc h : Block) : ghashUpdate acc h [] = acc := rfl

/-- Non-empty data: its first chunk is folded, then the rest. -/
theorem ghashUpdate_of_pos (acc h : Block) {data : Bytes} (hd : 0 < data.length) :
    ghashUpdate acc h data =
      ghashUpdate (gfMul (acc ^^^ blockOfBytes (fixedBlock (data.take 16))) h) h (data.drop 16) := by
  unfold ghashUpdate
  rw [chunks_of_pos hd, List.foldl_cons]

/-- Whole chunks in front are folded first. -/
theorem ghashUpdate_append (acc h : Block) {a : Bytes} (b : Bytes) (ha : a.length % 16 = 0) :
    ghashUpdate acc h (a ++ b) = ghashUpdate (ghashUpdate acc h a) h b := by
  unfold ghashUpdate
  rw [chunks_append ha, List.foldl_append]

end Sys2Proof.Machine
end

