-- ==== Sys2Proof/Laws/Modes.lean ====
section
/-! SUPPORT. The laws of the CBC iterations and of the GCM keystream that later proofs rest on. -/

namespace Sys2Proof.Machine

/-! ### CBC -/

@[simp] theorem cbcEncrypt_nil (f : Block → Block) (iv : Block) : cbcEncrypt f iv [] = ([], iv) := rfl

@[simp] theorem cbcDecrypt_nil (f : Block → Block) (iv : Block) : cbcDecrypt f iv [] = ([], iv) := rfl

theorem cbcEncrypt_cons (f : Block → Block) (iv x : Block) (xs : List Block) :
    cbcEncrypt f iv (x :: xs) =
      (f (x ^^^ iv) :: (cbcEncrypt f (f (x ^^^ iv)) xs).1, (cbcEncrypt f (f (x ^^^ iv)) xs).2) := rfl

theorem cbcDecrypt_cons (f : Block → Block) (iv x : Block) (xs : List Block) :
    cbcDecrypt f iv (x :: xs) =
      ((f x ^^^ iv) :: (cbcDecrypt f x xs).1, (cbcDecrypt f x xs).2) := rfl

@[simp] theorem length_cbcEncrypt (f : Block → Block) (iv : Block) (xs : List Block) :
    (cbcEncrypt f iv xs).1.length = xs.length := by
  induction xs generalizing iv with
  | nil => rfl
  | cons x xs ih => simp [cbcEncrypt_cons, ih]

@[simp] theorem length_cbcDecrypt (f : Block → Block) (iv : Block) (xs : List Block) :
    (cbcDecrypt f iv xs).1.length = xs.length := by
  induction xs generalizing iv with
  | nil => rfl
  | cons x xs ih => simp [cbcDecrypt_cons, ih]

@[simp] theorem length_cbcRun (c : Dir) (t : Block → Block) (iv : Block) (xs : List Block) :
    (cbcRun c t iv xs).1.length = xs.length := by
  cases c
  · exact length_cbcEncrypt t iv xs
  · exact length_cbcDecrypt t iv xs

/-- CBC output has the input's length, for whole blocks (R124). -/
theorem length_bytesOfBlocks_cbcRun (c : Dir) (t : Block → Block) (iv : Block) {x : Bytes}
    (h : x.length % 16 = 0) : (bytesOfBlocks (cbcRun c t iv (blocksOf x)).1).length = x.length := by
  rw [length_bytesOfBlocks, length_cbcRun, length_blocksOf]
  unfold ceil16
  omega

/-! ### GCM -/

@[simp] theorem ctrXor_nil (e : Block → Block) (j0 : Block) : ctrXor e j0 [] = [] := rfl

@[simp] theorem counterBlock_zero (j0 : Block) : counterBlock j0 0 = j0 := rfl

/-- The sequence from CB_1 on is the sequence of J0 shifted by one. -/
theorem counterBlock_inc32 (j0 : Block) (i : Nat) :
    counterBlock (inc32 j0) i = counterBlock j0 (i + 1) := by
  induction i with
  | zero => rfl
  | succ i ih => rw [counterBlock, ih]; rfl

/-- Non-empty input: the first chunk takes CB_1, the rest goes on from it. -/
theorem ctrXor_of_pos (e : Block → Block) (j0 : Block) {x : Bytes} (h : 0 < x.length) :
    ctrXor e j0 x =
      xorBytes (x.take 16) ((bytesOfBlock (e (inc32 j0))).take (x.take 16).length) ++
        ctrXor e (inc32 j0) (x.drop 16) := by
  unfold ctrXor
  rw [chunks_of_pos h]
  rfl

/-- GCM output has the input's length (R144). -/
@[simp] theorem length_ctrXor (e : Block → Block) (j0 : Block) (x : Bytes) :
    (ctrXor e j0 x).length = x.length := by
  induction x using chunks_induction generalizing j0 with
  | nil => rfl
  | step x h ih =>
    rw [ctrXor_of_pos e j0 h, List.length_append, ih]
    simp
    omega

/-- The keystream XOR undoes itself (R151). -/
theorem ctrXor_ctrXor (e : Block → Block) (j0 : Block) (x : Bytes) :
    ctrXor e j0 (ctrXor e j0 x) = x := by
  induction x using chunks_induction generalizing j0 with
  | nil => simp
  | step x h ih =>
    have hl : 0 < (ctrXor e j0 x).length := by simpa using h
    have hk : ((bytesOfBlock (e (inc32 j0))).take (x.take 16).length).length = (x.take 16).length := by
      simp
    have hfirst : (xorBytes (x.take 16) ((bytesOfBlock (e (inc32 j0))).take (x.take 16).length)).length =
        (x.take 16).length := by simp
    have htake : (ctrXor e j0 x).take 16 =
        xorBytes (x.take 16) ((bytesOfBlock (e (inc32 j0))).take (x.take 16).length) := by
      rw [ctrXor_of_pos e j0 h]
      by_cases h16 : 16 ≤ x.length
      · rw [List.take_append_of_le_length (by rw [hfirst]; simp; omega), List.take_of_length_le (by simp)]
      · have : x.drop 16 = [] := List.drop_eq_nil_of_le (by omega)
        rw [this, ctrXor_nil, List.append_nil, List.take_of_length_le (by simp)]
    have hdrop : (ctrXor e j0 x).drop 16 = ctrXor e (inc32 j0) (x.drop 16) := by
      rw [ctrXor_of_pos e j0 h]
      by_cases h16 : 16 ≤ x.length
      · rw [List.drop_append, List.drop_eq_nil_of_le (by rw [hfirst]; simp)]
        rw [hfirst, List.length_take, Nat.min_eq_left h16]
        rfl
      · have : x.drop 16 = [] := List.drop_eq_nil_of_le (by omega)
        rw [this, ctrXor_nil, List.append_nil, List.drop_eq_nil_of_le (by simp)]
    rw [ctrXor_of_pos e j0 hl, htake, hdrop, ih, hfirst,
      xorBytes_self_cancel (by rw [hk]), List.take_append_drop]

@[simp] theorem length_out_gcmCrypt (e : Block → Block) (h : Block) (c : Dir) (iv aad x : Bytes) :
    (gcmCrypt e h c iv aad x).out.length = x.length := by simp [gcmCrypt]

end Sys2Proof.Machine
end

