-- ==== Sys2Proof/Laws/Memory.lean ====
section
/-! SUPPORT. The laws of BUF: read after write, the frame of a write, and that every memory operation
keeps the canonical form. -/

namespace Sys2Proof.Machine

@[simp] theorem Memory.read_nil (a : Nat) : Memory.read [] a = none := rfl

@[simp] theorem Memory.readBytes_zero (m : Memory) (a : Nat) : m.readBytes a 0 = .ok [] := rfl

@[simp] theorem Memory.writeBytes_nil (m : Memory) (a : Nat) : m.writeBytes a [] = m := rfl

theorem Memory.writeBytes_cons (m : Memory) (a : Nat) (b : Byte) (bs : Bytes) :
    m.writeBytes a (b :: bs) = (m.write a b).writeBytes (a + 1) bs := rfl

@[simp] theorem Memory.read_write_same (m : Memory) (a : Nat) (b : Byte) :
    (m.write a b).read a = some b := by
  induction m with
  | nil => simp [Memory.write, Memory.read]
  | cons p rest ih =>
    obtain ⟨x, y⟩ := p
    by_cases h1 : a < x
    · simp [Memory.write, Memory.read, h1]
    · by_cases h2 : a = x
      · simp [Memory.write, Memory.read, h2]
      · simp [Memory.write, Memory.read, h1, h2, Ne.symm h2, ih]

theorem Memory.read_write_of_ne (m : Memory) {a x : Nat} (b : Byte) (h : x ≠ a) :
    (m.write a b).read x = m.read x := by
  induction m with
  | nil => simp [Memory.write, Memory.read, Ne.symm h]
  | cons p rest ih =>
    obtain ⟨u, v⟩ := p
    by_cases h1 : a < u
    · simp [Memory.write, Memory.read, h1, Ne.symm h]
    · by_cases h2 : a = u
      · subst h2
        simp [Memory.write, Memory.read, Ne.symm h]
      · simp [Memory.write, Memory.read, h1, h2, ih]

/-- A store leaves every byte outside its bytes alone. -/
theorem Memory.read_writeBytes_outside (m : Memory) (a : Nat) (b : Bytes) {x : Nat}
    (h : x < a ∨ a + b.length ≤ x) : (m.writeBytes a b).read x = m.read x := by
  induction b generalizing m a with
  | nil => rfl
  | cons y ys ih =>
    rw [Memory.writeBytes_cons, ih _ _ (by simp at h; omega),
      Memory.read_write_of_ne _ _ (by simp at h; omega)]

/-- A read of n bytes depends only on those bytes. -/
theorem Memory.readBytes_congr {m m' : Memory} {a n : Nat}
    (h : ∀ x, a ≤ x → x < a + n → m'.read x = m.read x) : m'.readBytes a n = m.readBytes a n := by
  induction n generalizing a with
  | zero => rfl
  | succ n ih =>
    simp only [Memory.readBytes]
    rw [h a (Nat.le_refl a) (by omega), ih (fun x h1 h2 => h x (by omega) (by omega))]

/-- Reading back what was stored. -/
@[simp] theorem Memory.readBytes_writeBytes (m : Memory) (a : Nat) (b : Bytes) :
    (m.writeBytes a b).readBytes a b.length = .ok b := by
  induction b generalizing m a with
  | nil => rfl
  | cons y ys ih =>
    simp only [Memory.writeBytes_cons, List.length_cons, Memory.readBytes]
    rw [Memory.read_writeBytes_outside _ _ _ (Or.inl (by omega)), Memory.read_write_same, ih]

theorem Memory.length_of_readBytes {m : Memory} {a n : Nat} {b : Bytes} (h : m.readBytes a n = .ok b) :
    b.length = n := by
  induction n generalizing a b with
  | zero => simp [Memory.readBytes] at h; subst h; rfl
  | succ n ih =>
    simp only [Memory.readBytes] at h
    cases hr : m.read a with
    | none => simp [hr] at h
    | some y =>
      cases hb : m.readBytes (a + 1) n with
      | error f => simp [hr, hb] at h
      | ok bs =>
        simp [hr, hb] at h
        subst h
        simp [ih hb]

/-- A read of bytes ends in exactly one of two ways: all were written, or it names one that was not. -/
theorem Memory.readBytes_cases (m : Memory) (a n : Nat) :
    (∃ b, m.readBytes a n = .ok b ∧ b.length = n) ∨
      (∃ x, m.readBytes a n = .error (.uninitBuf x) ∧ a ≤ x ∧ x < a + n ∧ m.read x = none) := by
  induction n generalizing a with
  | zero => exact .inl ⟨[], rfl, rfl⟩
  | succ n ih =>
    cases hr : m.read a with
    | none => exact .inr ⟨a, by simp [Memory.readBytes, hr], Nat.le_refl a, by omega, hr⟩
    | some y =>
      rcases ih (a + 1) with ⟨b, hb, hl⟩ | ⟨x, hx, h1, h2, h3⟩
      · exact .inl ⟨y :: b, by simp [Memory.readBytes, hr, hb], by simp [hl]⟩
      · exact .inr ⟨x, by simp [Memory.readBytes, hr, hx], by omega, by omega, h3⟩

/-! ### The canonical form -/

theorem Memory.wf_iff (m : Memory) : m.wf = true ↔ m.Pairwise (fun p q => p.1 < q.1) := by
  simp [Memory.wf]

theorem Memory.below_iff (m : Memory) (n : Nat) : m.below n = true ↔ ∀ p ∈ m, p.1 < n := by
  simp [Memory.below, List.all_eq_true]

theorem Memory.wf_nil : Memory.wf [] = true := rfl

theorem Memory.mem_write {m : Memory} {a : Nat} {b : Byte} {p : Host.Cell} (h : p ∈ m.write a b) :
    p = (a, b) ∨ p ∈ m := by
  induction m with
  | nil => simp [Memory.write] at h; exact .inl h
  | cons q rest ih =>
    obtain ⟨x, y⟩ := q
    simp only [Memory.write] at h
    split at h
    · simpa using h
    · split at h
      · rcases List.mem_cons.1 h with h | h
        · exact .inl h
        · exact .inr (List.mem_cons_of_mem _ h)
      · rcases List.mem_cons.1 h with h | h
        · exact .inr (h ▸ List.mem_cons_self)
        · exact (ih h).imp_right (List.mem_cons_of_mem _)

theorem Memory.pairwise_write {m : Memory} (a : Nat) (b : Byte)
    (h : m.Pairwise (fun p q => p.1 < q.1)) : (m.write a b).Pairwise (fun p q => p.1 < q.1) := by
  induction m with
  | nil => simp [Memory.write]
  | cons q rest ih =>
    obtain ⟨x, y⟩ := q
    have ⟨hx, hrest⟩ := List.pairwise_cons.1 h
    simp only [Memory.write]
    split
    · rename_i hax
      refine List.pairwise_cons.2 ⟨fun p hp => ?_, h⟩
      rcases List.mem_cons.1 hp with rfl | hp
      · exact hax
      · exact Nat.lt_trans hax (hx p hp)
    · split
      · rename_i _ hax
        subst hax
        exact List.pairwise_cons.2 ⟨hx, hrest⟩
      · rename_i h1 h2
        refine List.pairwise_cons.2 ⟨fun p hp => ?_, ih hrest⟩
        rcases Memory.mem_write hp with rfl | hp
        · exact Nat.lt_of_le_of_ne (Nat.not_lt.1 h1) (Ne.symm h2)
        · exact hx p hp

/-- A byte write keeps the canonical form. -/
theorem Memory.wf_write {m : Memory} (a : Nat) (b : Byte) (h : m.wf = true) : (m.write a b).wf = true := by
  rw [Memory.wf_iff] at h ⊢
  exact Memory.pairwise_write a b h

/-- A byte write in range keeps the range. -/
theorem Memory.below_write {m : Memory} {n a : Nat} (b : Byte) (ha : a < n) (h : m.below n = true) :
    (m.write a b).below n = true := by
  rw [Memory.below_iff] at h ⊢
  intro p hp
  rcases Memory.mem_write hp with rfl | hp
  · exact ha
  · exact h p hp

/-- A store keeps the canonical form. -/
theorem Memory.wf_writeBytes {m : Memory} (a : Nat) (b : Bytes) (h : m.wf = true) :
    (m.writeBytes a b).wf = true := by
  induction b generalizing m a with
  | nil => exact h
  | cons y ys ih => exact ih _ (Memory.wf_write a y h)

/-- A store in range keeps the range. -/
theorem Memory.below_writeBytes {m : Memory} {n a : Nat} (b : Bytes) (ha : a + b.length ≤ n)
    (h : m.below n = true) : (m.writeBytes a b).below n = true := by
  induction b generalizing m a with
  | nil => exact h
  | cons y ys ih =>
    have hl : (y :: ys).length = ys.length + 1 := rfl
    rw [Memory.writeBytes_cons]
    exact ih (by omega) (Memory.below_write y (by omega) h)

end Sys2Proof.Machine
end

