-- ==== Sys2Proof/Laws/State.lean ====
section
/-! SUPPORT. One lemma per field per update of the state, each true by unfolding the update once. -/

namespace Sys2Proof.Machine

/-! ### setCmd -/

@[simp] theorem setCmd_cmd (s : State) (w : Word) : (s.setCmd w).cmd = w := rfl
@[simp] theorem setCmd_status (s : State) (w : Word) : (s.setCmd w).status = s.status := rfl
@[simp] theorem setCmd_resLen (s : State) (w : Word) : (s.setCmd w).resLen = s.resLen := rfl
@[simp] theorem setCmd_desc (s : State) (w : Word) : (s.setCmd w).desc = s.desc := rfl
@[simp] theorem setCmd_ctx0 (s : State) (w : Word) : (s.setCmd w).ctx0 = s.ctx0 := rfl
@[simp] theorem setCmd_ctx1 (s : State) (w : Word) : (s.setCmd w).ctx1 = s.ctx1 := rfl
@[simp] theorem setCmd_buf (s : State) (w : Word) : (s.setCmd w).buf = s.buf := rfl
@[simp] theorem setCmd_host (s : State) (w : Word) : (s.setCmd w).host = s.host := rfl
@[simp] theorem setCmd_reads (s : State) (w : Word) : (s.setCmd w).reads = s.reads := rfl
@[simp] theorem setCmd_draws (s : State) (w : Word) : (s.setCmd w).draws = s.draws := rfl
@[simp] theorem setCmd_drawCount (s : State) (w : Word) : (s.setCmd w).drawCount = s.drawCount := rfl
@[simp] theorem setCmd_config (s : State) (w : Word) : (s.setCmd w).config = s.config := rfl
@[simp] theorem setCmd_ctx (s : State) (w : Word) (c : Dir) : (s.setCmd w).ctx c = s.ctx c := by cases c <;> rfl

/-! ### store -/

@[simp] theorem store_cmd (s : State) (b : Bytes) : (s.store b).cmd = s.cmd := rfl
@[simp] theorem store_status (s : State) (b : Bytes) : (s.store b).status = s.status := rfl
@[simp] theorem store_resLen (s : State) (b : Bytes) : (s.store b).resLen = s.resLen := rfl
@[simp] theorem store_desc (s : State) (b : Bytes) : (s.store b).desc = s.desc := rfl
@[simp] theorem store_ctx0 (s : State) (b : Bytes) : (s.store b).ctx0 = s.ctx0 := rfl
@[simp] theorem store_ctx1 (s : State) (b : Bytes) : (s.store b).ctx1 = s.ctx1 := rfl
@[simp] theorem store_buf (s : State) (b : Bytes) : (s.store b).buf = s.buf.writeBytes s.desc.dAddr.toNat b := rfl
@[simp] theorem store_host (s : State) (b : Bytes) : (s.store b).host = s.host := rfl
@[simp] theorem store_reads (s : State) (b : Bytes) : (s.store b).reads = s.reads := rfl
@[simp] theorem store_draws (s : State) (b : Bytes) : (s.store b).draws = s.draws := rfl
@[simp] theorem store_drawCount (s : State) (b : Bytes) : (s.store b).drawCount = s.drawCount := rfl
@[simp] theorem store_config (s : State) (b : Bytes) : (s.store b).config = s.config := rfl
@[simp] theorem store_ctx (s : State) (b : Bytes) (c : Dir) : (s.store b).ctx c = s.ctx c := by cases c <;> rfl

/-! ### commit -/

@[simp] theorem commit_cmd (opc : Byte) (n : Nat) (s : State) : (commit opc n s).cmd = s.cmd := rfl
@[simp] theorem commit_status (opc : Byte) (n : Nat) (s : State) : (commit opc n s).status = okStatus opc := rfl
@[simp] theorem commit_resLen (opc : Byte) (n : Nat) (s : State) : (commit opc n s).resLen = BitVec.ofNat 32 n := rfl
@[simp] theorem commit_desc (opc : Byte) (n : Nat) (s : State) : (commit opc n s).desc = s.desc := rfl
@[simp] theorem commit_ctx0 (opc : Byte) (n : Nat) (s : State) : (commit opc n s).ctx0 = s.ctx0 := rfl
@[simp] theorem commit_ctx1 (opc : Byte) (n : Nat) (s : State) : (commit opc n s).ctx1 = s.ctx1 := rfl
@[simp] theorem commit_buf (opc : Byte) (n : Nat) (s : State) : (commit opc n s).buf = s.buf := rfl
@[simp] theorem commit_host (opc : Byte) (n : Nat) (s : State) : (commit opc n s).host = s.host := rfl
@[simp] theorem commit_reads (opc : Byte) (n : Nat) (s : State) : (commit opc n s).reads = s.reads := rfl
@[simp] theorem commit_draws (opc : Byte) (n : Nat) (s : State) : (commit opc n s).draws = s.draws := rfl
@[simp] theorem commit_drawCount (opc : Byte) (n : Nat) (s : State) : (commit opc n s).drawCount = s.drawCount := rfl
@[simp] theorem commit_config (opc : Byte) (n : Nat) (s : State) : (commit opc n s).config = s.config := rfl
@[simp] theorem commit_ctx (opc : Byte) (n : Nat) (s : State) (c : Dir) : (commit opc n s).ctx c = s.ctx c := by cases c <;> rfl

/-! ### raise -/

@[simp] theorem raise_cmd (opc : Byte) (e : CmdError) (s : State) : (raise opc e s).cmd = s.cmd := rfl
@[simp] theorem raise_status (opc : Byte) (e : CmdError) (s : State) : (raise opc e s).status = errorStatus opc e := rfl
@[simp] theorem raise_resLen (opc : Byte) (e : CmdError) (s : State) : (raise opc e s).resLen = 0 := rfl
@[simp] theorem raise_desc (opc : Byte) (e : CmdError) (s : State) : (raise opc e s).desc = s.desc := rfl
@[simp] theorem raise_ctx0 (opc : Byte) (e : CmdError) (s : State) : (raise opc e s).ctx0 = s.ctx0 := rfl
@[simp] theorem raise_ctx1 (opc : Byte) (e : CmdError) (s : State) : (raise opc e s).ctx1 = s.ctx1 := rfl
@[simp] theorem raise_buf (opc : Byte) (e : CmdError) (s : State) : (raise opc e s).buf = s.buf := rfl
@[simp] theorem raise_host (opc : Byte) (e : CmdError) (s : State) : (raise opc e s).host = s.host := rfl
@[simp] theorem raise_reads (opc : Byte) (e : CmdError) (s : State) : (raise opc e s).reads = s.reads := rfl
@[simp] theorem raise_draws (opc : Byte) (e : CmdError) (s : State) : (raise opc e s).draws = s.draws := rfl
@[simp] theorem raise_drawCount (opc : Byte) (e : CmdError) (s : State) : (raise opc e s).drawCount = s.drawCount := rfl
@[simp] theorem raise_config (opc : Byte) (e : CmdError) (s : State) : (raise opc e s).config = s.config := rfl
@[simp] theorem raise_ctx (opc : Byte) (e : CmdError) (s : State) (c : Dir) : (raise opc e s).ctx c = s.ctx c := by cases c <;> rfl

/-! ### takeDraw -/

@[simp] theorem takeDraw_cmd (s : State) : s.takeDraw.cmd = s.cmd := rfl
@[simp] theorem takeDraw_status (s : State) : s.takeDraw.status = s.status := rfl
@[simp] theorem takeDraw_resLen (s : State) : s.takeDraw.resLen = s.resLen := rfl
@[simp] theorem takeDraw_desc (s : State) : s.takeDraw.desc = s.desc := rfl
@[simp] theorem takeDraw_ctx0 (s : State) : s.takeDraw.ctx0 = s.ctx0 := rfl
@[simp] theorem takeDraw_ctx1 (s : State) : s.takeDraw.ctx1 = s.ctx1 := rfl
@[simp] theorem takeDraw_buf (s : State) : s.takeDraw.buf = s.buf := rfl
@[simp] theorem takeDraw_host (s : State) : s.takeDraw.host = s.host := rfl
@[simp] theorem takeDraw_reads (s : State) : s.takeDraw.reads = s.reads := rfl
@[simp] theorem takeDraw_draws (s : State) : s.takeDraw.draws = s.draws.tail := rfl
@[simp] theorem takeDraw_drawCount (s : State) : s.takeDraw.drawCount = s.drawCount + 1 := rfl
@[simp] theorem takeDraw_config (s : State) : s.takeDraw.config = s.config := rfl
@[simp] theorem takeDraw_ctx (s : State) (c : Dir) : s.takeDraw.ctx c = s.ctx c := by cases c <;> rfl

/-! ### publish -/

@[simp] theorem publish_cmd (opc : Byte) (n : Nat) (b : Bytes) (s : State) : (publish opc n b s).cmd = s.cmd := rfl
@[simp] theorem publish_status (opc : Byte) (n : Nat) (b : Bytes) (s : State) : (publish opc n b s).status = okStatus opc := rfl
@[simp] theorem publish_resLen (opc : Byte) (n : Nat) (b : Bytes) (s : State) : (publish opc n b s).resLen = BitVec.ofNat 32 n := rfl
@[simp] theorem publish_desc (opc : Byte) (n : Nat) (b : Bytes) (s : State) : (publish opc n b s).desc = s.desc := rfl
@[simp] theorem publish_ctx0 (opc : Byte) (n : Nat) (b : Bytes) (s : State) : (publish opc n b s).ctx0 = s.ctx0 := rfl
@[simp] theorem publish_ctx1 (opc : Byte) (n : Nat) (b : Bytes) (s : State) : (publish opc n b s).ctx1 = s.ctx1 := rfl
@[simp] theorem publish_buf (opc : Byte) (n : Nat) (b : Bytes) (s : State) : (publish opc n b s).buf = s.buf.writeBytes s.desc.dAddr.toNat b := rfl
@[simp] theorem publish_host (opc : Byte) (n : Nat) (b : Bytes) (s : State) : (publish opc n b s).host = s.host := rfl
@[simp] theorem publish_reads (opc : Byte) (n : Nat) (b : Bytes) (s : State) : (publish opc n b s).reads = s.reads := rfl
@[simp] theorem publish_draws (opc : Byte) (n : Nat) (b : Bytes) (s : State) : (publish opc n b s).draws = s.draws := rfl
@[simp] theorem publish_drawCount (opc : Byte) (n : Nat) (b : Bytes) (s : State) : (publish opc n b s).drawCount = s.drawCount := rfl
@[simp] theorem publish_config (opc : Byte) (n : Nat) (b : Bytes) (s : State) : (publish opc n b s).config = s.config := rfl
@[simp] theorem publish_ctx (opc : Byte) (n : Nat) (b : Bytes) (s : State) (c : Dir) : (publish opc n b s).ctx c = s.ctx c := by cases c <;> rfl

/-! ### popHost -/

@[simp] theorem popHost_cmd (s : State) : s.popHost.cmd = s.cmd := rfl
@[simp] theorem popHost_status (s : State) : s.popHost.status = s.status := rfl
@[simp] theorem popHost_resLen (s : State) : s.popHost.resLen = s.resLen := rfl
@[simp] theorem popHost_desc (s : State) : s.popHost.desc = s.desc := rfl
@[simp] theorem popHost_ctx0 (s : State) : s.popHost.ctx0 = s.ctx0 := rfl
@[simp] theorem popHost_ctx1 (s : State) : s.popHost.ctx1 = s.ctx1 := rfl
@[simp] theorem popHost_buf (s : State) : s.popHost.buf = s.buf := rfl
@[simp] theorem popHost_host (s : State) : s.popHost.host = s.host.tail := rfl
@[simp] theorem popHost_reads (s : State) : s.popHost.reads = s.reads := rfl
@[simp] theorem popHost_draws (s : State) : s.popHost.draws = s.draws := rfl
@[simp] theorem popHost_drawCount (s : State) : s.popHost.drawCount = s.drawCount := rfl
@[simp] theorem popHost_config (s : State) : s.popHost.config = s.config := rfl
@[simp] theorem popHost_ctx (s : State) (c : Dir) : s.popHost.ctx c = s.ctx c := by cases c <;> rfl

/-! ### logRead -/

@[simp] theorem logRead_cmd (s : State) (r : Readout) : (s.logRead r).cmd = s.cmd := rfl
@[simp] theorem logRead_status (s : State) (r : Readout) : (s.logRead r).status = s.status := rfl
@[simp] theorem logRead_resLen (s : State) (r : Readout) : (s.logRead r).resLen = s.resLen := rfl
@[simp] theorem logRead_desc (s : State) (r : Readout) : (s.logRead r).desc = s.desc := rfl
@[simp] theorem logRead_ctx0 (s : State) (r : Readout) : (s.logRead r).ctx0 = s.ctx0 := rfl
@[simp] theorem logRead_ctx1 (s : State) (r : Readout) : (s.logRead r).ctx1 = s.ctx1 := rfl
@[simp] theorem logRead_buf (s : State) (r : Readout) : (s.logRead r).buf = s.buf := rfl
@[simp] theorem logRead_host (s : State) (r : Readout) : (s.logRead r).host = s.host := rfl
@[simp] theorem logRead_reads (s : State) (r : Readout) : (s.logRead r).reads = s.reads ++ [r] := rfl
@[simp] theorem logRead_draws (s : State) (r : Readout) : (s.logRead r).draws = s.draws := rfl
@[simp] theorem logRead_drawCount (s : State) (r : Readout) : (s.logRead r).drawCount = s.drawCount := rfl
@[simp] theorem logRead_config (s : State) (r : Readout) : (s.logRead r).config = s.config := rfl
@[simp] theorem logRead_ctx (s : State) (r : Readout) (c : Dir) : (s.logRead r).ctx c = s.ctx c := by cases c <;> rfl

/-! ### setCtx -/

@[simp] theorem setCtx_cmd (s : State) (c : Dir) (x : Context) : (s.setCtx c x).cmd = s.cmd := by cases c <;> rfl
@[simp] theorem setCtx_status (s : State) (c : Dir) (x : Context) : (s.setCtx c x).status = s.status := by cases c <;> rfl
@[simp] theorem setCtx_resLen (s : State) (c : Dir) (x : Context) : (s.setCtx c x).resLen = s.resLen := by cases c <;> rfl
@[simp] theorem setCtx_desc (s : State) (c : Dir) (x : Context) : (s.setCtx c x).desc = s.desc := by cases c <;> rfl
@[simp] theorem setCtx_buf (s : State) (c : Dir) (x : Context) : (s.setCtx c x).buf = s.buf := by cases c <;> rfl
@[simp] theorem setCtx_host (s : State) (c : Dir) (x : Context) : (s.setCtx c x).host = s.host := by cases c <;> rfl
@[simp] theorem setCtx_reads (s : State) (c : Dir) (x : Context) : (s.setCtx c x).reads = s.reads := by cases c <;> rfl
@[simp] theorem setCtx_draws (s : State) (c : Dir) (x : Context) : (s.setCtx c x).draws = s.draws := by cases c <;> rfl
@[simp] theorem setCtx_drawCount (s : State) (c : Dir) (x : Context) : (s.setCtx c x).drawCount = s.drawCount := by cases c <;> rfl
@[simp] theorem setCtx_config (s : State) (c : Dir) (x : Context) : (s.setCtx c x).config = s.config := by cases c <;> rfl
@[simp] theorem setCtx_ctx (s : State) (c : Dir) (x : Context) : (s.setCtx c x).ctx c = x := by cases c <;> rfl
theorem setCtx_ctx_of_ne (s : State) (c d : Dir) (x : Context) (h : d ≠ c) :
    (s.setCtx c x).ctx d = s.ctx d := by cases c <;> cases d <;> first | rfl | exact absurd rfl h
@[simp] theorem setCtx_other (s : State) (c : Dir) (x : Context) :
    (s.setCtx c x).ctx c.other = s.ctx c.other := by cases c <;> rfl
@[simp] theorem setCtx_setCtx (s : State) (c : Dir) (x y : Context) :
    (s.setCtx c x).setCtx c y = s.setCtx c y := by cases c <;> rfl
@[simp] theorem setCtx_enc (s : State) (x : Context) : s.setCtx .enc x = { s with ctx0 := x } := rfl
@[simp] theorem setCtx_dec (s : State) (x : Context) : s.setCtx .dec x = { s with ctx1 := x } := rfl

/-- Two states with the same fields are the same; contexts by direction. -/
theorem State.ext_ctx {s t : State} (hcmd : s.cmd = t.cmd) (hst : s.status = t.status)
    (hrl : s.resLen = t.resLen) (hd : s.desc = t.desc) (hc : ∀ c, s.ctx c = t.ctx c)
    (hb : s.buf = t.buf) (hh : s.host = t.host) (hr : s.reads = t.reads)
    (hdr : s.draws = t.draws) (hn : s.drawCount = t.drawCount) (hp : s.config = t.config) : s = t := by
  have h0 := hc .enc
  have h1 := hc .dec
  cases s; cases t
  simp_all [State.ctx]

/-! ### Registers without a command -/

@[simp] theorem writeReg_cmd (r : Reg) (v : Word) (s : State) : (writeReg r v s).cmd = s.cmd := by cases r <;> rfl
@[simp] theorem writeReg_status (r : Reg) (v : Word) (s : State) : (writeReg r v s).status = s.status := by cases r <;> rfl
@[simp] theorem writeReg_resLen (r : Reg) (v : Word) (s : State) : (writeReg r v s).resLen = s.resLen := by cases r <;> rfl
@[simp] theorem writeReg_ctx0 (r : Reg) (v : Word) (s : State) : (writeReg r v s).ctx0 = s.ctx0 := by cases r <;> rfl
@[simp] theorem writeReg_ctx1 (r : Reg) (v : Word) (s : State) : (writeReg r v s).ctx1 = s.ctx1 := by cases r <;> rfl
@[simp] theorem writeReg_buf (r : Reg) (v : Word) (s : State) : (writeReg r v s).buf = s.buf := by cases r <;> rfl
@[simp] theorem writeReg_host (r : Reg) (v : Word) (s : State) : (writeReg r v s).host = s.host := by cases r <;> rfl
@[simp] theorem writeReg_reads (r : Reg) (v : Word) (s : State) : (writeReg r v s).reads = s.reads := by cases r <;> rfl
@[simp] theorem writeReg_draws (r : Reg) (v : Word) (s : State) : (writeReg r v s).draws = s.draws := by cases r <;> rfl
@[simp] theorem writeReg_drawCount (r : Reg) (v : Word) (s : State) : (writeReg r v s).drawCount = s.drawCount := by cases r <;> rfl
@[simp] theorem writeReg_config (r : Reg) (v : Word) (s : State) : (writeReg r v s).config = s.config := by cases r <;> rfl
@[simp] theorem writeReg_ctx (r : Reg) (v : Word) (s : State) (c : Dir) : (writeReg r v s).ctx c = s.ctx c := by cases r <;> cases c <;> rfl

/-! ### Reset -/

@[simp] theorem resetEngine_cmd (s : State) : (resetEngine s).cmd = 0 := rfl
@[simp] theorem resetEngine_status (s : State) : (resetEngine s).status = Status.reset := rfl
@[simp] theorem resetEngine_resLen (s : State) : (resetEngine s).resLen = 0 := rfl
@[simp] theorem resetEngine_desc (s : State) : (resetEngine s).desc = Descriptors.reset := rfl
@[simp] theorem resetEngine_ctx0 (s : State) : (resetEngine s).ctx0 = Context.empty := rfl
@[simp] theorem resetEngine_ctx1 (s : State) : (resetEngine s).ctx1 = Context.empty := rfl
@[simp] theorem resetEngine_buf (s : State) : (resetEngine s).buf = [] := rfl
@[simp] theorem resetEngine_host (s : State) : (resetEngine s).host = s.host := rfl
@[simp] theorem resetEngine_reads (s : State) : (resetEngine s).reads = s.reads := rfl
@[simp] theorem resetEngine_draws (s : State) : (resetEngine s).draws = s.draws := rfl
@[simp] theorem resetEngine_drawCount (s : State) : (resetEngine s).drawCount = s.drawCount := rfl
@[simp] theorem resetEngine_config (s : State) : (resetEngine s).config = s.config := rfl
@[simp] theorem resetEngine_ctx (s : State) (c : Dir) : (resetEngine s).ctx c = Context.empty := by cases c <;> rfl

end Sys2Proof.Machine
end

