-- ==== Sys2Proof/Laws/Ops.lean ====
section
/-! SUPPORT. One lemma per shared operation: what a guard, a read and a draw inside a command can do. -/

namespace Sys2Proof.Machine

@[simp] theorem firstFailure_nil : firstFailure [] = none := rfl

theorem firstFailure_cons (passed : Bool) (e : CmdError) (rest : List Check) :
    firstFailure ((passed, e) :: rest) = if passed then firstFailure rest else some e := rfl

/-- A guard whose checks all pass runs the body. -/
theorem guarded_of_none {opc : Byte} {checks : List Check} {s : State} {body : Result}
    (h : firstFailure checks = none) : guarded opc checks s body = body := by
  simp [guarded, h]

/-- A guard with a failing check takes the first one's error. -/
theorem guarded_of_some {opc : Byte} {checks : List Check} {s : State} {body : Result} {e : CmdError}
    (h : firstFailure checks = some e) : guarded opc checks s body = .next (raise opc e s) := by
  simp [guarded, h]

@[simp] theorem withBytes_ok (b : Bytes) (k : Bytes → Result) : withBytes (.ok b) k = k b := rfl

@[simp] theorem withBytes_error (f : Fault) (k : Bytes → Result) : withBytes (.error f) k = .fault f := rfl

@[simp] theorem inBuf_iff (s : State) (p : Span) : s.inBuf p = true ↔ p.addr + p.len ≤ s.config.bufBytes := by
  simp [State.inBuf]

/-- The range check depends on the parameters alone. -/
theorem inBuf_congr {s t : State} (h : t.config = s.config) : t.inBuf = s.inBuf := by
  funext p
  simp [State.inBuf, h]

/-- BUF_BYTES fits a register (R6). -/
theorem bufBytes_le (p : Configuration) : p.bufBytes ≤ 2 ^ 24 :=
  Nat.pow_le_pow_right (by omega) (by have := p.bufLog2Over8.isLt; simp only [Configuration.bufLog2]; omega)

/-- A key that passes key setup has the length of its algorithm, and the engine does not reject it (R44, R102). -/
theorem keyOk_iff (p : Configuration) (alg : Alg) (key : Bytes) :
    p.keyOk alg key = true ↔ Config.keyBytes alg = some key.length ∧ (alg, key) ∉ p.rejectedKeys := by
  simp [Configuration.keyOk]

/-- A read inside a command: all bytes are there, or it faults at one that nothing has written. -/
theorem withBytes_readBytes (m : Memory) (a n : Nat) (k : Bytes → Result) :
    (∃ b, m.readBytes a n = .ok b ∧ b.length = n ∧ withBytes (m.readBytes a n) k = k b) ∨
      (∃ x, withBytes (m.readBytes a n) k = .fault (.uninitBuf x) ∧ a ≤ x ∧ x < a + n ∧
        m.read x = none) := by
  rcases m.readBytes_cases a n with ⟨b, hb, hl⟩ | ⟨x, hx, h1, h2, h3⟩
  · exact .inl ⟨b, hb, hl, by rw [hb]; rfl⟩
  · exact .inr ⟨x, by rw [hx]; rfl, h1, h2, h3⟩

/-- A register-sized length is its own 32-bit value (R29). -/
theorem toNat_ofNat_of_inBuf {p : Configuration} {a n : Nat} (h : a + n ≤ p.bufBytes) :
    (BitVec.ofNat 32 n).toNat = n := by
  have := bufBytes_le p
  rw [BitVec.toNat_ofNat]
  exact Nat.mod_eq_of_lt (by omega)

@[simp] theorem okStatus_code (opc : Byte) : (okStatus opc).code = .ok := rfl

@[simp] theorem okStatus_halted (opc : Byte) : (okStatus opc).halted = false := rfl

@[simp] theorem errorStatus_code (opc : Byte) (e : CmdError) : (errorStatus opc e).code = e.code := rfl

@[simp] theorem errorStatus_halted (opc : Byte) (e : CmdError) :
    (errorStatus opc e).halted = (e.code == .preconditionViolation) := rfl

theorem CmdError.code_ne_ok (e : CmdError) : e.code ≠ .ok := by cases e <;> simp [CmdError.code]

end Sys2Proof.Machine
end

