-- ==== Sys2Proof/Laws/Commands.lean ====
section
/-! SUPPORT. What a command can do, said once: every way exec can end. -/

namespace Sys2Proof.Machine

/-! ### The checks of each command are those of R79 and R209 -/

/-- The range checks in front of a command's other checks: one BUF_RANGE for all of them. -/
theorem firstFailure_ranges (s : State) (ps : List Span) (rest : List Check) :
    firstFailure (ps.map (rangeCheck s) ++ rest) =
      if ps.all s.inBuf then firstFailure rest else some .bufRange := by
  induction ps with
  | nil => rfl
  | cons p ps ih =>
    rw [List.map_cons, List.cons_append, rangeCheck, firstFailure_cons, ih, List.all_cons]
    by_cases h : s.inBuf p = true <;> simp [h]

/-- The context checks in front of the three commands that need a valid context. -/
theorem firstFailure_context (x : Context) (m : Mode) (rest : List Check) :
    firstFailure (contextChecks x m ++ rest) =
      if x.valid = false then some .noContext
      else if x.mode ≠ m then some .modeMismatch else firstFailure rest := by
  simp only [contextChecks, List.cons_append, List.nil_append, firstFailure_cons]
  by_cases hv : x.valid = true <;> by_cases hm : x.mode = m <;> simp [hv, hm]

theorem firstFailure_fbOf (s : State) :
    firstFailure [rangeCheck s (src0 s), rangeCheck s (dest s 16)] = checkedError .fbOf s :=
  firstFailure_ranges s [src0 s, dest s 16] []

theorem firstFailure_fbXor (s : State) :
    firstFailure [rangeCheck s (src0 s), rangeCheck s (src1 s), rangeCheck s (dest s (src1 s).len),
      ((src0 s).len == (src1 s).len, .xorLenMismatch),
      (decide ((src1 s).len ≤ 16), .xorLenOverBlock)] = checkedError .fbXor s := by
  refine (firstFailure_ranges s [src0 s, src1 s, dest s (src1 s).len] _).trans ?_
  simp only [firstFailure, checkedError, neededMode, usedSpans, lengthError]
  by_cases h1 : (src0 s).len = (src1 s).len <;> by_cases h2 : (src1 s).len ≤ 16 <;>
    simp [h1, h2, Nat.not_lt.2, Nat.lt_of_not_le]

theorem firstFailure_gfMul (s : State) :
    firstFailure [rangeCheck s (src0 s), rangeCheck s (src1 s), rangeCheck s (dest s 16),
      fixedLenCheck (src0 s), fixedLenCheck (src1 s)] = checkedError .gfMul s := by
  refine (firstFailure_ranges s [src0 s, src1 s, dest s 16] _).trans ?_
  simp only [firstFailure, fixedLenCheck, checkedError, neededMode, usedSpans, lengthError]
  by_cases h1 : (src0 s).len = 16 <;> by_cases h2 : (src1 s).len = 16 <;> simp [h1, h2]

theorem firstFailure_ghash (s : State) :
    firstFailure [rangeCheck s (src0 s), rangeCheck s (src1 s), rangeCheck s (src2 s), rangeCheck s (dest s 16),
      fixedLenCheck (src1 s), fixedLenCheck (src2 s)] = checkedError .ghash s := by
  refine (firstFailure_ranges s [src0 s, src1 s, src2 s, dest s 16] _).trans ?_
  simp only [firstFailure, fixedLenCheck, checkedError, neededMode, usedSpans, lengthError]
  by_cases h1 : (src1 s).len = 16 <;> by_cases h2 : (src2 s).len = 16 <;> simp [h1, h2]

theorem firstFailure_ctxCreate_cbc (c : Dir) (alg : Alg) (s : State) :
    firstFailure [rangeCheck s (src0 s), rangeCheck s (src2 s), fixedLenCheck (src2 s)] =
      checkedError (.ctxCreate c .cbc alg) s := by
  refine (firstFailure_ranges s [src0 s, src2 s] _).trans ?_
  simp only [firstFailure, fixedLenCheck, checkedError, neededMode, usedSpans, lengthError]
  by_cases h : (src2 s).len = 16 <;> simp [h]

theorem firstFailure_ctxCreate_gcm (c : Dir) (alg : Alg) (s : State) :
    firstFailure [rangeCheck s (src0 s)] = checkedError (.ctxCreate c .gcm alg) s :=
  firstFailure_ranges s [src0 s] []

theorem firstFailure_cbcReseed (c : Dir) (s : State) :
    firstFailure (contextChecks (s.ctx c) .cbc ++ [rangeCheck s (src2 s), fixedLenCheck (src2 s)]) =
      checkedError (.cbcReseed c) s := by
  have h := firstFailure_ranges s [src2 s] [fixedLenCheck (src2 s)]
  rw [firstFailure_context]
  simp only [checkedError, neededMode]
  congr 2
  refine h.trans ?_
  simp only [firstFailure, fixedLenCheck, usedSpans, lengthError]
  by_cases h : (src2 s).len = 16 <;> simp [h]

theorem firstFailure_cbcUpdate_override (c : Dir) (s : State) :
    firstFailure (contextChecks (s.ctx c) .cbc ++
        [rangeCheck s (src0 s), rangeCheck s (src2 s), rangeCheck s (dest s (src0 s).len),
          ((src0 s).len % 16 == 0, .cbcLen), fixedLenCheck (src2 s)]) =
      checkedError (.cbcUpdate c true) s := by
  have h := firstFailure_ranges s [src0 s, src2 s, dest s (src0 s).len]
    [((src0 s).len % 16 == 0, .cbcLen), fixedLenCheck (src2 s)]
  rw [firstFailure_context]
  simp only [checkedError, neededMode]
  congr 2
  refine h.trans ?_
  simp only [firstFailure, fixedLenCheck, usedSpans, lengthError]
  by_cases h1 : (src0 s).len % 16 = 0 <;> by_cases h2 : (src2 s).len = 16 <;> simp [h1, h2]

theorem firstFailure_cbcUpdate_carried (c : Dir) (s : State) :
    firstFailure (contextChecks (s.ctx c) .cbc ++
        [rangeCheck s (src0 s), rangeCheck s (dest s (src0 s).len), ((src0 s).len % 16 == 0, .cbcLen)]) =
      checkedError (.cbcUpdate c false) s := by
  have h := firstFailure_ranges s [src0 s, dest s (src0 s).len] [((src0 s).len % 16 == 0, .cbcLen)]
  rw [firstFailure_context]
  simp only [checkedError, neededMode]
  congr 2
  refine h.trans ?_
  simp only [firstFailure, usedSpans, lengthError]
  by_cases h1 : (src0 s).len % 16 = 0 <;> simp [h1]

theorem firstFailure_gcmUpdate (c : Dir) (s : State) :
    firstFailure (contextChecks (s.ctx c) .gcm ++
      [rangeCheck s (src0 s), rangeCheck s (src1 s), rangeCheck s (src2 s),
        rangeCheck s (dest s (src0 s).len)]) = checkedError (.gcmUpdate c) s := by
  have h := firstFailure_ranges s [src0 s, src1 s, src2 s, dest s (src0 s).len] []
  rw [firstFailure_context]
  simp only [checkedError, neededMode]
  congr 2

/-- Where checks 3 to 6 pass, every region the command uses lies in BUF. -/
theorem spans_inBuf_of_checked {i : Instr} {s : State} (h : checkedError i s = none) :
    ∀ p ∈ usedSpans i s, p.addr + p.len ≤ s.config.bufBytes := by
  have hall : (usedSpans i s).all s.inBuf = true := by
    unfold checkedError at h
    cases hn : neededMode i with
    | none =>
      simp only [hn] at h
      by_contra hf
      simp [hf] at h
    | some p =>
      obtain ⟨c, m⟩ := p
      simp only [hn] at h
      by_contra hf
      split at h
      · simp at h
      · split at h
        · simp at h
        · simp at h
  intro p hp
  exact (inBuf_iff s p).1 (List.all_eq_true.1 hall p hp)

/-- Where checks 3 to 6 pass, a needed context is valid and of the needed mode. -/
theorem context_of_checked {i : Instr} {s : State} {c : Dir} {m : Mode} (h : checkedError i s = none)
    (hn : neededMode i = some (c, m)) : (s.ctx c).valid = true ∧ (s.ctx c).mode = m := by
  unfold checkedError at h
  simp only [hn] at h
  split at h
  · simp at h
  · split at h
    · simp at h
    · rename_i h1 h2
      exact ⟨by simpa using h1, by simpa using h2⟩

/-- Where checks 3 to 6 pass, so do the length preconditions. -/
theorem lengthError_of_checked {i : Instr} {s : State} (h : checkedError i s = none) :
    lengthError i s = none := by
  unfold checkedError at h
  cases hn : neededMode i with
  | none =>
    simp only [hn] at h
    split at h
    · exact h
    · simp at h
  | some p =>
    obtain ⟨c, m⟩ := p
    simp only [hn] at h
    split at h
    · simp at h
    · split at h
      · simp at h
      · split at h
        · exact h
        · simp at h

/-! ### Every way a command can end -/

/-- The ways a command can end from a state. -/
inductive CommandEnd (i : Instr) (s : State) : Result → Prop where
  /-- It read a byte nothing has written. -/
  | fault (x : Nat) (hx : s.buf.read x = none) (hlt : x < s.config.bufBytes)
      (hc : checkedError i s = none) : CommandEnd i s (.fault (.uninitBuf x))
  /-- A check of R209 failed. -/
  | checkFailed (e : CmdError) (hc : checkedError i s = some e) :
      CommandEnd i s (.next (raise i.opcode.code e s))
  /-- CTX_CREATE with an unsupported algorithm or key. -/
  | unsupported (c : Dir) (m : Mode) (a : Alg) (e : CmdError) (hi : i = .ctxCreate c m a)
      (he : e.code = .unsupportedAlgorithm) (hc : checkedError i s = none) :
      CommandEnd i s (.next (raise 0x10 e (s.setCtx c Context.empty)))
  /-- CTX_CREATE whose H derivation failed. -/
  | createFailed (c : Dir) (a : Alg) (hi : i = .ctxCreate c .gcm a) (hd : s.nextDraw = .fail) (hc : checkedError i s = none) :
      CommandEnd i s (.next (raise 0x10 .inCreate (s.setCtx c Context.empty).takeDraw))
  /-- An update whose primitive failed. -/
  | updateFailed (hi : (∃ c ivo, i = .cbcUpdate c ivo) ∨ (∃ c, i = .gcmUpdate c))
      (hd : s.nextDraw = .fail) (hc : checkedError i s = none) :
      CommandEnd i s (.next (raise i.opcode.code .inUpdate s.takeDraw))
  /-- NOP. -/
  | noOp (hi : i = .nop) : CommandEnd i s (.next (commit 0x00 0 s))
  /-- A pure command wrote its result. -/
  | wrote (n : Nat) (b : Bytes) (hi : i = .fbOf ∨ i = .fbXor ∨ i = .gfMul ∨ i = .ghash)
      (hn : b.length = n) (hd : s.desc.dAddr.toNat + n ≤ s.config.bufBytes)
      (hc : checkedError i s = none) : CommandEnd i s (.next (publish i.opcode.code n b s))
  /-- A context was created. -/
  | createdCbc (c : Dir) (a : Alg) (key : Bytes) (iv : Block) (hi : i = .ctxCreate c .cbc a)
      (ha : a = .aes128 ∨ a = .aes256) (hk : s.config.keyOk a key = true)
      (hc : checkedError i s = none) :
      CommandEnd i s (.next (commit 0x10 0 (s.setCtx c (newContext .cbc a key iv 0))))
  /-- A GCM context was created. -/
  | createdGcm (c : Dir) (a : Alg) (key : Bytes) (hi : i = .ctxCreate c .gcm a)
      (ha : a = .aes128 ∨ a = .aes256) (hk : s.config.keyOk a key = true)
      (hc : checkedError i s = none) :
      CommandEnd i s (.next (commit 0x10 0
        (s.takeDraw.setCtx c (newContext .gcm a key 0 (Config.E a key 0)))))
  /-- A context was destroyed. -/
  | destroyed (c : Dir) (hi : i = .ctxDestroy c) :
      CommandEnd i s (.next (commit 0x11 0 (s.setCtx c Context.empty)))
  /-- A CBC context's IV was replaced. -/
  | reseeded (c : Dir) (iv : Block) (hi : i = .cbcReseed c) (hv : (s.ctx c).valid = true)
      (hm : (s.ctx c).mode = .cbc) (hc : checkedError i s = none) :
      CommandEnd i s (.next (commit 0x12 0 (s.setCtx c { s.ctx c with chain := iv })))
  /-- CBC_UPDATE wrote its output. -/
  | cbcDone (c : Dir) (ivo : Bool) (n : Nat) (b : Bytes) (chain : Block) (s' : State)
      (hi : i = .cbcUpdate c ivo) (hs : s' = s ∨ s' = s.takeDraw) (hv : (s.ctx c).valid = true)
      (hm : (s.ctx c).mode = .cbc) (hn : b.length = n)
      (hd : s.desc.dAddr.toNat + n ≤ s.config.bufBytes) (hc : checkedError i s = none) :
      CommandEnd i s (.next (publish 0x20 n b (s'.setCtx c { s.ctx c with chain := chain })))
  /-- GCM_UPDATE wrote its output. -/
  | gcmDone (c : Dir) (n : Nat) (b : Bytes) (chain tag : Block) (hi : i = .gcmUpdate c)
      (hv : (s.ctx c).valid = true) (hm : (s.ctx c).mode = .gcm) (hn : b.length = n)
      (hd : s.desc.dAddr.toNat + n ≤ s.config.bufBytes) (hc : checkedError i s = none) :
      CommandEnd i s (.next (publish 0x21 n b
        (s.takeDraw.setCtx c { s.ctx c with chain := chain, tag := tag, tagValid := true })))

/-- A read of a used region inside a command: its bytes, or a fault that the command may end in. -/
theorem CommandEnd.read {i : Instr} {s : State} {p : Span} (hc : checkedError i s = none)
    (hp : p ∈ usedSpans i s) {n : Nat} (hn : n ≤ p.len) {k : Bytes → Result}
    (hk : ∀ b, s.buf.readBytes p.addr n = .ok b → b.length = n → CommandEnd i s (k b)) :
    CommandEnd i s (withBytes (s.buf.readBytes p.addr n) k) := by
  have hin := spans_inBuf_of_checked hc p hp
  rcases withBytes_readBytes s.buf p.addr n k with ⟨b, hb, hl, he⟩ | ⟨x, he, h1, h2, h3⟩
  · rw [he]; exact hk b hb hl
  · rw [he]; exact .fault x h3 (by omega) hc

/-- A guarded command: the report of the check that failed, or its body. -/
theorem CommandEnd.guard {i : Instr} {s : State} {checks : List Check} {body : Result}
    (hf : firstFailure checks = checkedError i s)
    (hb : checkedError i s = none → CommandEnd i s body) :
    CommandEnd i s (guarded i.opcode.code checks s body) := by
  cases hc : checkedError i s with
  | none => rw [guarded_of_none (hf.trans hc)]; exact hb hc
  | some e => rw [guarded_of_some (hf.trans hc)]; exact .checkFailed e hc

/-- Construction errors are UNSUPPORTED_ALGORITHM; without one the algorithm and key are good. -/
theorem createError_cases (p : Configuration) (alg : Alg) (key : Bytes) :
    (∃ e, createError p alg key = some e ∧ e.code = .unsupportedAlgorithm) ∨
      (createError p alg key = none ∧ (alg = .aes128 ∨ alg = .aes256) ∧ p.keyOk alg key = true) := by
  cases alg with
  | null => exact .inl ⟨_, rfl, rfl⟩
  | reserved => exact .inl ⟨_, rfl, rfl⟩
  | aes128 =>
    cases h : p.keyOk .aes128 key with
    | true => exact .inr ⟨by simp [createError, h], .inl rfl, rfl⟩
    | false => exact .inl ⟨_, by simp only [createError, h]; rfl, rfl⟩
  | aes256 =>
    cases h : p.keyOk .aes256 key with
    | true => exact .inr ⟨by simp [createError, h], .inr rfl, rfl⟩
    | false => exact .inl ⟨_, by simp only [createError, h]; rfl, rfl⟩

theorem execFbOf_end (s : State) : CommandEnd .fbOf s (execFbOf s) := by
  refine CommandEnd.guard (i := .fbOf) (firstFailure_fbOf s) fun hc => ?_
  refine CommandEnd.read hc (p := src0 s) (by simp [usedSpans]) (Nat.min_le_left _ _) fun b _ _ => ?_
  exact .wrote 16 _ (.inl rfl) (by simp) (spans_inBuf_of_checked hc (dest s 16) (by simp [usedSpans])) hc

theorem execFbXor_end (s : State) : CommandEnd .fbXor s (execFbXor s) := by
  refine CommandEnd.guard (i := .fbXor) (firstFailure_fbXor s) fun hc => ?_
  refine CommandEnd.read hc (p := src1 s) (by simp [usedSpans]) (Nat.le_refl _) fun a _ ha => ?_
  refine CommandEnd.read hc (p := src0 s) (by simp [usedSpans]) (Nat.le_refl _) fun b _ hb => ?_
  have hlen : (src0 s).len = (src1 s).len := by
    have := lengthError_of_checked hc
    by_contra hne
    simp [lengthError, hne] at this
  exact .wrote _ _ (.inr (.inl rfl)) (by simp [ha, hb, hlen])
    (spans_inBuf_of_checked hc (dest s (src1 s).len) (by simp [usedSpans])) hc

theorem execGfMul_end (s : State) : CommandEnd .gfMul s (execGfMul s) := by
  refine CommandEnd.guard (i := .gfMul) (firstFailure_gfMul s) fun hc => ?_
  refine CommandEnd.read hc (p := src0 s) (by simp [usedSpans]) (Nat.le_refl _) fun a _ ha => ?_
  refine CommandEnd.read hc (p := src1 s) (by simp [usedSpans]) (Nat.le_refl _) fun b _ hb => ?_
  exact .wrote 16 _ (.inr (.inr (.inl rfl))) (by simp)
    (spans_inBuf_of_checked hc (dest s 16) (by simp [usedSpans])) hc

theorem execGhash_end (s : State) : CommandEnd .ghash s (execGhash s) := by
  refine CommandEnd.guard (i := .ghash) (firstFailure_ghash s) fun hc => ?_
  refine CommandEnd.read hc (p := src0 s) (by simp [usedSpans]) (Nat.le_refl _) fun a _ ha => ?_
  refine CommandEnd.read hc (p := src1 s) (by simp [usedSpans]) (Nat.le_refl _) fun b _ hb => ?_
  refine CommandEnd.read hc (p := src2 s) (by simp [usedSpans]) (Nat.le_refl _) fun d _ hd => ?_
  exact .wrote 16 _ (.inr (.inr (.inr rfl))) (by simp)
    (spans_inBuf_of_checked hc (dest s 16) (by simp [usedSpans])) hc

theorem createContext_end (c : Dir) (m : Mode) (alg : Alg) (key : Bytes) (iv : Block) (s : State)
    (hc : checkedError (.ctxCreate c m alg) s = none) :
    CommandEnd (.ctxCreate c m alg) s (createContext c m alg key iv s) := by
  unfold createContext
  rcases createError_cases s.config alg key with ⟨e, he, hcode⟩ | ⟨hnone, ha, hk⟩
  · simp only [he]
    exact .unsupported c m alg e rfl hcode hc
  · simp only [hnone]
    cases m with
    | cbc => exact .createdCbc c alg key iv rfl ha hk hc
    | gcm =>
      simp only [withDraw]
      have hdraw : (s.setCtx c Context.empty).nextDraw = s.nextDraw := by cases c <;> rfl
      cases hd : (s.setCtx c Context.empty).nextDraw with
      | fail => exact .createFailed c alg rfl (hdraw ▸ hd) hc
      | ok =>
        have e : ∀ x, ((s.setCtx c Context.empty).takeDraw.setCtx c x) = s.takeDraw.setCtx c x := by
          intro x; cases c <;> rfl
        simp only [e]
        exact .createdGcm c alg key rfl ha hk hc

theorem execCtxCreate_end (c : Dir) (m : Mode) (alg : Alg) (s : State) :
    CommandEnd (.ctxCreate c m alg) s (execCtxCreate c m alg s) := by
  cases m with
  | cbc =>
    refine CommandEnd.guard (i := .ctxCreate c .cbc alg) (firstFailure_ctxCreate_cbc c alg s) fun hc => ?_
    refine CommandEnd.read hc (p := src0 s) (by simp [usedSpans]) (Nat.le_refl _) fun key _ _ => ?_
    refine CommandEnd.read hc (p := src2 s) (by simp [usedSpans]) (Nat.le_refl _) fun iv _ _ => ?_
    exact createContext_end c .cbc alg key _ s hc
  | gcm =>
    refine CommandEnd.guard (i := .ctxCreate c .gcm alg) (firstFailure_ctxCreate_gcm c alg s) fun hc => ?_
    refine CommandEnd.read hc (p := src0 s) (by simp [usedSpans]) (Nat.le_refl _) fun key _ _ => ?_
    exact createContext_end c .gcm alg key 0 s hc

theorem execCbcReseed_end (c : Dir) (s : State) : CommandEnd (.cbcReseed c) s (execCbcReseed c s) := by
  refine CommandEnd.guard (i := .cbcReseed c) (firstFailure_cbcReseed c s) fun hc => ?_
  refine CommandEnd.read hc (p := src2 s) (by simp [usedSpans]) (Nat.le_refl _) fun iv _ _ => ?_
  obtain ⟨hv, hm⟩ := context_of_checked hc rfl
  exact .reseeded c _ rfl hv hm hc

theorem cbcUpdateBody_end (c : Dir) (ivo : Bool) (iv : Block) (x : Bytes) (s : State)
    (hc : checkedError (.cbcUpdate c ivo) s = none) (hx : x.length = (src0 s).len) :
    CommandEnd (.cbcUpdate c ivo) s (cbcUpdateBody c iv x s) := by
  obtain ⟨hv, hm⟩ := context_of_checked hc rfl
  have hlen : (src0 s).len % 16 = 0 := by
    have := lengthError_of_checked hc
    by_contra hne
    cases ivo <;> simp [lengthError, hne] at this
  have hd : s.desc.dAddr.toNat + (src0 s).len ≤ s.config.bufBytes :=
    spans_inBuf_of_checked hc (dest s (src0 s).len) (by cases ivo <;> simp [usedSpans])
  have fin : ∀ s', (s' = s ∨ s' = s.takeDraw) →
      CommandEnd (.cbcUpdate c ivo) s (.next (cbcFinish c (src0 s).len iv x s')) := by
    intro s' hs
    have hctx : s'.ctx c = s.ctx c := by rcases hs with rfl | rfl <;> simp
    unfold cbcFinish
    simp only [hctx]
    exact .cbcDone c ivo _ _ _ s' rfl hs hv hm
      (by rw [length_bytesOfBlocks_cbcRun _ _ _ (by omega), hx]) hd hc
  unfold cbcUpdateBody
  split
  · simp only [withDraw]
    cases hd : s.nextDraw with
    | fail => exact .updateFailed (.inl ⟨c, ivo, rfl⟩) hd hc
    | ok => exact fin _ (.inr rfl)
  · exact fin _ (.inl rfl)

theorem execCbcUpdate_end (c : Dir) (ivo : Bool) (s : State) :
    CommandEnd (.cbcUpdate c ivo) s (execCbcUpdate c ivo s) := by
  cases ivo with
  | true =>
    refine CommandEnd.guard (i := .cbcUpdate c true) (firstFailure_cbcUpdate_override c s) fun hc => ?_
    refine CommandEnd.read hc (p := src0 s) (by simp [usedSpans]) (Nat.le_refl _) fun x _ hx => ?_
    refine CommandEnd.read hc (p := src2 s) (by simp [usedSpans]) (Nat.le_refl _) fun iv _ _ => ?_
    exact cbcUpdateBody_end c true _ x s hc hx
  | false =>
    refine CommandEnd.guard (i := .cbcUpdate c false) (firstFailure_cbcUpdate_carried c s) fun hc => ?_
    refine CommandEnd.read hc (p := src0 s) (by simp [usedSpans]) (Nat.le_refl _) fun x _ hx => ?_
    exact cbcUpdateBody_end c false _ x s hc hx

theorem execGcmUpdate_end (c : Dir) (s : State) : CommandEnd (.gcmUpdate c) s (execGcmUpdate c s) := by
  refine CommandEnd.guard (i := .gcmUpdate c) (firstFailure_gcmUpdate c s) fun hc => ?_
  refine CommandEnd.read hc (p := src0 s) (by simp [usedSpans]) (Nat.le_refl _) fun x _ hx => ?_
  refine CommandEnd.read hc (p := src1 s) (by simp [usedSpans]) (Nat.le_refl _) fun aad _ _ => ?_
  refine CommandEnd.read hc (p := src2 s) (by simp [usedSpans]) (Nat.le_refl _) fun iv _ _ => ?_
  obtain ⟨hv, hm⟩ := context_of_checked hc rfl
  simp only [withDraw]
  cases hd : s.nextDraw with
  | fail => exact .updateFailed (.inr ⟨c, rfl⟩) hd hc
  | ok =>
    simp only [gcmFinish, takeDraw_ctx]
    exact .gcmDone c _ _ _ _ rfl hv hm (by rw [length_out_gcmCrypt, hx])
      (spans_inBuf_of_checked hc (dest s (src0 s).len) (by simp [usedSpans])) hc

/-- Every command ends in one of the ways above, from every state. -/
theorem exec_end (i : Instr) (s : State) : CommandEnd i s (exec i s) := by
  cases i with
  | nop => exact .noOp rfl
  | fbOf => exact execFbOf_end s
  | fbXor => exact execFbXor_end s
  | gfMul => exact execGfMul_end s
  | ghash => exact execGhash_end s
  | ctxCreate c m a => exact execCtxCreate_end c m a s
  | ctxDestroy c => exact .destroyed c rfl
  | cbcReseed c => exact execCbcReseed_end c s
  | cbcUpdate c ivo => exact execCbcUpdate_end c ivo s
  | gcmUpdate c => exact execGcmUpdate_end c s

end Sys2Proof.Machine
end

