-- ==== Sys2Proof/Laws/Decode.lean ====
section
/-! SUPPORT. What the decoder can answer, said once, and the bits it requires to be 0. -/

namespace Sys2Proof

theorem Opcode.ofByte_code (op : Opcode) : Opcode.ofByte op.code = some op := by cases op <;> rfl

theorem Opcode.code_of_ofByte {b : Byte} {op : Opcode} (h : Opcode.ofByte b = some op) : op.code = b := by
  unfold Opcode.ofByte at h
  simpa using List.find?_some h

theorem Opcode.opcode_command (op : Opcode) (w : Word) : (op.command w).opcode = op := by cases op <;> rfl

/-- A word that decodes has an assigned OPC and no bit outside its fields (R77). -/
theorem decode_ok {w : Word} {i : Instr} (h : decode w = .ok i) :
    i.opcode.code = opcField w ∧ w &&& ~~~(0x000000FF ||| i.opcode.varMask) = 0 ∧
      i = i.opcode.command w := by
  unfold decode at h
  split at h
  · simp at h
  · rename_i op hop
    split at h
    · rename_i hz
      injection h with h
      subst h
      rw [Opcode.opcode_command]
      exact ⟨Opcode.code_of_ofByte hop, hz, rfl⟩
    · simp at h

/-- An assigned OPC with no bit outside its fields decodes (R77). -/
theorem decode_of_fields {w : Word} {op : Opcode} (h : op.code = opcField w)
    (hz : w &&& ~~~(0x000000FF ||| op.varMask) = 0) : decode w = .ok (op.command w) := by
  unfold decode
  rw [← h, Opcode.ofByte_code]
  exact if_pos hz

/-- A bit above OPC and outside the fields of a decodable word is 0. -/
theorem bit_of_reserved_zero {w v : Word} (h : w &&& ~~~(0x000000FF ||| v) = 0) {j : Nat} (hj : 8 ≤ j)
    (hv : v.getLsbD j = false) : w.getLsbD j = false := by
  by_cases h32 : j < 32
  · have hbit := congrArg (fun x : Word => x.getLsbD j) h
    have h8 : (0x000000FF : Word).getLsbD j = false := by interval_cases j <;> rfl
    have h0 : (0 : Word).getLsbD j = false := BitVec.getLsbD_zero
    simp only [BitVec.getLsbD_and, BitVec.getLsbD_not, BitVec.getLsbD_or, hv, h8, h0] at hbit
    simpa [h32] using hbit
  · exact BitVec.getLsbD_of_ge _ _ (by omega)

end Sys2Proof
end

