-- ==== Sys2Proof/Laws/PerInstr.lean ====
section
/-! SUPPORT. Facts about every command as syntax, one lemma per constructor. -/

namespace Sys2Proof.Laws.TableRow

/-- The word of a command matches its own row of the table, and no bit of it lies outside the opcode and
the row's variable bits (R72). -/
def Statement (i : Instr) : Prop :=
  encode i &&& i.opcode.maskWord = i.opcode.matchWord ∧
    encode i &&& ~~~(0x000000FF ||| i.opcode.varMask) = 0

theorem nop : Statement .nop := by unfold Statement; decide

theorem fbOf : Statement .fbOf := by unfold Statement; decide

theorem fbXor : Statement .fbXor := by unfold Statement; decide

theorem gfMul : Statement .gfMul := by unfold Statement; decide

theorem ghash : Statement .ghash := by unfold Statement; decide

theorem ctxCreate (c : Dir) (mode : Mode) (alg : Alg) : Statement (.ctxCreate c mode alg) := by
  unfold Statement; cases c <;> cases mode <;> cases alg <;> decide

theorem ctxDestroy (c : Dir) : Statement (.ctxDestroy c) := by
  unfold Statement; cases c <;> decide

theorem cbcReseed (c : Dir) : Statement (.cbcReseed c) := by
  unfold Statement; cases c <;> decide

theorem cbcUpdate (c : Dir) (ivo : Bool) : Statement (.cbcUpdate c ivo) := by
  unfold Statement; cases c <;> cases ivo <;> decide

theorem gcmUpdate (c : Dir) : Statement (.gcmUpdate c) := by
  unfold Statement; cases c <;> decide

end Sys2Proof.Laws.TableRow
end

