-- ==== Sys2Proof/Laws/Runs.lean ====
section
/-! SUPPORT. What a step does to the host's pending operations, and that the run of a program ends (R242). -/

namespace Sys2Proof.Machine

/-- No command touches the host's pending operations or the parameters. -/
theorem exec_keeps_host {i : Instr} {s t : State} (h : exec i s = .next t) :
    t.host = s.host ∧ t.config = s.config := by
  have e := exec_end i s
  rw [h] at e
  cases e with
  | cbcDone c ivo n b chain s' hi hs => rcases hs with rfl | rfl <;> simp
  | _ => simp

/-- A write of CMD leaves the pending operations and the parameters. -/
theorem writeCmd_keeps_host {w : Word} {s t : State} (h : writeCmd w s = .next t) :
    t.host = s.host ∧ t.config = s.config := by
  unfold writeCmd at h
  split at h
  · cases h; exact ⟨rfl, rfl⟩
  · split at h
    · cases h; exact ⟨rfl, rfl⟩
    · have hk := exec_keeps_host h
      simpa using hk

/-- A host operation leaves the parameters and the operations behind it, or ends the program (HALT_CHECK). -/
theorem perform_host {op : HostOp} {s t : State} (h : perform op s = .next t) :
    (t.host = s.host ∨ t.host = []) ∧ t.config = s.config := by
  cases op with
  | reset => cases h; exact ⟨.inl rfl, rfl⟩
  | writeReg o v =>
    simp only [perform, hostWriteReg] at h
    split at h
    · split at h
      · cases h; exact ⟨.inl rfl, rfl⟩
      · split at h
        · exact (writeCmd_keeps_host h).imp .inl id
        · cases h; exact ⟨.inl (by simp), by simp⟩
    · cases h
  | readReg o =>
    simp only [perform, hostReadReg] at h
    split at h
    · cases h; exact ⟨.inl rfl, rfl⟩
    · cases h
  | writeBuf a b =>
    simp only [perform, hostWriteBuf] at h
    split at h
    · cases h; exact ⟨.inl rfl, rfl⟩
    · cases h
  | readBuf a =>
    simp only [perform, hostReadBuf] at h
    split at h
    · split at h
      · cases h; exact ⟨.inl rfl, rfl⟩
      · cases h
    · cases h
  | haltCheck =>
    simp only [perform, hostHaltCheck] at h
    split at h
    · cases h; exact ⟨.inr rfl, rfl⟩
    · cases h; exact ⟨.inl rfl, rfl⟩
  | secondAgent => cases h

/-- A step takes the host's oldest pending operation. -/
theorem step_length_host {s t : State} (h : step s = .next t) : t.host.length ≤ s.host.length - 1 := by
  simp only [step, hostStep] at h
  split at h
  · rename_i e
    cases h
    simp [e]
  · rename_i op rest e
    rcases (perform_host h).1 with hh | hh <;> simp [hh, e]

/-- With a step for each pending operation the run ended. -/
theorem runEnded_of_runToEnd {k : Nat} {s t : State} (hk : s.host.length ≤ k) (h : runToEnd k s = .next t) :
    runEnded t = true := by
  induction k generalizing s with
  | zero =>
    have he : s.host = [] := List.length_eq_zero_iff.1 (by omega)
    cases h
    simp [runEnded, he]
  | succ k ih =>
    simp only [runToEnd] at h
    split at h
    · cases h; assumption
    · split at h
      · rename_i s' hs
        exact ih (by have := step_length_host hs; omega) h
      · cases h
      · cases h

/-- The end state of a program is one in which its run ended (R242). -/
theorem runEnded_of_endState {s t : State} (h : endState s = .next t) : runEnded t = true :=
  runEnded_of_runToEnd (Nat.le_refl _) h

end Sys2Proof.Machine
end

