-- ==== Sys2Proof/Machine/AsmText.lean ====
section
/-! DEFINITION. The text of a host program (R81, R82): one line per host operation, read into a Line, or
refused. Where R81 is silent on the text, log 16 says what this reader does. -/

namespace Sys2Proof.Machine

/-! ### Tokens -/

/-- A token: a comma, an equals sign, or a run of other characters, in lower case (tokensFrom). -/
abbrev Token := List Char

/-- The characters that separate tokens inside a line. -/
def isBlank (c : Char) : Bool := c == ' ' || c == '\t' || c == '\r'

/-- The line without its comment, which starts at the first semicolon (R81). -/
def stripComment (line : List Char) : List Char := line.takeWhile (fun c => c != ';')

/-- A finished run of characters, held in reverse, in front of the tokens after it. -/
def pushToken (run : Token) (rest : List Token) : List Token :=
  if run.isEmpty then rest else run.reverse :: rest

/-- The tokens of a line, `run` being the characters of the token under way, in reverse. Every token is read in lower
case. R81 asks that of mnemonics and field names; of register names, field values, hex digits and the number prefix,
so that 0X is 0x, it is DESIGN CHOICE, safe: log 16. -/
def tokensFrom : Token → List Char → List Token
  | run, [] => pushToken run []
  | run, c :: cs =>
    if isBlank c then pushToken run (tokensFrom [] cs)
    else if c == ',' || c == '=' then pushToken run ([c] :: tokensFrom [] cs)
    else tokensFrom (c.toLower :: run) cs

/-! ### Numbers and names -/

/-- The value of a digit in a base up to 16. -/
def digitValue (base : Nat) (c : Char) : Option Nat :=
  let v := if '0' ≤ c ∧ c ≤ '9' then c.toNat - '0'.toNat
    else if 'a' ≤ c ∧ c ≤ 'f' then c.toNat - 'a'.toNat + 10 else base
  if v < base then some v else none

/-- The value of a run of digits after those whose value is `v`. -/
def digitsValue (base : Nat) : Nat → List Char → Option Nat
  | v, [] => some v
  | v, c :: cs =>
    match digitValue base c with
    | some d => digitsValue base (v * base + d) cs
    | none => none

/-- A number: decimal, or 0x and hexadecimal (R81). The token is in lower case by now, so 0X is read too (log 16). -/
def numberOf : Token → Option Nat
  | [] => none
  | '0' :: 'x' :: c :: cs => digitsValue 16 0 (c :: cs)
  | c :: cs => digitsValue 10 0 (c :: cs)

/-- A number that fits a 32-bit register. -/
def wordOf (t : Token) : Option Word :=
  match numberOf t with
  | some v => if v < 2 ^ 32 then some (BitVec.ofNat 32 v) else none
  | none => none

/-- The bytes of WB, two hex digits each (R81). -/
def hexBytes : List Char → Option Bytes
  | [] => some []
  | [_] => none
  | a :: b :: cs =>
    match digitValue 16 a, digitValue 16 b, hexBytes cs with
    | some x, some y, some bs => some (BitVec.ofNat 8 (16 * x + y) :: bs)
    | _, _, _ => none

/-- The start of the names of a context's views (R81). -/
def ctxName : Dir → Token
  | .enc => "ctx0".toList
  | .dec => "ctx1".toList

/-- REGNAME (R81), in lower case. -/
def Reg.name : Reg → Token
  | .cmd => "cmd".toList
  | .status => "status".toList
  | .s0Addr => "s0_addr".toList
  | .s0Len => "s0_len".toList
  | .s1Addr => "s1_addr".toList
  | .s1Len => "s1_len".toList
  | .s2Addr => "s2_addr".toList
  | .s2Len => "s2_len".toList
  | .dAddr => "d_addr".toList
  | .resLen => "res_len".toList
  | .params => "params".toList
  | .ctxCfg c => ctxName c ++ "_cfg".toList
  | .ctxChain c k => ctxName c ++ "_chain".toList ++ [Char.ofNat ('0'.toNat + k.val)]
  | .ctxTag c k => ctxName c ++ "_tag".toList ++ [Char.ofNat ('0'.toNat + k.val)]

/-- The register of a name. -/
def regOf (t : Token) : Option Reg := Reg.all.find? (fun r => r.name == t)

/-- MNEMONIC (R71, R81), in lower case. -/
def opcodeName : Opcode → Token
  | .nop => "nop".toList
  | .fbOf => "fb_of".toList
  | .fbXor => "fb_xor".toList
  | .gfMul => "gf_mul".toList
  | .ghash => "ghash".toList
  | .ctxCreate => "ctx_create".toList
  | .ctxDestroy => "ctx_destroy".toList
  | .cbcReseed => "cbc_reseed".toList
  | .cbcUpdate => "cbc_update".toList
  | .gcmUpdate => "gcm_update".toList

/-- The opcode of a mnemonic. -/
def opcodeOf (t : Token) : Option Opcode := Opcode.all.find? (fun op => opcodeName op == t)

/-! ### Fields (R81) -/

/-- ctx=0|1|enc|dec (R81). RCHAIN and RTAG take their c in the same four spellings and in no other, so not 0x0 or
0x1: R82 shows only 0 and 1 there. DESIGN CHOICE, safe: log 16. -/
def dirOf (t : Token) : Option Dir :=
  if t = "0".toList ∨ t = "enc".toList then some .enc
  else if t = "1".toList ∨ t = "dec".toList then some .dec else none

/-- mode=cbc|gcm. -/
def modeOf (t : Token) : Option Mode :=
  if t = "cbc".toList then some .cbc else if t = "gcm".toList then some .gcm else none

/-- alg=null|aes128|aes256|rsvd. -/
def algOf (t : Token) : Option Alg :=
  if t = "null".toList then some .null else if t = "aes128".toList then some .aes128
  else if t = "aes256".toList then some .aes256 else if t = "rsvd".toList then some .reserved else none

/-- ivo=0|1. -/
def ivoOf (t : Token) : Option Bool :=
  if t = "0".toList then some false else if t = "1".toList then some true else none

/-- One field written; a field written twice is refused. -/
def setField (f : AsmFields) (name value : Token) : Option AsmFields :=
  if name = "ctx".toList ∧ f.ctx = none then (dirOf value).map fun c => { f with ctx := some c }
  else if name = "mode".toList ∧ f.mode = none then (modeOf value).map fun m => { f with mode := some m }
  else if name = "alg".toList ∧ f.alg = none then (algOf value).map fun a => { f with alg := some a }
  else if name = "ivo".toList ∧ f.ivo = none then (ivoOf value).map fun b => { f with ivo := some b }
  else none

/-- The fields of a mnemonic line, in any order. -/
def fieldsOf : AsmFields → List Token → Option AsmFields
  | f, [] => some f
  | f, name :: ['='] :: value :: rest =>
    match setField f name value with
    | some f' => fieldsOf f' rest
    | none => none
  | _, _ => none

/-- No field written. -/
def AsmFields.blank : AsmFields := { ctx := none, mode := none, alg := none, ivo := none }

/-! ### Lines -/

/-- WB addr, hexbytes (R81). A line with no hex digit behind the comma is a line with no byte write, where R81 is
silent. DESIGN CHOICE, safe: log 16. -/
def parseWb : List Token → Option Line
  | a :: [','] :: hex =>
    match numberOf a, hexBytes hex.flatten with
    | some a, some bytes => some (.wb a bytes)
    | _, _ => none
  | _ => none

/-- RB addr, len. -/
def parseRb : List Token → Option Line
  | [a, [','], n] =>
    match numberOf a, numberOf n with
    | some a, some n => some (.rb a n)
    | _, _ => none
  | _ => none

/-- WR REGNAME, value. -/
def parseWr : List Token → Option Line
  | [r, [','], v] =>
    match regOf r, wordOf v with
    | some r, some v => some (.wr r v)
    | _, _ => none
  | _ => none

/-- SRCk a, n (R82). -/
def parseSrc (line : Word → Word → Line) : List Token → Option Line
  | [a, [','], n] =>
    match wordOf a, wordOf n with
    | some a, some n => some (line a n)
    | _, _ => none
  | _ => none

/-- A line with one argument: RR REGNAME, DST a, RCHAIN c, RTAG c. -/
def parseOne {α : Type} (read : Token → Option α) (line : α → Line) : List Token → Option Line
  | [t] => (read t).map line
  | _ => none

/-- CBC_UPDATE_IV ctx=c (R82): no field but CTX. -/
def parseUpdateIv (args : List Token) : Option Line :=
  match fieldsOf .blank args with
  | some f => if f.mode = none ∧ f.alg = none ∧ f.ivo = none then some (.cbcUpdateIv (f.ctx.getD .enc)) else none
  | none => none

/-- A mnemonic line. -/
def parseMnemonic (name : Token) (args : List Token) : Option Line :=
  match opcodeOf name, fieldsOf .blank args with
  | some op, some f => some (.command op f)
  | _, _ => none

/-- The line that starts with this token (R81, R82). RCHAIN and RTAG read c as `ctx=` does, by dirOf. DESIGN CHOICE,
safe: log 16. -/
def parseTokens (name : Token) (args : List Token) : Option Line :=
  if name = "wb".toList then parseWb args
  else if name = "rb".toList then parseRb args
  else if name = "wr".toList then parseWr args
  else if name = "rr".toList then parseOne regOf .rr args
  else if name = "src0".toList then parseSrc .src0 args
  else if name = "src1".toList then parseSrc .src1 args
  else if name = "src2".toList then parseSrc .src2 args
  else if name = "dst".toList then parseOne wordOf .dst args
  else if name = "rchain".toList then parseOne dirOf .rchain args
  else if name = "rtag".toList then parseOne dirOf .rtag args
  else if name = "cbc_update_iv".toList then parseUpdateIv args
  else if name = "halt_check".toList then (if args.isEmpty then some .haltCheck else none)
  else parseMnemonic name args

/-- One line of text: no operation where it holds only blanks and a comment. -/
def parseLine (text : List Char) : Option (List Line) :=
  match tokensFrom [] (stripComment text) with
  | [] => some []
  | name :: args => (parseTokens name args).map fun l => [l]

/-- The lines of a text, `run` being the characters of the line under way, in reverse. -/
def linesFrom : List Char → List Char → List (List Char)
  | run, [] => [run.reverse]
  | run, c :: cs => if c == '\n' then run.reverse :: linesFrom [] cs else linesFrom (c :: run) cs

/-- The lines of a program, none where the assembler refuses one. -/
def parseLines : List (List Char) → Option (List Line)
  | [] => some []
  | text :: rest =>
    match parseLine text, parseLines rest with
    | some ls, some more => some (ls ++ more)
    | _, _ => none

/-- The host operations of a program text (R81 to R83). -/
def assembleText (text : List Char) : Option (List HostOp) :=
  match parseLines (linesFrom [] text) with
  | some ls => assembleProgram ls
  | none => none

end Sys2Proof.Machine
end

