-- ==== Sys2Proof/Tests/Slice0.lean ====
section
/-! SUPPORT. Tests on fixed values, and for each statement with hypotheses a state and operands that meet
them. Expected values are those of spec/95_test_vectors.md (named V-... after its tables) and of
spec/30_encoding.md; none is the model's own answer. -/

namespace Sys2Proof.Tests

open Sys2Proof.Machine

set_option Elab.async false

/-! ### Small states -/

/-- After reset, with these bytes in BUF, these descriptors, and the environment's next draws good. -/
def setup (mem : List (Nat × Bytes)) (d : Descriptors) : State :=
  { State.reset with
    buf := mem.foldl (fun m p => Memory.writeBytes m p.1 p.2) []
    desc := d
    draws := [.ok, .ok] }

/-- One step that runs this command word. -/
def run (w : Nat) (s : State) : Result := step (s.withFetchWord 32 w)

/-- STATUS and RES_LEN of the next state. -/
def report : Result → Option (Word × Word)
  | .next t => some (t.status.word, t.resLen)
  | .fault _ => none
  | .refused _ => none

/-- n bytes of BUF from `a` on, in the next state. -/
def bytesAt (a n : Nat) : Result → Option Bytes
  | .next t => (t.buf.readBytes a n).toOption
  | .fault _ => none
  | .refused _ => none

/-- A register of the next state, by offset. -/
def regAt (o : Nat) : Result → Option Word
  | .next t => some (readOffset o t)
  | .fault _ => none
  | .refused _ => none

/-- Whether the step faults with this fault. -/
def faultsWith (f : Fault) : Result → Bool
  | .next _ => false
  | .fault e => e == f
  | .refused _ => false

/-- Whether the step is refused with this refusal. -/
def refusedWith (f : Refusal) : Result → Bool
  | .next _ => false
  | .fault _ => false
  | .refused e => e == f

/-- Whether decoding a word is rejected for this reason. -/
def rejects (r : Reject) (w : Word) : Bool :=
  match decode w with
  | .ok _ => false
  | .error e => e == r

/-- KC, the key of SP 800-38A. -/
def kc : Bytes := beBytes 16 0x2b7e151628aed2a6abf7158809cf4f3c

/-- The IV 000102..0f. -/
def iv0 : Bytes := beBytes 16 0x000102030405060708090a0b0c0d0e0f

/-- H1 = E(0^16, 0^16). -/
def h1 : Block := 0x66e94bd4ef8a2c3b884cfa59ca342b2e

/-- H3 = E(K3, 0^16). -/
def h3 : Block := 0xb83b533708bf535d0aa6e52980d53b78

/-- The CBC context of V-CTX-1. -/
def cbcCtx : Context := newContext .cbc .aes128 kc 0x000102030405060708090a0b0c0d0e0f 0

/-- A GCM context; its key and H do not matter to the tests that use it. -/
def gcmCtx : Context := newContext .gcm .aes128 kc 0 h3

/-- The setup of 95_test_vectors.md section 5.2: key at 0, IV at 0x10. -/
def ctxSetup : State := setup [(0, kc), (0x10, iv0)] ⟨0, 16, 0, 0, 0x10, 16, 0⟩

/-- An engine whose key setup rejects KC. -/
def rejecting : State := { ctxSetup with config := { Configuration.default with rejectedKeys := [(.aes128, kc)] } }

/-- An engine with PRIM_CAN_FAIL false, where the environment's next draw is a failure. -/
def neverFailing : State :=
  { ctxSetup with draws := [.fail], config := { Configuration.default with primCanFail := false } }

/-! ### Ill-formed terms are refused -/

theorem test_illformed_misaligned_offset : (HostOp.readReg 0x002).wellFormed .default = false := by decide

theorem test_illformed_offset_past_window : (HostOp.writeReg 0x1000 0).wellFormed .default = false := by decide

theorem test_illformed_buf_read_address : (HostOp.readBuf 65536).wellFormed .default = false := by decide

theorem test_illformed_buf_write_address : (HostOp.writeBuf 65536 0).wellFormed .default = false := by decide

theorem test_illformed_second_agent : HostOp.secondAgent.wellFormed .default = false := by decide

theorem test_illformed_opcode : wordWellFormed 0x00000013 = false := by decide

theorem test_illformed_reserved_bit : wordWellFormed 0x80000000 = false := by decide

theorem test_illformed_asm_ctx : AsmFields.wellFormed .gfMul ⟨some .enc, none, none, none⟩ = false := by decide

theorem test_illformed_asm_mode : AsmFields.wellFormed .cbcUpdate ⟨none, some .gcm, none, none⟩ = false := by
  decide

theorem test_illformed_asm_alg : AsmFields.wellFormed .gcmUpdate ⟨none, none, some .null, none⟩ = false := by
  decide

theorem test_illformed_asm_ivo : AsmFields.wellFormed .ctxCreate ⟨none, none, none, some true⟩ = false := by
  decide

theorem test_refused_misaligned : refusedWith (.malformedRegAccess 0x002)
    (step { State.reset with host := [.writeReg 0x002 0] }) = true := by decide

theorem test_refused_past_buf : refusedWith (.bufAddressOutOfRange 65536)
    (step { State.reset with host := [.writeBuf 65536 0] }) = true := by decide

theorem test_refused_second_agent : refusedWith .secondHostAgent
    (step { State.reset with host := [.secondAgent] }) = true := by decide

/-! ### Decoding: words written out bit by bit from the field table of 30_encoding.md (V-ENC) -/

theorem test_decode_nop :
    decode 0b00000000_00000000_00000000_00000000 = .ok .nop := by decide

theorem test_decode_fbOf :
    decode 0b00000000_00000000_00000000_00000001 = .ok .fbOf := by decide

theorem test_decode_fbXor :
    decode 0b00000000_00000000_00000000_00000010 = .ok .fbXor := by decide

theorem test_decode_gfMul :
    decode 0b00000000_00000000_00000000_00000011 = .ok .gfMul := by decide

theorem test_decode_ghash :
    decode 0b00000000_00000000_00000000_00000100 = .ok .ghash := by decide

theorem test_decode_ctxCreate :
    decode 0b00000000_00000000_00000101_00010000 = .ok (.ctxCreate .dec .cbc .aes128) ∧
      decode 0b00000000_00000000_00001010_00010000 = .ok (.ctxCreate .enc .gcm .aes256) := by decide

theorem test_decode_ctxDestroy :
    decode 0b00000000_00000000_00000001_00010001 = .ok (.ctxDestroy .dec) := by decide

theorem test_decode_cbcReseed :
    decode 0b00000000_00000000_00000000_00010010 = .ok (.cbcReseed .enc) := by decide

theorem test_decode_cbcUpdate :
    decode 0b00000000_00000000_00010000_00100000 = .ok (.cbcUpdate .enc true) ∧
      decode 0b00000000_00000000_00000001_00100000 = .ok (.cbcUpdate .dec false) := by decide

theorem test_decode_gcmUpdate :
    decode 0b00000000_00000000_00000001_00100001 = .ok (.gcmUpdate .dec) := by decide

theorem test_decode_reserved_opc : rejects .opcReserved 0x000000FF = true ∧ rejects .opcReserved 0x00000013 = true := by
  decide

theorem test_decode_reserved_bits :
    rejects .bitsReserved 0x00000100 = true ∧ rejects .bitsReserved 0x00000101 = true ∧
      rejects .bitsReserved 0x00000211 = true ∧ rejects .bitsReserved 0x00002020 = true ∧
      rejects .bitsReserved 0x00000220 = true := by decide

theorem test_decodeTableWord : decodeTableWord 32 0x00000B10 = some (.ctxCreate .dec .gcm .aes256) := by decide

theorem test_assemble_ctxCreate :
    assemble .ctxCreate ⟨some .dec, some .gcm, some .aes256, none⟩ = some 0x00000B10 := by decide

theorem test_expand_cbcUpdateIv : (Line.cbcUpdateIv .enc).expand = some [.writeReg 0x000 0x00001020] := by decide

/-- The words of Programs 1, 2 and 5, from their text. -/
theorem test_text_commands :
    assembleText "CTX_CREATE ctx=dec mode=gcm alg=aes128   ; CMD 0x00000710".toList =
        some [.writeReg 0x000 0x00000710] ∧
      assembleText "gcm_update CTX=enc".toList = some [.writeReg 0x000 0x00000021] ∧
      assembleText "CBC_UPDATE_IV ctx=enc".toList = some [.writeReg 0x000 0x00001020] := by decide +kernel

/-- SRC0, WB, WR, RTAG and a comment alone, line by line (R81 to R83). -/
theorem test_text_program :
    assembleText "; setup\nSRC0 0x0100, 60\nWB 0x10, cafe be\nWR CTX1_TAG3, 0xFFFFFFFF\nRR S2_LEN".toList =
      some [.writeReg 0x008 0x100, .writeReg 0x00C 60, .writeBuf 0x10 0xca, .writeBuf 0x11 0xfe,
        .writeBuf 0x12 0xbe, .writeReg 0x16C 0xFFFFFFFF, .readReg 0x01C] := by decide +kernel

/-- Ill-formed lines: an unused field, a field twice, half a byte, a value past 32 bits, an unknown name. -/
theorem test_text_refused :
    assembleText "FB_OF ctx=0".toList = none ∧ assembleText "CTX_DESTROY ctx=0 ctx=1".toList = none ∧
      assembleText "WB 0, abc".toList = none ∧ assembleText "DST 0x100000000".toList = none ∧
      assembleText "ADD 1".toList = none := by decide +kernel

/-! ### Functions against the derived and published vectors -/

/-- V-GF-3. -/
theorem test_gfMul_reduction :
    gfMul 0x40000000000000000000000000000000 1 = 0xe1000000000000000000000000000000 := by decide +kernel

/-- V-GF-5. -/
theorem test_gfMul_double_reduction : gfMul 1 1 = 0xe6080000000000000000000000000003 := by decide +kernel

/-- V-GF-8, operands in both orders. -/
theorem test_gfMul_tc2 :
    gfMul 0x0388dace60b6a392f328c2b971b2fe78 h1 = 0x5e2ec746917062882c85b0685353deb7 ∧
      gfMul h1 0x0388dace60b6a392f328c2b971b2fe78 = 0x5e2ec746917062882c85b0685353deb7 := by decide +kernel

/-- V-GF-7, on pairs. -/
theorem test_pair_mul :
    (GF128.mul (.ofValue (BitVec.allOnes 128)) (.ofValue (BitVec.allOnes 128))).value =
      0xf402aaaaaaaaaaaaaaaaaaaaaaaaaaaa := by decide +kernel

/-- V-GH-4: 17 bytes, the last chunk zero-padded. -/
theorem test_ghash_partial :
    ghashUpdate 0 h1 (beBytes 17 0x000102030405060708090a0b0c0d0e0f10) =
      0x36db2e2a8ae937a3c33a938828ed89f2 := by decide +kernel

/-- V-GH-6: a nonzero accumulator. -/
theorem test_ghash_accumulator :
    ghashUpdate 0x00112233445566778899aabbccddeeff h1 (beBytes 16 0x0388dace60b6a392f328c2b971b2fe78) =
      0xb76c87e7ce8821d2ba134e156b4a6b7a := by decide +kernel

/-- V-FB-1 and V-FB-4. -/
theorem test_fixedBlock :
    fixedBlock [1, 2, 3, 4, 5] = [1, 2, 3, 4, 5, 0, 0, 0, 0, 0, 0, 0, 0, 0, 0, 0] ∧
      fixedBlock (iv0 ++ [0x10, 0x11, 0x12, 0x13]) = iv0 := by decide +kernel

/-- The precondition of R191. -/
theorem test_xorInPlace :
    xorInPlace [0xf0, 0xf0, 0xf1] [0x0f, 0x0f, 0x0f] = some [0xff, 0xff, 0xfe] ∧
      xorInPlace [1, 2] [3] = none := by decide

/-- V-INC-2 and V-INC-4. -/
theorem test_inc32_wraps :
    inc32 0x0123456789abcdef01234567ffffffff = 0x0123456789abcdef0123456700000000 ∧
      inc32 0xffffffffffffffffffffffffffffffff = 0xffffffffffffffffffffffff00000000 := by decide

/-- V-J0-1 and V-J0-3. -/
theorem test_deriveJ0 :
    deriveJ0 h3 (beBytes 12 0xcafebabefacedbaddecaf888) = 0xcafebabefacedbaddecaf88800000001 ∧
      deriveJ0 h3 (beBytes 8 0xcafebabefacedbad) = 0xc43a83c4c4badec4354ca984db252f7d := by decide +kernel

/-- V-J0-4: an IV of one whole block. -/
theorem test_deriveJ0_block : deriveJ0 h3 iv0 = 0x80f114495fbd4d6e07a82b220aa74827 := by decide +kernel

/-- E(K3, .) at the counter blocks of 95_test_vectors.md section 6 and V-GCM-4. -/
def e3 (b : Block) : Block :=
  if b = 0xcafebabefacedbaddecaf88800000001 then 0x3247184b3c4f69a44dbcd22887bbb418
  else if b = 0xcafebabefacedbaddecaf88800000002 then 0x9bb22ce7d9f372c1ee2b28722b25f206
  else if b = 0xcafebabefacedbaddecaf88800000003 then 0x650d887c3936533a1b8d4e1ea39d2b5c
  else 0

/-- The keystream truncation regression test (V-GCM-1): 17 bytes. -/
theorem test_gcm_partial_block :
    gcmCrypt e3 h3 .enc (beBytes 12 0xcafebabefacedbaddecaf888) []
        (beBytes 17 0x000102030405060708090a0b0c0d0e0f10) =
      ⟨beBytes 17 0x9bb32ee4ddf674c6e62222792728fc0975, 0xcafebabefacedbaddecaf88800000003,
        0x0dc13f020a141210b5628f539a8f3338⟩ := by decide +kernel

/-- V-GCM-3: associated data only. -/
theorem test_gcm_aad_only :
    gcmCrypt e3 h3 .enc (beBytes 12 0xcafebabefacedbaddecaf888)
        (beBytes 20 0xfeedfacedeadbeeffeedfacedeadbeefabaddad2) [] =
      ⟨[], 0xcafebabefacedbaddecaf88800000001, 0x346434fd51d5cd0c5887ec63e39b907a⟩ := by decide +kernel

/-- E(0^16, .) at the counter blocks of test cases 1 and 2. -/
def e1 (b : Block) : Block :=
  if b = 1 then 0x58e2fccefa7e3061367f1d57a4e7455a
  else if b = 2 then 0x0388dace60b6a392f328c2b971b2fe78
  else 0

/-- V-GCM-8: opening test case 2 folds the input. -/
theorem test_gcm_open :
    gcmCrypt e1 h1 .dec (zeros 12) [] (beBytes 16 0x0388dace60b6a392f328c2b971b2fe78) =
      ⟨zeros 16, 2, 0xab6e47d42cec13bdf53a67b21257bddf⟩ := by decide +kernel

/-- The first two blocks of F.2.1: E(KC, .) at P1 XOR IV and at P2 XOR C1. -/
def ekc (b : Block) : Block :=
  if b = 0x6bc0bce12a459991e134741a7f9e1925 then 0x7649abac8119b246cee98e9b12e9197d
  else if b = 0xd86421fb9f1a1eda505ee1375746972c then 0x5086cb9b507219ee95db113a917678b2
  else 0

/-- F.2.1, blocks 1 and 2. -/
theorem test_cbc_encrypt :
    cbcEncrypt ekc 0x000102030405060708090a0b0c0d0e0f
        [0x6bc1bee22e409f96e93d7e117393172a, 0xae2d8a571e03ac9c9eb76fac45af8e51] =
      ([0x7649abac8119b246cee98e9b12e9197d, 0x5086cb9b507219ee95db113a917678b2],
        0x5086cb9b507219ee95db113a917678b2) := by decide

/-- F.2.2, blocks 1 and 2, from Einv(KC, .) of 95_test_vectors.md section 2.1. -/
theorem test_cbc_decrypt :
    cbcDecrypt
        (fun b => if b = 0x7649abac8119b246cee98e9b12e9197d then 0x6bc0bce12a459991e134741a7f9e1925
          else 0xd86421fb9f1a1eda505ee1375746972c)
        0x000102030405060708090a0b0c0d0e0f
        [0x7649abac8119b246cee98e9b12e9197d, 0x5086cb9b507219ee95db113a917678b2] =
      ([0x6bc1bee22e409f96e93d7e117393172a, 0xae2d8a571e03ac9c9eb76fac45af8e51],
        0x5086cb9b507219ee95db113a917678b2) := by decide

/-! ### Single steps -/

/-- V-ENC-1. -/
theorem test_step_nop : report (run 0x00000000 State.reset) = some (0, 0) := by decide

/-- V-ENC-2 and V-ENC-4. -/
theorem test_step_illegal :
    report (run 0x000000FF State.reset) = some (0x0001FF05, 0) ∧
      report (run 0x00000100 State.reset) = some (0x00020005, 0) := by decide

/-- V-FB-7: D overlaps S0. -/
theorem test_step_fbOf :
    bytesAt 0x42 16 (run 0x00000001
      (setup [(0x40, iv0 ++ [0x10, 0x11, 0x12, 0x13])] ⟨0x40, 20, 0, 0, 0, 0, 0x42⟩)) = some iv0 := by
  decide +kernel

/-- V-FB-8 and V-FB-9. -/
theorem test_step_fbOf_range :
    report (run 0x00000001 (setup [] ⟨0xFFF8, 16, 0, 0, 0, 0, 0⟩)) = some (0x80050103, 0) ∧
      report (run 0x00000001 (setup [] ⟨0, 0, 0, 0, 0, 0, 0xFFF1⟩)) = some (0x80050103, 0) := by decide

/-- V-FB-11: three bytes written, the fourth untouched. -/
theorem test_step_fbXor :
    bytesAt 0x80 4 (run 0x00000002
      (setup [(0x60, [0xf0, 0xf0, 0xf1]), (0x40, [0x0f, 0x0f, 0x0f]), (0x83, [0x55])]
        ⟨0x40, 3, 0x60, 3, 0, 0, 0x80⟩)) = some [0xff, 0xff, 0xfe, 0x55] := by decide +kernel

/-- V-FB-14 and V-FB-15. -/
theorem test_step_fbXor_lengths :
    report (run 0x00000002 (setup [] ⟨0, 16, 0, 15, 0, 0, 0⟩)) = some (0x80020203, 0) ∧
      report (run 0x00000002 (setup [] ⟨0, 17, 0, 17, 0, 0, 0⟩)) = some (0x80030203, 0) := by decide

/-- V-GFC-1. -/
theorem test_step_gfMul :
    bytesAt 0x40 16 (run 0x00000003
      (setup [(0x40, beBytes 16 0x40000000000000000000000000000000), (0x50, beBytes 16 1)]
        ⟨0x40, 16, 0x50, 16, 0, 0, 0x40⟩)) =
      some (beBytes 16 0xe1000000000000000000000000000000) := by decide +kernel

/-- V-GFC-3. -/
theorem test_step_gfMul_length :
    report (run 0x00000003 (setup [] ⟨0x40, 15, 0x50, 16, 0, 0, 0x60⟩)) = some (0x80040303, 0) := by decide

/-- V-GHC-1. -/
theorem test_step_ghash :
    bytesAt 0x50 16 (run 0x00000004
      (setup [(0x60, beBytes 16 0x0388dace60b6a392f328c2b971b2fe78), (0x40, bytesOfBlock h1), (0x50, zeros 16)]
        ⟨0x60, 16, 0x40, 16, 0x50, 16, 0x50⟩)) =
      some (beBytes 16 0x5e2ec746917062882c85b0685353deb7) := by decide +kernel

/-- V-GHC-6. -/
theorem test_step_ghash_length :
    report (run 0x00000004 (setup [] ⟨0, 16, 0, 16, 0, 12, 0⟩)) = some (0x80040403, 0) := by decide

/-- V-CTX-1: CFG and the first word of CHAIN. -/
theorem test_step_ctxCreate :
    report (run 0x00000410 ctxSetup) = some (0x00001000, 0) ∧
      regAt 0x100 (run 0x00000410 ctxSetup) = some 0x09 ∧
      regAt 0x110 (run 0x00000410 ctxSetup) = some 0x00010203 := by decide +kernel

/-- V-CTX-4, V-CTX-5 and V-CTX-6. -/
theorem test_step_ctxCreate_errors :
    report (run 0x00000C10 ctxSetup) = some (0x00021001, 0) ∧
      report (run 0x00000810 ctxSetup) = some (0x00031001, 0) ∧
      report (run 0x00000010 { ctxSetup with desc := ⟨0, 16, 0, 0, 0x10, 15, 0⟩ }) = some (0x80041003, 0) := by
  decide +kernel

/-- V-CTX-10 and V-CTX-11. -/
theorem test_step_ctxDestroy :
    report (run 0x00000111 { State.reset with ctx1 := cbcCtx }) = some (0x00001100, 0) ∧
      regAt 0x140 (run 0x00000111 { State.reset with ctx1 := cbcCtx }) = some 0 ∧
      report (run 0x00000111 State.reset) = some (0x00001100, 0) := by decide +kernel

/-- V-CBC-1. -/
theorem test_step_cbcReseed :
    regAt 0x11C (run 0x00000012
      { setup [(0x30, zeros 16)] ⟨0, 0, 0, 0, 0x30, 16, 0⟩ with ctx0 := cbcCtx }) = some 0 := by decide +kernel

/-- V-CBC-11 and V-CBC-12. -/
theorem test_step_cbcReseed_context :
    report (run 0x00000012 { ctxSetup with ctx0 := gcmCtx }) = some (0x00001207, 0) ∧
      report (run 0x00000112 ctxSetup) = some (0x00001206, 0) := by decide +kernel

/-- V-CBC-5: an empty input with the override. -/
theorem test_step_cbcUpdate_empty :
    regAt 0x11C (run 0x00001020
      { setup [(0x30, List.replicate 16 0x11)] ⟨0x100, 0, 0, 0, 0x30, 16, 0⟩ with
        ctx0 := cbcCtx, draws := [.fail] }) = some 0x11111111 := by decide +kernel

/-- V-CBC-9, V-CBC-7 and Program 5's first CBC_UPDATE. -/
theorem test_step_cbcUpdate_errors :
    report (run 0x00000020 { setup [] ⟨0x100, 15, 0, 0, 0, 0, 0x200⟩ with ctx0 := cbcCtx }) =
        some (0x80012003, 0) ∧
      report (run 0x00000120 (setup [] ⟨0x100, 15, 0, 0, 0, 0, 0⟩)) = some (0x00002006, 0) ∧
      report (run 0x00000020 { setup [(0x100, iv0)] ⟨0x100, 16, 0, 0, 0, 0, 0x200⟩ with
        ctx0 := cbcCtx, draws := [.fail] }) = some (0x00012002, 0) := by decide +kernel

/-- V-GCM-4: STATUS, RES_LEN and CTX0_CFG. -/
theorem test_step_gcmUpdate :
    report (run 0x00000021 { setup [(0x10, beBytes 12 0xcafebabefacedbaddecaf888)] ⟨0, 0, 0, 0, 0x10, 12, 0⟩ with
        ctx0 := gcmCtx }) = some (0x00002100, 0) ∧
      regAt 0x100 (run 0x00000021
        { setup [(0x10, beBytes 12 0xcafebabefacedbaddecaf888)] ⟨0, 0, 0, 0, 0x10, 12, 0⟩ with
          ctx0 := gcmCtx }) = some 0x2B := by decide +kernel

/-- V-GCM-11 and V-GCM-12. -/
theorem test_step_gcmUpdate_errors :
    report (run 0x00000021 { State.reset with ctx0 := cbcCtx }) = some (0x00002107, 0) ∧
      report (run 0x00000021 { setup [] ⟨0, 0, 0x10000, 1, 0, 0, 0⟩ with ctx0 := gcmCtx }) =
        some (0x80052103, 0) := by decide +kernel

/-- STATUS 0x80012003, the halted engine of section 5.7. -/
def halted : State := { State.reset with status := errorStatus 0x20 .cbcLen }

/-- V-HLT-1, V-HLT-2 and V-HLT-3. -/
theorem test_step_halted :
    report (run 0x00000000 halted) = some (0x80012003, 0) ∧
      report (run 0x000000FF halted) = some (0x80012003, 0) ∧
      report (step { halted with host := [.reset] }) = some (0, 0) := by decide

/-- R65: an operand byte nothing has written. -/
theorem test_step_unwritten :
    faultsWith (.uninitBuf 0x41) (run 0x00000001 (setup [(0x40, [7])] ⟨0x40, 2, 0, 0, 0, 0, 0⟩)) = true := by
  decide +kernel

/-- Equal memories are equal data, whatever the order of the writes. -/
theorem test_memory_canonical :
    Memory.write (Memory.write [] 5 1) 2 9 = Memory.write (Memory.write [] 2 9) 5 1 ∧
      Memory.wf (Memory.write (Memory.write [] 5 1) 2 9) = true := by decide

/-- R30, at the default and with BUF_BYTES = 2^8 and 2^24. -/
theorem test_params :
    readOffset 0x028 State.reset = 0x00021010 ∧
      readOffset 0x028 { State.reset with config := ⟨0, [], true⟩ } = 0x00020810 ∧
      readOffset 0x028 { State.reset with config := ⟨16, [], true⟩ } = 0x00021810 := by decide

/-- R6, R56: with BUF_BYTES = 256 the last 16-byte destination is at 240. -/
theorem test_step_small_buf :
    report (run 0x00000001 { setup [] ⟨0, 0, 0, 0, 0, 0, 240⟩ with config := ⟨0, [], true⟩ }) = some (0x00000100, 16) ∧
      report (run 0x00000001 { setup [] ⟨0, 0, 0, 0, 0, 0, 241⟩ with config := ⟨0, [], true⟩ }) =
        some (0x80050103, 0) ∧
      refusedWith (.bufAddressOutOfRange 256)
        (step { State.reset with host := [.writeBuf 256 0], config := ⟨0, [], true⟩ }) = true := by decide +kernel

/-- R27, R102: a key of the right length that key setup rejects. -/
theorem test_step_rejected_key :
    report (run 0x00000410 rejecting) = some (0x00031001, 0) ∧
      report (run 0x00000610 rejecting) = some (0x00031001, 0) := by decide +kernel

/-- R101: with PRIM_CAN_FAIL false the environment's `fail` is no failure. -/
theorem test_step_neverFailing : report (run 0x00000610 neverFailing) = some (0x00001000, 0) := by decide +kernel

/-! ### The end of a run and the tag of a call -/

/-- R242: the run ends after the last CMD write, before the host's later accesses and its reset. -/
theorem test_endState :
    endState { State.reset with host := [.writeBuf 2 7, .writeReg 0x000 0xFF, .writeBuf 5 1, .reset] } =
      .next { State.reset with
        host := [.writeBuf 5 1, .reset], buf := [(2, 7)], cmd := 0xFF,
        status := errorStatus 0xFF (.illegal .opcReserved) } := by rfl

/-- R242: a halted engine ends the run, whatever is pending; V-HLT-1's STATUS is in the view of the end state. -/
theorem test_runEnded_halted :
    runEnded { halted with host := [.writeReg 0x000 0, .writeReg 0x000 0xFF] } = true ∧
      runEnded { State.reset with host := [.readReg 0x004, .writeReg 0x000 0] } = false ∧
      (endView halted).status = 0x80012003 := by decide

/-- R237: STATUS 0x00002100 of a GCM_UPDATE on ctx0 says nothing of the older tag of ctx1. -/
theorem test_tagCurrent :
    let s : State := { State.reset with
      cmd := 0x00000021, status := okStatus 0x21, ctx0 := { gcmCtx with tagValid := true },
      ctx1 := { gcmCtx with tagValid := true } }
    tagCurrent .enc s = true ∧ tagCurrent .dec s = false := by decide

/-! ### The hypotheses of the statements can be met -/

theorem witness_DecodeOfEncodeIsTheCommand : (Instr.cbcUpdate .dec true).wellFormed = true := by decide

theorem witness_EncodeOfDecodeIsTheWord : decode 0x00000F10 = .ok (.ctxCreate .dec .gcm .reserved) := by decide

theorem witness_WordSelectsItsTableRow :
    (0x00001120 : Word) &&& Opcode.cbcUpdate.maskWord = Opcode.cbcUpdate.matchWord := by decide

/-- A word for each of the three clauses. -/
theorem witness_DecodeIsTotalAndNamesItsRejections :
    (∀ op ∈ Opcode.all, op.code ≠ (0x00000013 : Word).extractLsb' 0 8) ∧
      (Opcode.fbOf.code = (0x00000101 : Word).extractLsb' 0 8 ∧
        (0x00000101 : Word) &&& ~~~(0x000000FF ||| Opcode.fbOf.varMask) ≠ 0) ∧
      (Opcode.ctxCreate.code = (0x00000F10 : Word).extractLsb' 0 8 ∧
        (0x00000F10 : Word) &&& ~~~(0x000000FF ||| Opcode.ctxCreate.varMask) = 0) := by decide

/-- A line for each clause. -/
theorem witness_AssembledLinesAreCommands :
    assemble .cbcUpdate ⟨some .dec, none, none, some true⟩ = some 0x00001120 ∧
      (Opcode.fbOf ≠ .ctxCreate ∧ (AsmFields.mode ⟨none, some .cbc, none, none⟩ ≠ none)) ∧
      (Opcode.gcmUpdate ≠ .cbcUpdate ∧ (AsmFields.ivo ⟨none, none, none, some false⟩ ≠ none)) ∧
      (Opcode.ghash ∈ [Opcode.nop, .fbOf, .fbXor, .gfMul, .ghash] ∧
        AsmFields.ctx ⟨some .enc, none, none, none⟩ ≠ none) := by decide

/-- A state whose next host operation writes this word to CMD. -/
def cmdState (w : Word) : State := { State.reset with host := [.writeReg 0x000 w, .reset] }

theorem witness_StepRunsTheDecodedCommand :
    (cmdState 0x00000111).host = .writeReg 0x000 0x00000111 :: [.reset] ∧
      (cmdState 0x00000111).status.halted = false ∧ decode 0x00000111 = .ok (.ctxDestroy .dec) := by decide

theorem witness_IllegalWordIsReported :
    (cmdState 0x80000000).host = .writeReg 0x000 0x80000000 :: [.reset] ∧
      (cmdState 0x80000000).status.halted = false ∧ decode 0x80000000 = .error .bitsReserved := by decide

/-- Each clause, at the last BUF address and the last descriptor; and a command that ends so. -/
theorem witness_HaltedEngineIgnoresCommands :
    (∃ t, exec .gfMul (setup [] ⟨0, 15, 0, 16, 0, 0, 0⟩) = .next t ∧ t.status.code = .preconditionViolation) ∧
    ∀ op ∈ [HostOp.writeReg 0x000 0, .writeReg 0x020 7, .writeBuf 65535 1, .readBuf 65535, .readReg 0xFFC],
      ({ halted with host := [op], buf := [(65535, 3)] } : State).status.halted = true ∧
        ({ halted with host := [op], buf := [(65535, 3)] } : State).host = op :: [] ∧
        65535 < State.reset.config.bufBytes ∧
        Memory.read ({ halted with host := [op], buf := [(65535, 3)] } : State).buf 65535 = some 3 ∧
        ({ halted with host := [op], buf := [(65535, 3)] } : State).host.head? ≠ some .reset :=
  ⟨⟨_, rfl, by decide⟩, by decide⟩

theorem witness_OnlyResetLeavesHalted :
    (∃ t, step { halted with host := [.writeReg 0x000 0] } = .next t ∧ halted.status.halted = true ∧
        ({ halted with host := [.writeReg 0x000 0] } : State).host.head? ≠ some .reset) ∧
      ({ halted with host := [.reset] } : State).host.head? = some .reset := ⟨⟨_, rfl, by decide⟩, by decide⟩

/-- A GF_MUL whose S0 is 15 bytes long halts a running engine. -/
theorem witness_OnlyPreconditionViolationHalts :
    ∃ t, step { State.reset with host := [.writeReg 0x000 3], desc := ⟨0, 15, 0, 16, 0, 0, 0⟩ } = .next t ∧
      State.reset.status.halted = false ∧ t.status.halted = true := ⟨_, rfl, by decide⟩

theorem witness_DescriptorsReadBackAsWritten :
    ∀ o ∈ [0x008, 0x00C, 0x010, 0x014, 0x018, 0x01C, 0x020],
      ({ State.reset with host := [.writeReg o 0xFFFFFFFF] } : State).host = .writeReg o 0xFFFFFFFF :: [] := by
  decide

/-- A read-only register at each end of the window, an unmapped offset, and an offset of each unmapped range. -/
theorem witness_ReadOnlyAndUnmappedOffsetsIgnoreWrites :
    (∀ o ∈ [0x004, 0x02C, 0x17C, 0xFFC], o % 4 = 0 ∧ o ≤ 0xFFC ∧ o ≠ 0x000 ∧
        o ∉ [0x008, 0x00C, 0x010, 0x014, 0x018, 0x01C, 0x020] ∧
        ({ State.reset with host := [.writeReg o 1] } : State).host = .writeReg o 1 :: []) ∧
      (∀ o ∈ [0x02C, 0x0FC, 0x104, 0x10C, 0x130, 0x13C, 0x144, 0x14C, 0x170, 0x17C, 0x180],
        (0x02C ≤ o ∧ o ≤ 0x0FC) ∨ (0x104 ≤ o ∧ o ≤ 0x10C) ∨ (0x130 ≤ o ∧ o ≤ 0x13C) ∨
          (0x144 ≤ o ∧ o ≤ 0x14C) ∨ (0x170 ≤ o ∧ o ≤ 0x17C) ∨ 0x180 ≤ o) := by decide

/-- Each kind of access, at its first and last place. -/
theorem witness_HostAccessesTakeEffect :
    (∀ o ∈ [0x000, 0xFFC], o % 4 = 0 ∧ o ≤ 0xFFC ∧
        ({ State.reset with host := [.readReg o] } : State).host = .readReg o :: []) ∧
      (∀ a ∈ [0, 65535], a < State.reset.config.bufBytes ∧ Memory.read [(0, 1), (65535, 2)] a ≠ none ∧
        ({ State.reset with host := [.readBuf a] } : State).host = .readBuf a :: [] ∧
        ({ State.reset with host := [.writeBuf a 9] } : State).host = .writeBuf a 9 :: []) ∧
      ({ halted with host := [.haltCheck, .reset] } : State).host = .haltCheck :: [.reset] ∧
      State.reset.host = [] := by decide

/-- An ill-formed access of each kind, and an unwritten byte. -/
theorem witness_MalformedAccessesStop :
    (∀ o ∈ [0x001, 0x1000], (o % 4 ≠ 0 ∨ 0xFFC < o) ∧
        ({ State.reset with host := [.readReg o] } : State).host = .readReg o :: [] ∧
        ({ State.reset with host := [.writeReg o 1] } : State).host = .writeReg o 1 :: []) ∧
      State.reset.config.bufBytes ≤ 65536 ∧
      (65535 < State.reset.config.bufBytes ∧ State.reset.buf.read 65535 = none ∧
        ({ State.reset with host := [.readBuf 65535] } : State).host = .readBuf 65535 :: []) ∧
      ({ State.reset with host := [.secondAgent] } : State).host = .secondAgent :: [] := by decide

theorem witness_ResetGivesTheResetValues :
    ∃ (s : State) (rest : List HostOp), s.host = .reset :: rest ∧ ∃ t, step s = .next t ∧ s ≠ t :=
  ⟨{ halted with host := [.reset] }, [], rfl, _, rfl, by decide⟩

theorem witness_ResetCompletes : ({ halted with host := [.reset] } : State).host = .reset :: [] := by decide

theorem witness_ContextViewsAreBigEndian :
    ({ State.reset with host := [.writeReg (0x120 + 0x40 * Dir.dec.bits.toNat + 4 * (3 : Fin 4).val) 1] } :
      State).host = .writeReg 0x16C 1 :: [] := by decide

theorem witness_CfgWordLayout :
    (State.reset.ctx .dec).valid = false ∧
      (({ State.reset with ctx0 := cbcCtx } : State).ctx .enc).valid = true ∧
      ({ State.reset with host := [.writeReg (0x100 + 0x40 * Dir.dec.bits.toNat) 1] } : State).host =
        .writeReg 0x140 1 :: [] := by decide

/-- Also with the smallest and the largest BUF_BYTES, and a step. -/
theorem witness_ParamsIsConstant :
    ({ State.reset with host := [.writeReg 0x028 1] } : State).host = .writeReg 0x028 1 :: [] ∧
      (∃ t, step { State.reset with host := [.writeReg 0x028 1] } = .next t) ∧
      (8 ≤ 8 ∧ 24 ≤ 24 ∧ Configuration.bufLog2 ⟨0, [], true⟩ = 8 ∧ Configuration.bufLog2 ⟨16, [], true⟩ = 24) :=
  ⟨rfl, ⟨_, rfl⟩, by decide⟩

theorem witness_RegisterReadsHideSecrets :
    State.sameButSecrets { State.reset with ctx0 := gcmCtx }
      { State.reset with ctx0 := { gcmCtx with key := zeros 16, h := h1 } } := ⟨rfl, rfl, rfl⟩

/-- A source longer than a block, whose last 16 bytes end BUF, and the destination over them. -/
theorem witness_FbOfCompletes :
    let s := setup [(65516, iv0 ++ [1, 2, 3, 4])] ⟨65516, 20, 0, 0, 0, 0, 65520⟩
    s.desc.s0Addr.toNat + s.desc.s0Len.toNat ≤ s.config.bufBytes ∧ s.desc.dAddr.toNat + 16 ≤ s.config.bufBytes ∧
      s.buf.readBytes s.desc.s0Addr.toNat (min s.desc.s0Len.toNat 16) = .ok iv0 := by decide +kernel

/-- Both operands the same 16 bytes at the end of BUF; and no bytes at all, one past it. -/
theorem witness_FbXorCompletes :
    (let s := setup [(65520, iv0)] ⟨65520, 16, 65520, 16, 0, 0, 65520⟩
     s.desc.s0Len.toNat = 16 ∧ s.desc.s1Len.toNat = 16 ∧ s.desc.s0Addr.toNat + 16 ≤ s.config.bufBytes ∧
        s.desc.s1Addr.toNat + 16 ≤ s.config.bufBytes ∧ s.desc.dAddr.toNat + 16 ≤ s.config.bufBytes ∧
        s.buf.readBytes s.desc.s1Addr.toNat 16 = .ok iv0 ∧ s.buf.readBytes s.desc.s0Addr.toNat 16 = .ok iv0) ∧
      (let s := setup [] ⟨65536, 0, 65536, 0, 0, 0, 65536⟩
       s.desc.s0Len.toNat = 0 ∧ s.desc.s1Len.toNat = 0 ∧ s.desc.s0Addr.toNat + 0 ≤ s.config.bufBytes ∧
          s.desc.dAddr.toNat + 0 ≤ s.config.bufBytes ∧ s.buf.readBytes s.desc.s1Addr.toNat 0 = .ok []) := by
  decide +kernel

theorem witness_GfMulCompletes :
    let s := setup [(0, kc), (0x10, iv0)] ⟨0, 16, 0x10, 16, 0, 0, 65520⟩
    s.desc.s0Len = 16 ∧ s.desc.s1Len = 16 ∧ s.desc.s0Addr.toNat + 16 ≤ s.config.bufBytes ∧
      s.desc.s1Addr.toNat + 16 ≤ s.config.bufBytes ∧ s.desc.dAddr.toNat + 16 ≤ s.config.bufBytes ∧
      s.buf.readBytes s.desc.s0Addr.toNat 16 = .ok kc ∧ s.buf.readBytes s.desc.s1Addr.toNat 16 = .ok iv0 := by
  decide +kernel

theorem witness_GhashCompletes :
    let s := setup [(0, kc), (0x10, iv0)] ⟨0, 5, 0x10, 16, 0, 16, 65520⟩
    s.desc.s1Len = 16 ∧ s.desc.s2Len = 16 ∧ s.desc.s0Addr.toNat + s.desc.s0Len.toNat ≤ s.config.bufBytes ∧
      s.desc.s1Addr.toNat + 16 ≤ s.config.bufBytes ∧ s.desc.s2Addr.toNat + 16 ≤ s.config.bufBytes ∧
      s.desc.dAddr.toNat + 16 ≤ s.config.bufBytes ∧
      s.buf.readBytes s.desc.s0Addr.toNat s.desc.s0Len.toNat = .ok (kc.take 5) ∧
      s.buf.readBytes s.desc.s1Addr.toNat 16 = .ok iv0 ∧ s.buf.readBytes s.desc.s2Addr.toNat 16 = .ok kc := by
  decide +kernel

/-- For both algorithms. -/
theorem witness_CtxCreateCbcCompletes :
    (Alg.aes128 = .aes128 ∧ kc.length = 16) ∧ (Alg.aes256 = .aes256 ∧ (kc ++ iv0).length = 32) ∧
      (Alg.aes128, kc) ∉ ctxSetup.config.rejectedKeys ∧
      (Alg.aes256, kc ++ iv0) ∉ ctxSetup.config.rejectedKeys ∧ ctxSetup.desc.s2Len = 16 ∧
      ctxSetup.desc.s0Addr.toNat + ctxSetup.desc.s0Len.toNat ≤ ctxSetup.config.bufBytes ∧
      ctxSetup.desc.s2Addr.toNat + 16 ≤ ctxSetup.config.bufBytes ∧
      ctxSetup.buf.readBytes ctxSetup.desc.s0Addr.toNat ctxSetup.desc.s0Len.toNat = .ok kc ∧
      ctxSetup.buf.readBytes ctxSetup.desc.s2Addr.toNat 16 = .ok iv0 ∧
      ctxSetup.buf.readBytes 0 32 = .ok (kc ++ iv0) := by decide +kernel

theorem witness_CtxCreateGcmCompletes :
    (Alg.aes128 = .aes128 ∧ kc.length = 16) ∧ (Alg.aes128, kc) ∉ ctxSetup.config.rejectedKeys ∧
      ctxSetup.desc.s0Addr.toNat + ctxSetup.desc.s0Len.toNat ≤ ctxSetup.config.bufBytes ∧
      ctxSetup.buf.readBytes ctxSetup.desc.s0Addr.toNat ctxSetup.desc.s0Len.toNat = .ok kc ∧
      ctxSetup.nextDraw = .ok := by decide +kernel

/-- Each of the five failures: NULL, reserved, a wrong key length, a rejected key, and a failed draw. -/
theorem witness_FailedCtxCreateEmptiesTheSlot :
    (∀ m ∈ [Mode.cbc, .gcm], ∀ alg ∈ [Alg.null, .reserved, .aes128, .aes256],
        checkedError (.ctxCreate .dec m alg) ctxSetup = none) ∧
      ctxSetup.buf.readBytes ctxSetup.desc.s0Addr.toNat ctxSetup.desc.s0Len.toNat = .ok kc ∧
      ctxSetup.buf.readBytes ctxSetup.desc.s2Addr.toNat 16 = .ok iv0 ∧ kc.length ≠ 32 ∧ kc.length = 16 ∧
      (Alg.aes128, kc) ∉ ctxSetup.config.rejectedKeys ∧
      checkedError (.ctxCreate .enc .cbc .aes128) rejecting = none ∧
      rejecting.buf.readBytes rejecting.desc.s0Addr.toNat rejecting.desc.s0Len.toNat = .ok kc ∧
      (Alg.aes128, kc) ∈ rejecting.config.rejectedKeys ∧
      ({ ctxSetup with draws := [.fail] } : State).nextDraw = .fail := by decide +kernel

theorem witness_CbcReseedCompletes :
    let s : State := { ctxSetup with ctx1 := cbcCtx }
    (s.ctx .dec).valid = true ∧ (s.ctx .dec).mode = .cbc ∧ s.desc.s2Len = 16 ∧
      s.desc.s2Addr.toNat + 16 ≤ s.config.bufBytes ∧ s.buf.readBytes s.desc.s2Addr.toNat 16 = .ok iv0 := by
  decide +kernel

/-- Two blocks with the override, and an empty input without it. -/
theorem witness_CbcUpdateCompletes :
    (let s : State := { setup [(0, kc ++ iv0)] ⟨0, 32, 0, 0, 0x10, 16, 65504⟩ with ctx0 := cbcCtx }
     (s.ctx .enc).valid = true ∧ (s.ctx .enc).mode = .cbc ∧ s.desc.s0Len.toNat = 32 ∧ 32 % 16 = 0 ∧
        s.desc.s0Addr.toNat + 32 ≤ s.config.bufBytes ∧ s.desc.dAddr.toNat + 32 ≤ s.config.bufBytes ∧
        s.buf.readBytes s.desc.s0Addr.toNat 32 = .ok (kc ++ iv0) ∧ s.desc.s2Len = 16 ∧
        s.desc.s2Addr.toNat + 16 ≤ s.config.bufBytes ∧ s.buf.readBytes s.desc.s2Addr.toNat 16 = .ok iv0 ∧
        s.nextDraw = .ok) ∧
      (let s : State := { setup [] ⟨65536, 0, 0, 0, 0, 0, 65536⟩ with ctx1 := cbcCtx }
       (s.ctx .dec).valid = true ∧ (s.ctx .dec).mode = .cbc ∧ s.desc.s0Len.toNat = 0 ∧
          s.desc.s0Addr.toNat + 0 ≤ s.config.bufBytes ∧ s.desc.dAddr.toNat + 0 ≤ s.config.bufBytes ∧
          s.buf.readBytes s.desc.s0Addr.toNat 0 = .ok []) := by decide +kernel

/-- A 17-byte input, 5 bytes of AAD and a 12-byte IV; the same with nothing at all. -/
theorem witness_GcmUpdateCompletes :
    (let s : State := { setup [(0, kc ++ iv0)] ⟨0, 17, 2, 5, 0x10, 12, 65519⟩ with ctx1 := gcmCtx }
     (s.ctx .dec).valid = true ∧ (s.ctx .dec).mode = .gcm ∧ s.desc.s0Len.toNat = 17 ∧
        s.desc.s0Addr.toNat + 17 ≤ s.config.bufBytes ∧
        s.desc.s1Addr.toNat + s.desc.s1Len.toNat ≤ s.config.bufBytes ∧
        s.desc.s2Addr.toNat + s.desc.s2Len.toNat ≤ s.config.bufBytes ∧ s.desc.dAddr.toNat + 17 ≤ s.config.bufBytes ∧
        s.buf.readBytes s.desc.s0Addr.toNat 17 = .ok ((kc ++ iv0).take 17) ∧
        s.buf.readBytes s.desc.s1Addr.toNat s.desc.s1Len.toNat = .ok ((kc.drop 2).take 5) ∧
        s.buf.readBytes s.desc.s2Addr.toNat s.desc.s2Len.toNat = .ok (iv0.take 12) ∧ s.nextDraw = .ok) ∧
      (let s : State := { setup [] ⟨65536, 0, 65536, 0, 65536, 0, 65536⟩ with ctx0 := gcmCtx }
       (s.ctx .enc).valid = true ∧ (s.ctx .enc).mode = .gcm ∧ s.desc.s0Len.toNat = 0 ∧
          s.desc.s2Addr.toNat + s.desc.s2Len.toNat ≤ s.config.bufBytes ∧
          s.buf.readBytes s.desc.s2Addr.toNat s.desc.s2Len.toNat = .ok [] ∧ s.nextDraw = .ok) := by decide +kernel

/-- Each check failing in turn, and all of them passing. -/
theorem witness_ChecksFollowTheirOrder :
    checkedError (.cbcReseed .dec) ctxSetup = some .noContext ∧
      checkedError (.gcmUpdate .enc) { ctxSetup with ctx0 := cbcCtx } = some .modeMismatch ∧
      checkedError .fbOf (setup [] ⟨0, 0, 0, 0, 0, 0, 0xFFF1⟩) = some .bufRange ∧
      checkedError .gfMul (setup [] ⟨0, 15, 0, 16, 0, 0, 0⟩) = some .fixedLen ∧
      checkedError .fbXor (setup [] ⟨0, 17, 0, 17, 0, 0, 0⟩) = some .xorLenOverBlock ∧
      (checkedError .fbOf (setup [] ⟨0, 0, 0, 0, 0, 0, 65520⟩) = none ∧
        ∃ t, exec .fbOf (setup [] ⟨0, 0, 0, 0, 0, 0, 65520⟩) = .next t) :=
  ⟨by decide, by decide, by decide, by decide, by decide, by decide, _, rfl⟩

/-- CBC_UPDATE with and without the override, and GCM_UPDATE; and a command with PRIM_CAN_FAIL false. -/
theorem witness_PrimitiveFailureChangesNothing :
    let s : State := { setup [(0, kc ++ iv0)] ⟨0, 16, 2, 5, 0x10, 16, 0x100⟩ with
      ctx0 := cbcCtx, ctx1 := gcmCtx, draws := [.fail] }
    (0 < s.desc.s0Len.toNat ∧ (src0 s).bytes s.buf = .ok kc ∧ (src1 s).bytes s.buf = .ok ((kc.drop 2).take 5) ∧
      (src2 s).bytes s.buf = .ok iv0 ∧ checkedError (.cbcUpdate .enc true) s = none ∧
      checkedError (.cbcUpdate .enc false) s = none ∧ checkedError (.gcmUpdate .dec) s = none ∧
      s.nextDraw = .fail) ∧
    neverFailing.config.primCanFail = false ∧ ∃ t, exec (.ctxCreate .enc .gcm .aes128) neverFailing = .next t :=
  ⟨by decide +kernel, rfl, _, rfl⟩

/-- A CBC_RESEED without a context, and CTX_CREATEs that empty their slot and that do not. -/
theorem witness_FailedCommandsChangeOnlyTheReport :
    (∃ t, step (cmdState 0x00000012) = .next t ∧ (cmdState 0x00000012).status.halted = false ∧
        t.status.code ≠ .ok) ∧
      (∃ t, step (ctxSetup.withFetchWord 32 0x00000010) = .next t ∧
        decode 0x00000010 = .ok (.ctxCreate .enc .cbc .null) ∧ t.status.code = .unsupportedAlgorithm) ∧
      (∃ t, step (State.withFetchWord { ctxSetup with desc := ⟨0, 16, 0, 0, 0x10, 15, 0⟩ } 32 0x00000010) = .next t ∧
        t.status.code = .preconditionViolation) :=
  ⟨⟨_, rfl, by decide⟩, ⟨_, rfl, by decide⟩, ⟨_, rfl, by decide⟩⟩

theorem witness_CommandsLeaveTheDescriptors :
    (∃ t, exec .nop State.reset = .next t) ∧
      (∃ t, step { State.reset with host := [.writeReg 0x008 5] } = .next t ∧ readOffset 0x008 t ≠ 0) :=
  ⟨⟨_, rfl⟩, ⟨_, rfl, by decide⟩⟩

/-- A command that stores, and each reason to store nothing. -/
theorem witness_BytesOutsideTheResultAreUnchanged :
    (∃ t, exec .fbOf (setup [] ⟨0, 0, 0, 0, 0, 0, 65520⟩) = .next t ∧ t.resLen = 16) ∧
      (∃ t, exec (.gcmUpdate .enc) State.reset = .next t ∧ t.status.code ≠ .ok) ∧
      (∃ t, exec (.ctxDestroy .dec) State.reset = .next t) := ⟨⟨_, rfl, rfl⟩, ⟨_, rfl, by decide⟩, ⟨_, rfl⟩⟩

theorem witness_PureCommandsTouchNoContext :
    ∃ t, exec .fbOf (setup [] ⟨0, 0, 0, 0, 0, 0, 65520⟩) = .next t := ⟨_, rfl⟩

/-- One command of each of the three kinds ends. -/
theorem witness_UpdatesKeepTheKey :
    (∃ t, exec (.cbcUpdate .enc false) { setup [] ⟨0, 0, 0, 0, 0, 0, 0⟩ with ctx0 := cbcCtx } = .next t) ∧
      (∃ t, exec (.cbcReseed .enc) { ctxSetup with ctx0 := cbcCtx } = .next t) ∧
      (∃ t, exec (.gcmUpdate .enc) { setup [] ⟨0, 0, 0, 0, 0, 0, 0⟩ with ctx0 := gcmCtx } = .next t) :=
  ⟨⟨_, rfl⟩, ⟨_, rfl⟩, ⟨_, rfl⟩⟩

theorem witness_CommandsIgnoreTheOtherContext :
    addressed (.ctxDestroy .enc) ≠ some .dec ∧ addressed .nop ≠ some .enc ∧
      ∃ t, exec (.ctxDestroy .enc) State.reset = .next t := ⟨by decide, by decide, _, rfl⟩

/-- A state other than reset that has the invariant, and steps. -/
theorem witness_EveryStepKeepsTheInvariant :
    State.Inv { State.reset with buf := [(0, 7)], host := [.writeReg 0x000 1] } ∧
      ∃ t, step { State.reset with buf := [(0, 7)], host := [.writeReg 0x000 1] } = .next t := by
  refine ⟨⟨fun c => ?_, by decide, by decide, by decide, by decide, by decide, fun _ => rfl, by decide⟩, _, rfl⟩
  cases c <;>
    exact ⟨fun _ => rfl, (fun h => nomatch h), (fun h => nomatch h), (fun h => nomatch h),
      fun _ => ⟨rfl, rfl, rfl⟩, (fun h => nomatch h), fun _ => rfl⟩

theorem witness_ElementSerializationIsInverse : iv0.length = 16 := by decide

theorem witness_GhashFoldsZeroPaddedChunks : iv0.length = 16 ∧ 0 < (iv0.take 1).length ∧ (iv0.take 15).length < 16 := by
  decide

theorem witness_J0FollowsTheIvLength : (iv0.take 12).length = 12 ∧ iv0.length ≠ 12 := by decide

theorem witness_KeystreamXorIsBytewise : 16 < (iv0 ++ [0x10]).length := by decide

/-- Two transforms that differ at the counter block of the last, partial chunk, in a byte no output uses. -/
theorem witness_UnusedKeystreamHasNoEffect :
    (fun b => if b = 3 then e1 b ^^^ 1 else e1 b) (deriveJ0 h1 (zeros 12)) = e1 (deriveJ0 h1 (zeros 12)) ∧
      (∀ j, j < 17 →
        (bytesOfBlock ((fun b => if b = 3 then e1 b ^^^ 1 else e1 b)
            (counterBlock (deriveJ0 h1 (zeros 12)) (j / 16 + 1))))[j % 16]? =
          (bytesOfBlock (e1 (counterBlock (deriveJ0 h1 (zeros 12)) (j / 16 + 1))))[j % 16]?) ∧
      (fun b => if b = 3 then e1 b ^^^ 1 else e1 b) (counterBlock (deriveJ0 h1 (zeros 12)) 2) ≠
        e1 (counterBlock (deriveJ0 h1 (zeros 12)) 2) := by decide +kernel

/-- A CBC machine whose S0 holds this block of input, with room for the output at 0x100. -/
def cbcState (x : Bytes) : State :=
  { setup [(0, x)] ⟨0, BitVec.ofNat 32 x.length, 0, 0, 0, 0, 0x100⟩ with ctx0 := cbcCtx }

/-- The state after CBC_UPDATE of one or two blocks, CHAIN being what the context of `s` holds. -/
def cbcAfter (x : Bytes) (s : State) : State := cbcFinish .enc x.length (s.ctx .enc).chain x s.takeDraw

theorem cbcAfter_reads (x : Bytes) (s : State) (h : x.length % 16 = 0) :
    (cbcAfter x s).buf.readBytes s.desc.dAddr.toNat x.length =
      .ok (bytesOfBlocks (cbcRun .enc (transformBlock .enc (s.ctx .enc)) (s.ctx .enc).chain (blocksOf x)).1) := by
  have hl := length_bytesOfBlocks_cbcRun .enc (transformBlock .enc (s.ctx .enc)) (s.ctx .enc).chain h
  have hr := Memory.readBytes_writeBytes s.buf s.desc.dAddr.toNat
    (bytesOfBlocks (cbcRun .enc (transformBlock .enc (s.ctx .enc)) (s.ctx .enc).chain (blocksOf x)).1)
  rw [hl] at hr
  exact hr

/-- KC and IV as two blocks of input, in two calls and in one. -/
theorem witness_CbcChainsAcrossCalls :
    ∃ (s1 t1 s2 t2 s t : State) (y1 y2 y : Bytes),
      exec (.cbcUpdate .enc false) s1 = .next t1 ∧ t1.status.code = .ok ∧ (src0 s1).bytes s1.buf = .ok kc ∧
      t1.buf.readBytes s1.desc.dAddr.toNat s1.desc.s0Len.toNat = .ok y1 ∧
      s2.ctx .enc = t1.ctx .enc ∧ exec (.cbcUpdate .enc false) s2 = .next t2 ∧ t2.status.code = .ok ∧
      (src0 s2).bytes s2.buf = .ok iv0 ∧
      t2.buf.readBytes s2.desc.dAddr.toNat s2.desc.s0Len.toNat = .ok y2 ∧
      s.ctx .enc = s1.ctx .enc ∧ exec (.cbcUpdate .enc false) s = .next t ∧ t.status.code = .ok ∧
      (src0 s).bytes s.buf = .ok (kc ++ iv0) ∧
      t.buf.readBytes s.desc.dAddr.toNat s.desc.s0Len.toNat = .ok y :=
  ⟨cbcState kc, cbcAfter kc (cbcState kc),
    { cbcState iv0 with ctx0 := (cbcAfter kc (cbcState kc)).ctx0 },
    cbcAfter iv0 { cbcState iv0 with ctx0 := (cbcAfter kc (cbcState kc)).ctx0 },
    cbcState (kc ++ iv0), cbcAfter (kc ++ iv0) (cbcState (kc ++ iv0)), _, _, _,
    rfl, rfl, by decide +kernel, cbcAfter_reads _ _ (by decide), rfl, rfl, rfl, by decide +kernel,
    cbcAfter_reads _ _ (by decide), rfl, rfl, rfl, by decide +kernel, cbcAfter_reads _ _ (by decide)⟩

theorem witness_CbcRoundTrip : (∀ b : Block, (b ^^^ 5) ^^^ 5 = b) ∧ (iv0 ++ kc).length % 16 = 0 :=
  ⟨fun b => by rw [BitVec.xor_assoc]; simp, by decide⟩

theorem witness_CbcBlocksFollowTheIteration : 1 < (blocksOf (iv0 ++ kc)).length := by decide +kernel

/-- A GCM context as CTX_CREATE makes it. -/
def sealCtx : Context := newContext .gcm .aes128 kc 0 (Config.E .aes128 kc 0)

theorem sealCtx_inv : sealCtx.Inv .default :=
  ⟨(fun h => nomatch h), fun _ => .inl rfl, fun _ => rfl, fun _ => rfl, (fun h => nomatch h), fun _ _ => rfl, fun _ => rfl⟩

/-- One plaintext byte sealed on ctx0 under a 12-byte IV. -/
def sealState : State := { setup [(0, iv0)] ⟨0, 1, 0, 0, 0, 12, 0x100⟩ with ctx0 := sealCtx }

/-- The machine that opens this ciphertext byte on ctx1. -/
def openState (y : Bytes) : State :=
  { sealState with
    desc := ⟨0x100, 1, 0, 0, 0, 12, 0x200⟩, buf := sealState.buf.writeBytes 0x100 y, ctx1 := sealCtx }

theorem witness_GcmOpenReturnsWhatSealTook :
    ∃ (t : State) (y : Bytes),
      exec (.gcmUpdate .enc) sealState = .next t ∧ t.status.code = .ok ∧
      sealState.buf.readBytes sealState.desc.s0Addr.toNat sealState.desc.s0Len.toNat = .ok [0] ∧
      sealState.buf.readBytes sealState.desc.s1Addr.toNat sealState.desc.s1Len.toNat = .ok [] ∧
      sealState.buf.readBytes sealState.desc.s2Addr.toNat sealState.desc.s2Len.toNat = .ok (iv0.take 12) ∧
      t.buf.readBytes sealState.desc.dAddr.toNat sealState.desc.s0Len.toNat = .ok y ∧
      (openState y).ctx1.valid = true ∧ (openState y).ctx1.mode = .gcm ∧
      (openState y).ctx1.alg = sealState.ctx0.alg ∧ (openState y).ctx1.key = sealState.ctx0.key ∧
      sealState.ctx0.Inv sealState.config ∧ (openState y).ctx1.Inv (openState y).config ∧
      (usedSpans (.gcmUpdate .dec) (openState y)).all (openState y).inBuf = true ∧
      (openState y).buf.readBytes (openState y).desc.s0Addr.toNat (openState y).desc.s0Len.toNat = .ok y ∧
      (openState y).buf.readBytes (openState y).desc.s1Addr.toNat (openState y).desc.s1Len.toNat = .ok [] ∧
      (openState y).buf.readBytes (openState y).desc.s2Addr.toNat (openState y).desc.s2Len.toNat =
        .ok (iv0.take 12) ∧
      (openState y).nextDraw = .ok := by
  let y := (gcmCrypt (transformBlock .enc sealCtx) sealCtx.h .enc (iv0.take 12) [] [0]).out
  have hy : y.length = 1 := length_out_gcmCrypt ..
  have stored : (sealState.buf.writeBytes 0x100 y).readBytes 0x100 1 = .ok y := by
    have h := Memory.readBytes_writeBytes sealState.buf 0x100 y
    rwa [hy] at h
  have kept : (sealState.buf.writeBytes 0x100 y).readBytes 0 12 = sealState.buf.readBytes 0 12 :=
    Memory.readBytes_congr fun x _ hx => Memory.read_writeBytes_outside _ _ _ (.inl (by omega))
  have iv : sealState.buf.readBytes 0 12 = .ok (iv0.take 12) := by decide +kernel
  exact ⟨gcmFinish .enc 1 (iv0.take 12) [] [0] sealState.takeDraw, y, rfl, rfl, by decide +kernel, rfl, iv, stored,
    rfl, rfl, rfl, rfl, sealCtx_inv, sealCtx_inv, rfl, stored, rfl, kept.trans iv, rfl⟩

end Sys2Proof.Tests
end

section
/-! SUPPORT. The register window as a map: each mapped offset names one register, and a host write of a
register changes that register and no other (10_state.md R21, R37 to R40). -/

namespace Sys2Proof.Machine

/-! ### Offsets -/

theorem Reg.mem_all (r : Reg) : r ∈ Reg.all := by
  cases r with
  | ctxCfg c => cases c <;> decide
  | ctxChain c k => cases c <;> fin_cases k <;> decide
  | ctxTag c k => cases c <;> fin_cases k <;> decide
  | _ => decide

/-- The registers are finitely many, so what holds along their list holds of each. -/
theorem Reg.forall_of_all {P : Reg → Prop} (h : ∀ r ∈ Reg.all, P r) : ∀ r, P r :=
  fun r => h r r.mem_all

/-- A register is found at its own offset: no two registers share one. -/
@[simp] theorem Reg.ofOffset_offset : ∀ r : Reg, Reg.ofOffset r.offset = some r :=
  Reg.forall_of_all (by decide)

theorem Reg.eq_offset_of_ofOffset {o : Nat} {r : Reg} (h : Reg.ofOffset o = some r) : o = r.offset := by
  have hf := List.find?_some h
  exact (beq_iff_eq.1 hf).symm

/-- Every mapped offset is one a host access can name (R51). -/
@[simp] theorem Reg.regOffsetOk_offset : ∀ r : Reg, regOffsetOk r.offset = true :=
  Reg.forall_of_all (by decide)

/-- The mapped offsets: the engine's registers, and of each context's window CFG, CHAIN and TAG (R40). -/
theorem Reg.offset_mapped : ∀ r : Reg, r.offset ≤ 0x028 ∨ r.offset = 0x100 ∨
    (0x110 ≤ r.offset ∧ r.offset < 0x130) ∨ r.offset = 0x140 ∨ (0x150 ≤ r.offset ∧ r.offset < 0x170) :=
  Reg.forall_of_all (by decide)

/-- CTXc_CFG stands at the start of its context's window (R37). -/
theorem offset_ctxCfg (c : Dir) : 0x100 + 0x40 * c.bits.toNat = (Reg.ctxCfg c).offset := by cases c <;> rfl

/-- The registers a host write changes without a command: the descriptors (R21). -/
def Reg.descriptors : List Reg := [.s0Addr, .s0Len, .s1Addr, .s1Len, .s2Addr, .s2Len, .dAddr]

theorem Reg.mem_descriptor_offsets {o : Nat} :
    o ∈ [0x008, 0x00C, 0x010, 0x014, 0x018, 0x01C, 0x020] ↔ ∃ r ∈ Reg.descriptors, r.offset = o :=
  List.mem_map (f := Reg.offset) (l := Reg.descriptors)

theorem Reg.cmd_notMem_descriptors : Reg.cmd ∉ Reg.descriptors := by decide

/-! ### Reads -/

@[simp] theorem readOffset_offset (r : Reg) (s : State) : readOffset r.offset s = readReg r s := by
  simp [readOffset]

theorem readOffset_status (s : State) : readOffset 0x004 s = s.status.word := readOffset_offset .status s

theorem readOffset_params (s : State) : readOffset 0x028 s = paramsWord s.config := readOffset_offset .params s

theorem readOffset_ctxCfg (c : Dir) (s : State) :
    readOffset (0x100 + 0x40 * c.bits.toNat) s = cfgWord c (s.ctx c) := by
  rw [offset_ctxCfg, readOffset_offset]
  rfl

theorem readOffset_of_unmapped {o : Nat} (h : Reg.ofOffset o = none) (s : State) : readOffset o s = 0 := by
  simp [readOffset, h]

/-- Two states with the same reads of every register but one read the same at every offset but its own. -/
theorem readOffset_congr {r : Reg} {s t : State} (h : ∀ r', r' ≠ r → readReg r' t = readReg r' s) {o : Nat}
    (ho : o ≠ r.offset) : readOffset o t = readOffset o s := by
  cases hr : Reg.ofOffset o with
  | none => rw [readOffset_of_unmapped hr, readOffset_of_unmapped hr]
  | some r' =>
    obtain rfl := Reg.eq_offset_of_ofOffset hr
    have hne : r' ≠ r := fun e => ho (congrArg Reg.offset e)
    simpa using h r' hne

/-- The host's pending operations are in no register. -/
@[simp] theorem readReg_setHost (r : Reg) (s : State) (ops : List HostOp) :
    readReg r { s with host := ops } = readReg r s := by cases r <;> rfl

/-- A descriptor register reads from the descriptors alone. -/
theorem readReg_congr_desc {r : Reg} (hr : r ∈ Reg.descriptors) {s t : State} (h : t.desc = s.desc) :
    readReg r t = readReg r s := by
  fin_cases hr <;> simp [readReg, h]

/-! ### Writes -/

/-- A write of a register changes the descriptors at most. -/
theorem writeReg_frame (r : Reg) (v : Word) (s : State) :
    writeReg r v s = { s with desc := (writeReg r v s).desc } := by cases r <;> rfl

/-- A write of a read-only register is ignored (R40). -/
theorem writeReg_of_readOnly {r : Reg} (hr : r ∉ Reg.descriptors) (v : Word) (s : State) :
    writeReg r v s = s := by
  cases r with
  | s0Addr | s0Len | s1Addr | s1Len | s2Addr | s2Len | dAddr => exact absurd (by decide) hr
  | _ => rfl

/-- A descriptor register reads back the word written to it, all 32 bits (R21). -/
theorem readReg_writeReg_same {r : Reg} (hr : r ∈ Reg.descriptors) (v : Word) (s : State) :
    readReg r (writeReg r v s) = v := by
  fin_cases hr <;> rfl

/-- A write of one register changes no other: the descriptors are seven fields, and every other register reads
a field that no register write touches (R21). -/
theorem readReg_writeReg_of_ne {r r' : Reg} (h : r' ≠ r) (v : Word) (s : State) :
    readReg r' (writeReg r v s) = readReg r' s := by
  cases r' with
  | s0Addr | s0Len | s1Addr | s1Len | s2Addr | s2Len | dAddr => cases r <;> simp_all [readReg, writeReg]
  | _ => simp [readReg]

/-! ### The words of STATUS, PARAMS and CTXc_CFG -/

/-- A word with a 0 wherever the mask has a 1. -/
theorem and_mask_eq_zero {x m : Word} (h : ∀ i < 32, m.getLsbD i = true → x.getLsbD i = false) :
    x &&& m = 0 := by
  apply BitVec.eq_of_getLsbD_eq
  intro i hi
  cases hm : m.getLsbD i with
  | false => simp [hm]
  | true => simp [h i hi hm]

/-- A word below 2^n has no bit of a mask that starts at bit n. -/
theorem and_mask_eq_zero_of_lt {x m : Word} {n : Nat} (hx : x.toNat < 2 ^ n)
    (hm : ∀ i < 32, m.getLsbD i = true → n ≤ i) : x &&& m = 0 :=
  and_mask_eq_zero fun i hi hb =>
    Nat.testBit_lt_two_pow (Nat.lt_of_lt_of_le hx (Nat.pow_le_pow_right (by decide) (hm i hi hb)))

/-- The reserved bits of STATUS, 7:4 and 30:24, read 0 (R25, R40). -/
theorem Status.getLsbD_word_reserved (x : Status) {i : Nat} (hi : (4 ≤ i ∧ i < 8) ∨ (24 ≤ i ∧ i < 31)) :
    x.word.getLsbD i = false := by
  have code : x.code.value.getLsbD i = false := BitVec.getLsbD_of_ge _ _ (by omega)
  have lastOpc : i < 8 ∨ x.lastOpc.getLsbD (i - 8) = false :=
    hi.imp (by omega) fun _ => BitVec.getLsbD_of_ge _ _ (by omega)
  have detail : i < 16 ∨ x.detail.getLsbD (i - 16) = false :=
    hi.imp (by omega) fun _ => BitVec.getLsbD_of_ge _ _ (by omega)
  have halted : i < 31 := by omega
  simp only [Status.word, BitVec.getLsbD_or, BitVec.getLsbD_shiftLeft, BitVec.getLsbD_setWidth]
  grind

theorem Status.word_and_reserved (x : Status) : x.word &&& 0x7F0000F0 = 0 := by
  have mask : ∀ i < 32, (0x7F0000F0 : Word).getLsbD i = true → (4 ≤ i ∧ i < 8) ∨ (24 ≤ i ∧ i < 31) := by
    decide
  exact and_mask_eq_zero fun i hi hm => x.getLsbD_word_reserved (mask i hi hm)

/-- CTXc_CFG of a valid context is the sum of its fields at bits 0, 1, 2, 4:3 and 5 (R37): a finite table. -/
theorem cfgWord_of_valid (c : Dir) {x : Context} (h : x.valid = true) :
    cfgWord c x = BitVec.ofNat 32 (1 + 2 * x.mode.bits.toNat + 4 * c.bits.toNat + 8 * x.alg.bits.toNat +
      32 * x.tagValid.toNat) := by
  simp only [cfgWord, h, if_true]
  cases c <;> cases x.mode <;> cases x.alg <;> cases x.tagValid <;> decide

theorem cfgWord_of_invalid (c : Dir) {x : Context} (h : x.valid = false) : cfgWord c x = 0 := by
  simp [cfgWord, h]

/-- CTXc_CFG has no bit above TAG_VALID (R37, R40). -/
theorem cfgWord_lt (c : Dir) (x : Context) : (cfgWord c x).toNat < 2 ^ 6 := by
  cases h : x.valid with
  | false => simp [cfgWord_of_invalid c h]
  | true =>
    have mode : x.mode.bits.toNat ≤ 1 := by cases x.mode <;> decide
    have dir : c.bits.toNat ≤ 1 := by cases c <;> decide
    have alg : x.alg.bits.toNat ≤ 3 := by cases x.alg <;> decide
    have tagValid : x.tagValid.toNat ≤ 1 := Bool.toNat_le _
    rw [cfgWord_of_valid c h, BitVec.toNat_ofNat]
    omega

/-- PARAMS with its two constant fields in one word (R30). -/
theorem paramsWord_eq (p : Configuration) :
    paramsWord p = 0x00020010 ||| (BitVec.ofNat 32 p.bufLog2 <<< 8) := by
  unfold paramsWord
  rw [BitVec.or_assoc, BitVec.or_comm (BitVec.ofNat 32 p.bufLog2 <<< 8), ← BitVec.or_assoc]
  rfl

/-- The fields of PARAMS (R30), for each of the 17 values of BUF_BYTES (R6). -/
theorem paramsWord_fields (p : Configuration) :
    (paramsWord p).extractLsb' 0 8 = 16 ∧ (paramsWord p).extractLsb' 8 8 = BitVec.ofNat 8 p.bufLog2 ∧
      (paramsWord p).extractLsb' 16 4 = 2 ∧ (paramsWord p).extractLsb' 20 12 = 0 := by
  have table : ∀ k : Fin 17, ∀ w : Word, w = 0x00020010 ||| (BitVec.ofNat 32 (8 + k.val) <<< 8) →
      w.extractLsb' 0 8 = 16 ∧ w.extractLsb' 8 8 = BitVec.ofNat 8 (8 + k.val) ∧
        w.extractLsb' 16 4 = 2 ∧ w.extractLsb' 20 12 = 0 := by
    simp only [forall_eq]
    decide
  exact table p.bufLog2Over8 _ (paramsWord_eq p)

/-- PARAMS has no bit above NUM_CTX (R30, R40). -/
theorem paramsWord_lt (p : Configuration) : (paramsWord p).toNat < 2 ^ 20 := by
  obtain ⟨-, -, -, high⟩ := paramsWord_fields p
  have hn : ((paramsWord p).extractLsb' 20 12).toNat = 0 := congrArg BitVec.toNat high
  rw [BitVec.extractLsb'_toNat, Nat.shiftRight_eq_div_pow] at hn
  have := (paramsWord p).isLt
  omega

/-- BUF_BYTES is a power of two between 2^8 and 2^24 (R6). -/
theorem bufLog2_bounds (p : Configuration) : 8 ≤ p.bufLog2 ∧ p.bufLog2 ≤ 24 := by
  have := p.bufLog2Over8.isLt
  unfold Configuration.bufLog2
  omega

/-! ### Reset -/

theorem Status.word_reset : Status.reset.word = 0 := by decide

/-- After a reset every register but PARAMS reads 0 (R43). -/
theorem readReg_resetEngine {r : Reg} (hr : r ≠ .params) (s : State) : readReg r (resetEngine s) = 0 := by
  cases r with
  | params => exact absurd rfl hr
  | status => exact Status.word_reset
  | ctxCfg c => simp [readReg, cfgWord_of_invalid c (x := Context.empty) rfl]
  | ctxChain c k | ctxTag c k => simp [readReg, Context.empty, viewWord]
  | _ => rfl

theorem readOffset_resetEngine {o : Nat} (ho : o ≠ 0x028) (s : State) : readOffset o (resetEngine s) = 0 := by
  cases hr : Reg.ofOffset o with
  | none => exact readOffset_of_unmapped hr _
  | some r =>
    obtain rfl := Reg.eq_offset_of_ofOffset hr
    have hne : r ≠ .params := fun e => ho (congrArg Reg.offset e)
    simpa using readReg_resetEngine hne s

/-- The state right after reset is one that a reset leaves as it is. -/
theorem resetEngine_reset : resetEngine State.reset = State.reset := rfl

theorem readOffset_reset {o : Nat} (ho : o ≠ 0x028) : readOffset o State.reset = 0 :=
  readOffset_resetEngine ho State.reset

end Sys2Proof.Machine
end

section
/-! SUPPORT. What a step that accesses a register does, and which steps leave the descriptors
(10_state.md R21, R22, R40). -/

namespace Sys2Proof.Machine

/-! ### Register writes as steps -/

/-- With no operation pending a step leaves the state as it is. -/
theorem step_of_idle {s : State} (h : s.host = []) : step s = .next s := by
  simp [step, hostStep, h]

/-- A step performs the oldest pending operation, with that operation taken. -/
theorem step_of_host {s : State} {op : HostOp} {rest : List HostOp} (h : s.host = op :: rest) :
    step s = perform op { s with host := rest } := by
  simp [step, hostStep, State.popHost, h]

/-- A host write of a mapped register other than CMD. -/
theorem step_writeReg {s : State} {r : Reg} {v : Word} {rest : List HostOp} (hr : r ≠ .cmd)
    (h : s.host = .writeReg r.offset v :: rest) : step s = .next (writeReg r v { s with host := rest }) := by
  rw [step_of_host h]
  simp [perform, hostWriteReg, hr]

/-- A host write of a read-only register is ignored (R40). -/
theorem step_writeReg_readOnly {s : State} {r : Reg} {v : Word} {rest : List HostOp} (hc : r ≠ .cmd)
    (hr : r ∉ Reg.descriptors) (h : s.host = .writeReg r.offset v :: rest) :
    step s = .next { s with host := rest } := by
  rw [step_writeReg hc h, writeReg_of_readOnly hr]

/-- A host write at an unmapped offset is ignored (R40). -/
theorem step_writeReg_unmapped {s : State} {o : Nat} {v : Word} {rest : List HostOp}
    (hok : regOffsetOk o = true) (ho : Reg.ofOffset o = none) (h : s.host = .writeReg o v :: rest) :
    step s = .next { s with host := rest } := by
  rw [step_of_host h]
  simp [perform, hostWriteReg, hok, ho]

/-- What a host write at a REG offset can do: nothing, a command, or a register write. -/
theorem hostWriteReg_cases {o : Nat} {v : Word} {s t : State} (h : hostWriteReg o v s = .next t) :
    t = s ∨ (o = Reg.cmd.offset ∧ writeCmd v s = .next t) ∨
      ∃ r, r ≠ .cmd ∧ o = r.offset ∧ t = writeReg r v s := by
  unfold hostWriteReg at h
  split at h
  · split at h
    · cases h; exact .inl rfl
    · rename_i r hr
      have ho := Reg.eq_offset_of_ofOffset hr
      split at h
      · rename_i hc
        exact .inr (.inl ⟨hc ▸ ho, h⟩)
      · rename_i hc
        cases h
        exact .inr (.inr ⟨r, hc, ho, rfl⟩)
  · cases h

/-! ### What leaves the descriptors -/

/-- No command writes a descriptor register, CMD, the host's operations or its read log (R22). -/
theorem exec_keeps_desc {i : Instr} {s t : State} (h : exec i s = .next t) :
    t.desc = s.desc ∧ t.cmd = s.cmd ∧ t.host = s.host ∧ t.reads = s.reads := by
  have hend := exec_end i s
  rw [h] at hend
  cases hend with
  | cbcDone c ivo n b chain s' hi hs => rcases hs with rfl | rfl <;> simp
  | _ => simp

theorem writeCmd_keeps_desc {w : Word} {s t : State} (h : writeCmd w s = .next t) : t.desc = s.desc := by
  unfold writeCmd at h
  split at h
  · cases h; rfl
  · split at h
    · cases h; rfl
    · simpa using (exec_keeps_desc h).1

/-- A host operation that changes the descriptors is a reset or a write of a register (R22). -/
theorem perform_desc {op : HostOp} {s t : State} (h : perform op s = .next t) :
    t.desc = s.desc ∨ op = .reset ∨ ∃ r v, op = .writeReg r.offset v ∧ t = writeReg r v s := by
  cases op with
  | reset => exact .inr (.inl rfl)
  | writeReg o v =>
    rcases hostWriteReg_cases h with rfl | ⟨-, hw⟩ | ⟨r, -, rfl, ht⟩
    · exact .inl rfl
    · exact .inl (writeCmd_keeps_desc hw)
    · exact .inr (.inr ⟨r, v, rfl, ht⟩)
  | readReg o =>
    simp only [perform, hostReadReg] at h
    split at h <;> cases h
    exact .inl rfl
  | writeBuf a b =>
    simp only [perform, hostWriteBuf] at h
    split at h <;> cases h
    exact .inl rfl
  | readBuf a =>
    simp only [perform, hostReadBuf] at h
    split at h
    · split at h <;> cases h
      exact .inl rfl
    · cases h
  | haltCheck =>
    simp only [perform, hostHaltCheck] at h
    split at h <;> cases h <;> exact .inl rfl
  | secondAgent => cases h

/-- A step that changes what a descriptor register reads is a reset or a host write of that register (R22). -/
theorem step_keeps_descriptor {s t : State} (h : step s = .next t) {r : Reg} (hr : r ∈ Reg.descriptors) :
    readReg r t = readReg r s ∨ s.host.head? = some .reset ∨
      ∃ v, s.host.head? = some (.writeReg r.offset v) := by
  cases hhost : s.host with
  | nil =>
    rw [step_of_idle hhost] at h
    cases h
    exact .inl rfl
  | cons op rest =>
    rw [step_of_host hhost] at h
    rcases perform_desc h with hd | rfl | ⟨r', v, rfl, rfl⟩
    · exact .inl (readReg_congr_desc hr hd)
    · exact .inr (.inl rfl)
    · by_cases hrr : r = r'
      · exact .inr (.inr ⟨v, by rw [hrr]; rfl⟩)
      · exact .inl (by rw [readReg_writeReg_of_ne hrr, readReg_setHost])

/-- No step changes the parameters. -/
theorem step_keeps_config {s t : State} (h : step s = .next t) : t.config = s.config := by
  cases hhost : s.host with
  | nil =>
    rw [step_of_idle hhost] at h
    cases h
    rfl
  | cons op rest =>
    rw [step_of_host hhost] at h
    exact (perform_host h).2

end Sys2Proof.Machine
end

section
/-! PROOFS. The statements about the register window and the reset values (10_state.md). -/

namespace Sys2Proof.Machine

/-- Settles O12: the step writes the one register at `o`, which is a descriptor. -/
theorem descriptorsReadBackAsWritten : Obligations.DescriptorsReadBackAsWritten := by
  refine ⟨fun s o v rest ho h => ?_, fun o ho => readOffset_reset (by rintro rfl; simp at ho)⟩
  obtain ⟨r, hr, rfl⟩ := Reg.mem_descriptor_offsets.1 ho
  have hc : r ≠ .cmd := fun e => Reg.cmd_notMem_descriptors (e ▸ hr)
  refine ⟨_, step_writeReg hc h, ?_, fun o' ho' => ?_, writeReg_frame r v { s with host := rest }⟩
  · rw [readOffset_offset, readReg_writeReg_same hr]
  · refine readOffset_congr (fun r' hr' => ?_) ho'
    rw [readReg_writeReg_of_ne hr', readReg_setHost]

/-- Settles O13: an offset of the window names a read-only register or none, and the reserved bits lie outside
the fields of their words. -/
theorem readOnlyAndUnmappedOffsetsIgnoreWrites : Obligations.ReadOnlyAndUnmappedOffsetsIgnoreWrites := by
  refine ⟨fun s o v rest halign hle hcmd hdesc h => ?_, fun s o ho => ?_, fun s => ?_⟩
  · cases hr : Reg.ofOffset o with
    | none => exact step_writeReg_unmapped (by simp [regOffsetOk, halign, hle]) hr h
    | some r =>
      obtain rfl := Reg.eq_offset_of_ofOffset hr
      exact step_writeReg_readOnly (fun e => hcmd (congrArg Reg.offset e))
        (fun hm => hdesc (Reg.mem_descriptor_offsets.2 ⟨r, hm, rfl⟩)) h
  · cases hr : Reg.ofOffset o with
    | none => exact readOffset_of_unmapped hr s
    | some r =>
      have := r.offset_mapped
      rw [← Reg.eq_offset_of_ofOffset hr] at this
      omega
  · have cfg (c : Dir) : readOffset (0x100 + 0x40 * c.bits.toNat) s &&& 0xFFFFFFC0 = 0 := by
      rw [readOffset_ctxCfg]
      exact and_mask_eq_zero_of_lt (cfgWord_lt c (s.ctx c)) (by decide)
    rw [readOffset_status, readOffset_params]
    exact ⟨s.status.word_and_reserved, and_mask_eq_zero_of_lt (paramsWord_lt s.config) (by decide),
      cfg .enc, cfg .dec⟩

/-- Settles O16: both states are the outcome of a reset. -/
theorem resetGivesTheResetValues : Obligations.ResetGivesTheResetValues := by
  intro t ht
  have : ∃ u, t = resetEngine u := by
    rcases ht with rfl | ⟨s, rest, hhost, hstep⟩
    · exact ⟨_, resetEngine_reset.symm⟩
    · rw [step_of_host hhost] at hstep
      cases hstep
      exact ⟨_, rfl⟩
  obtain ⟨u, rfl⟩ := this
  refine ⟨rfl, Status.word_reset, rfl, rfl, resetEngine_ctx u, fun a => rfl, paramsWord_eq _, fun e => ?_,
    fun o ho => readOffset_resetEngine ho u⟩
  rw [e]
  rfl

/-- Settles O20: the word is the sum of its fields, and the register is read-only. -/
theorem cfgWordLayout : Obligations.CfgWordLayout := by
  intro s c
  rw [readOffset_ctxCfg]
  refine ⟨cfgWord_of_invalid c, cfgWord_of_valid c, fun v rest h => ?_, readOffset_reset (by omega)⟩
  rw [offset_ctxCfg] at h
  exact step_writeReg_readOnly (by simp) (by simp [Reg.descriptors]) h

/-- Settles O21: PARAMS reads the parameters alone, and no step changes those. -/
theorem paramsIsConstant : Obligations.ParamsIsConstant := by
  refine ⟨fun s => ?_, fun s t h => ?_, fun s v rest h => ?_, fun p => ⟨rfl, bufLog2_bounds p⟩,
    fun k h8 h24 => ?_, rfl, rfl⟩
  · rw [readOffset_params]
    exact paramsWord_fields s.config
  · rw [readOffset_params, readOffset_params, step_keeps_config h]
    exact ⟨rfl, rfl⟩
  · exact step_writeReg_readOnly (r := .params) (by decide) (by decide) h
  · exact ⟨⟨⟨k - 8, by omega⟩, [], true⟩, by simp only [Configuration.bufLog2]; omega⟩

/-- Settles O39: by every way a command can end, and by what a host operation does to the descriptors. -/
theorem commandsLeaveTheDescriptors : Obligations.CommandsLeaveTheDescriptors := by
  refine ⟨fun i s t h => exec_keeps_desc h, fun s t h o ho => ?_⟩
  obtain ⟨r, hr, rfl⟩ := Reg.mem_descriptor_offsets.1 ho
  rw [readOffset_offset, readOffset_offset]
  exact step_keeps_descriptor h hr

end Sys2Proof.Machine
end

section
/-! SUPPORT. The digits of a big-endian encoding one piece at a time, and the context views as pieces of a
field (20_memory.md R54, 10_state.md R38, R39). -/

namespace Sys2Proof.Machine

/-! ### Pieces of an encoding -/

/-- The first m of m + k digits encode the number without its last k digits. -/
theorem beBytes_add (m k v : Nat) : beBytes (m + k) v = beBytes m (v / 256 ^ k) ++ beBytes k v := by
  induction m with
  | zero => simp [beBytes]
  | succ m ih =>
    rw [Nat.succ_add]
    simp only [beBytes, List.cons_append]
    rw [ih, Nat.div_div_eq_div_mul, ← pow_add, Nat.add_comm k m]

/-- What n digits after the first m, with k more to follow, are worth. -/
theorem beValue_take_drop_beBytes (m n k v : Nat) :
    beValue (((beBytes (m + (n + k)) v).drop m).take n) = v / 256 ^ k % 256 ^ n := by
  rw [beBytes_add m, List.drop_left' (length_beBytes _ _), beBytes_add n, List.take_left' (length_beBytes _ _),
    beValue_beBytes_mod]

/-- Word k of a view is the big-endian word of bytes 4k to 4k+3 of the block (R54). -/
theorem viewWord_eq_beValue (b : Block) (k : Fin 4) :
    viewWord b k = BitVec.ofNat 32 (beValue (((bytesOfBlock b).drop (4 * k.val)).take 4)) := by
  have bytes : 16 = 4 * k.val + (4 + (12 - 4 * k.val)) := by omega
  have bits : 2 ^ (96 - 32 * k.val) = 256 ^ (12 - 4 * k.val) := by
    rw [show 96 - 32 * k.val = 8 * (12 - 4 * k.val) by omega, pow_mul]
    rfl
  apply BitVec.eq_of_toNat_eq
  rw [bytesOfBlock, bytes, beValue_take_drop_beBytes, viewWord, BitVec.extractLsb'_toNat,
    Nat.shiftRight_eq_div_pow, bits, BitVec.toNat_ofNat]
  exact (Nat.mod_mod _ _).symm

/-! ### The views as registers -/

/-- CTXc_CHAIN stands at 0x10 of its context's window (R38). -/
theorem offset_ctxChain (c : Dir) (k : Fin 4) :
    0x110 + 0x40 * c.bits.toNat + 4 * k.val = (Reg.ctxChain c k).offset := by cases c <;> rfl

/-- CTXc_TAG stands at 0x20 of its context's window (R39). -/
theorem offset_ctxTag (c : Dir) (k : Fin 4) :
    0x120 + 0x40 * c.bits.toNat + 4 * k.val = (Reg.ctxTag c k).offset := by cases c <;> rfl

theorem readOffset_ctxChain (c : Dir) (k : Fin 4) (s : State) :
    readOffset (0x110 + 0x40 * c.bits.toNat + 4 * k.val) s = viewWord (s.ctx c).chain k := by
  rw [offset_ctxChain, readOffset_offset]
  rfl

theorem readOffset_ctxTag (c : Dir) (k : Fin 4) (s : State) :
    readOffset (0x120 + 0x40 * c.bits.toNat + 4 * k.val) s = viewWord (s.ctx c).tag k := by
  rw [offset_ctxTag, readOffset_offset]
  rfl

/-- Both views are read-only registers (R40). -/
theorem exists_readOnly_of_view {b : Nat} (hb : b ∈ [0x110, 0x120]) (c : Dir) (k : Fin 4) :
    ∃ r, b + 0x40 * c.bits.toNat + 4 * k.val = r.offset ∧ r ≠ .cmd ∧ r ∉ Reg.descriptors := by
  fin_cases hb
  · exact ⟨.ctxChain c k, offset_ctxChain c k, by simp, by simp [Reg.descriptors]⟩
  · exact ⟨.ctxTag c k, offset_ctxTag c k, by simp, by simp [Reg.descriptors]⟩

end Sys2Proof.Machine
end

section
/-! PROOFS. The statement about the word views of the context fields (20_memory.md). -/

namespace Sys2Proof.Machine

/-- Settles O19: each view is a read-only register whose word is a piece of the field's encoding. -/
theorem contextViewsAreBigEndian : Obligations.ContextViewsAreBigEndian := by
  intro s c k
  refine ⟨?_, ?_, fun b hb v rest h => ?_, fun b hb => readOffset_reset ?_⟩
  · rw [readOffset_ctxChain, viewWord_eq_beValue]
  · rw [readOffset_ctxTag, viewWord_eq_beValue]
  · obtain ⟨r, hr, hcmd, hdesc⟩ := exists_readOnly_of_view hb c k
    rw [hr] at h
    exact step_writeReg_readOnly hcmd hdesc h
  · simp only [List.mem_cons, List.not_mem_nil, or_false] at hb
    omega

end Sys2Proof.Machine
end

section
/-! SUPPORT. The row test of R72 and the decode step of R77 look at the same two things: OPC, and the bits
outside OPC and the fields (30_encoding.md R72, R77). -/

namespace Sys2Proof

open Machine (and_mask_eq_zero_of_lt)

/-! ### The rows of the table -/

theorem Opcode.code_injective : Function.Injective Opcode.code := fun op op' h =>
  Option.some.inj (by rw [← Opcode.ofByte_code op, h, Opcode.ofByte_code])

theorem Opcode.maskWord_eq (op : Opcode) : op.maskWord = ~~~op.varMask := by cases op <;> decide

theorem Opcode.matchWord_eq (op : Opcode) : op.matchWord = op.code.setWidth 32 := by cases op <;> decide

/-- No variable bit lies in OPC. -/
theorem Opcode.opcField_varMask (op : Opcode) : opcField op.varMask = 0 := by cases op <;> decide

/-! ### OPC and the bits above it -/

/-- A word is a byte exactly when that byte is its OPC and no bit above OPC is 1. -/
theorem eq_setWidth_byte_iff (x : Word) (c : Byte) :
    x = c.setWidth 32 ↔ c = opcField x ∧ x &&& ~~~0x000000FF = 0 := by
  constructor
  · rintro rfl
    have lt : (c.setWidth 32).toNat < 2 ^ 8 := by
      rw [BitVec.toNat_setWidth_of_le (by decide)]
      exact c.isLt
    exact ⟨by simp [opcField], and_mask_eq_zero_of_lt lt (by decide)⟩
  · rintro ⟨rfl, high⟩
    apply BitVec.eq_of_getLsbD_eq
    intro j hj
    rw [opcField, BitVec.getLsbD_setWidth, BitVec.getLsbD_setWidth]
    by_cases h8 : j < 8
    · simp [hj, h8]
    · have zero : x.getLsbD j = false :=
        bit_of_reserved_zero (v := 0) (by simpa using high) (by omega) BitVec.getLsbD_zero
      simp [zero]

/-- Clearing bits outside OPC leaves OPC. -/
theorem opcField_and_not {v : Word} (hv : opcField v = 0) (w : Word) : opcField (w &&& ~~~v) = opcField w := by
  unfold opcField at hv ⊢
  rw [BitVec.setWidth_and, BitVec.setWidth_not (by decide), hv]
  exact BitVec.and_allOnes

/-! ### Selection and decode -/

/-- A word selects a row exactly when its OPC is the row's and no bit outside OPC and the fields is 1: the mask
keeps OPC and those bits, and the match has 0 in the latter (R72). -/
theorem selects_iff (w : Word) (op : Opcode) :
    w &&& op.maskWord = op.matchWord ↔
      op.code = opcField w ∧ w &&& ~~~(0x000000FF ||| op.varMask) = 0 := by
  have outside : w &&& ~~~(0x000000FF ||| op.varMask) = w &&& ~~~op.varMask &&& ~~~0x000000FF := by
    rw [BitVec.not_or, BitVec.and_comm (~~~0x000000FF), BitVec.and_assoc]
  rw [op.maskWord_eq, op.matchWord_eq, eq_setWidth_byte_iff, opcField_and_not op.opcField_varMask, outside]

/-- A word is a command of an opcode exactly when the decode step of R77 accepts it for that opcode. -/
theorem exists_decode_iff (w : Word) (op : Opcode) :
    (∃ i, decode w = .ok i ∧ i.opcode = op) ↔
      op.code = opcField w ∧ w &&& ~~~(0x000000FF ||| op.varMask) = 0 := by
  constructor
  · rintro ⟨i, hdecode, rfl⟩
    obtain ⟨hcode, hz, -⟩ := decode_ok hdecode
    exact ⟨hcode, hz⟩
  · rintro ⟨hcode, hz⟩
    exact ⟨op.command w, decode_of_fields hcode hz, op.opcode_command w⟩

end Sys2Proof
end

section
/-! PROOFS. The statement about the rows of the encoding table (30_encoding.md). -/

namespace Sys2Proof

/-- Settles O3: selecting a row and decoding to its opcode are the same condition, and OPC names the row. -/
theorem wordSelectsItsTableRow : Obligations.WordSelectsItsTableRow := by
  refine ⟨fun w op => (exists_decode_iff w op).trans (selects_iff w op).symm, fun w op op' h h' => ?_,
    fun op => ⟨op.maskWord_eq, op.matchWord_eq⟩⟩
  obtain ⟨hcode, -⟩ := (selects_iff w op).1 h
  obtain ⟨hcode', -⟩ := (selects_iff w op').1 h'
  exact Opcode.code_injective (hcode.trans hcode'.symm)

end Sys2Proof
end

section
/-! SUPPORT. The CBC iterations over joined inputs, and what a successful CBC_UPDATE with the carried IV leaves
(41_cbc.md R121, R122, R127, R129). -/

namespace Sys2Proof.Machine

/-! ### The iterations over joined inputs -/

theorem bytesOfBlocks_append (xs ys : List Block) :
    bytesOfBlocks (xs ++ ys) = bytesOfBlocks xs ++ bytesOfBlocks ys := List.flatMap_append

/-- Encryption goes on from its last output block. -/
theorem cbcEncrypt_append (f : Block → Block) (iv : Block) (xs ys : List Block) :
    cbcEncrypt f iv (xs ++ ys) =
      ((cbcEncrypt f iv xs).1 ++ (cbcEncrypt f (cbcEncrypt f iv xs).2 ys).1,
        (cbcEncrypt f (cbcEncrypt f iv xs).2 ys).2) := by
  induction xs generalizing iv with
  | nil => rfl
  | cons x xs ih => simp only [List.cons_append, cbcEncrypt_cons, ih]

/-- Decryption goes on from its last input block. -/
theorem cbcDecrypt_append (g : Block → Block) (iv : Block) (xs ys : List Block) :
    cbcDecrypt g iv (xs ++ ys) =
      ((cbcDecrypt g iv xs).1 ++ (cbcDecrypt g (cbcDecrypt g iv xs).2 ys).1,
        (cbcDecrypt g (cbcDecrypt g iv xs).2 ys).2) := by
  induction xs generalizing iv with
  | nil => rfl
  | cons x xs ih => simp only [List.cons_append, cbcDecrypt_cons, ih]

theorem cbcRun_append (c : Dir) (t : Block → Block) (iv : Block) (xs ys : List Block) :
    cbcRun c t iv (xs ++ ys) =
      ((cbcRun c t iv xs).1 ++ (cbcRun c t (cbcRun c t iv xs).2 ys).1,
        (cbcRun c t (cbcRun c t iv xs).2 ys).2) := by
  cases c with
  | enc => exact cbcEncrypt_append t iv xs ys
  | dec => exact cbcDecrypt_append t iv xs ys

/-! ### The run of a context from its CHAIN -/

/-- The output blocks and the last IV of a context's iteration over x, from its own CHAIN (R127). -/
def chainedRun (c : Dir) (k : Context) (x : Bytes) : List Block × Block :=
  cbcRun c (transformBlock c k) k.chain (blocksOf x)

/-- The context once that run's last IV is its CHAIN (R127). -/
def chainedCtx (c : Dir) (k : Context) (x : Bytes) : Context := { k with chain := (chainedRun c k x).2 }

/-- A run over whole blocks and more is a run over the former, then one from the CHAIN they leave, with the same
primitive: that does not depend on CHAIN (R129). -/
theorem chainedRun_append (c : Dir) (k : Context) {x1 : Bytes} (x2 : Bytes) (h : x1.length % 16 = 0) :
    chainedRun c k (x1 ++ x2) =
      ((chainedRun c k x1).1 ++ (chainedRun c (chainedCtx c k x1) x2).1,
        (chainedRun c (chainedCtx c k x1) x2).2) := by
  unfold chainedRun
  rw [blocksOf_append h, cbcRun_append]
  rfl

theorem chainedCtx_append (c : Dir) (k : Context) {x1 : Bytes} (x2 : Bytes) (h : x1.length % 16 = 0) :
    chainedCtx c k (x1 ++ x2) = chainedCtx c (chainedCtx c k x1) x2 := by
  unfold chainedCtx
  rw [chainedRun_append c k x2 h]
  rfl

/-! ### A successful command -/

/-- A guarded command that ends in OK passed its checks and ran its body. -/
theorem guarded_ok {opc : Byte} {checks : List Check} {s t : State} {body : Result}
    (h : guarded opc checks s body = .next t) (hok : t.status.code = .ok) :
    firstFailure checks = none ∧ body = .next t := by
  cases hf : firstFailure checks with
  | none => exact ⟨rfl, (guarded_of_none hf).symm.trans h⟩
  | some e =>
    rw [guarded_of_some hf] at h
    cases h
    exact absurd hok e.code_ne_ok

/-- The body of CBC_UPDATE ends in OK only in its finish, with the draw taken or without one. -/
theorem cbcUpdateBody_ok {c : Dir} {iv : Block} {x : Bytes} {s t : State}
    (h : cbcUpdateBody c iv x s = .next t) (hok : t.status.code = .ok) :
    ∃ s', (s' = s ∨ s' = s.takeDraw) ∧ t = cbcFinish c (src0 s).len iv x s' := by
  unfold cbcUpdateBody at h
  split at h
  · simp only [withDraw] at h
    split at h <;> cases h
    · exact absurd hok (CmdError.code_ne_ok .inUpdate)
    · exact ⟨_, .inr rfl, rfl⟩
  · cases h
    exact ⟨_, .inl rfl, rfl⟩

/-- From the context's own CHAIN the finish publishes that context's run. -/
theorem cbcFinish_carried (c : Dir) (n : Nat) (x : Bytes) (s : State) :
    cbcFinish c n (s.ctx c).chain x s =
      publish 0x20 n (bytesOfBlocks (chainedRun c (s.ctx c) x).1)
        (s.setCtx c (chainedCtx c (s.ctx c) x)) := rfl

/-- A successful CBC_UPDATE with the carried IV had whole blocks x as its input, wrote the output of the run over
them at D, and left that run's last IV in CHAIN (R127). -/
theorem exec_cbcUpdate_carried_ok {c : Dir} {s t : State} {x : Bytes}
    (h : exec (.cbcUpdate c false) s = .next t) (hok : t.status.code = .ok)
    (hx : (src0 s).bytes s.buf = .ok x) :
    x.length % 16 = 0 ∧
      t.buf.readBytes s.desc.dAddr.toNat s.desc.s0Len.toNat =
        .ok (bytesOfBlocks (chainedRun c (s.ctx c) x).1) ∧
      t.ctx c = chainedCtx c (s.ctx c) x := by
  obtain ⟨hchecks, hbody⟩ := guarded_ok (show guarded _ _ _ _ = _ from h) hok
  rw [hx, withBytes_ok] at hbody
  obtain ⟨s', hs, rfl⟩ := cbcUpdateBody_ok hbody hok
  have hlen : x.length = s.desc.s0Len.toNat := Memory.length_of_readBytes hx
  have hwhole : x.length % 16 = 0 := by
    have := lengthError_of_checked ((firstFailure_cbcUpdate_carried c s).symm.trans hchecks)
    by_contra hne
    simp [lengthError, src0, ← hlen, hne] at this
  have hout : (bytesOfBlocks (chainedRun c (s.ctx c) x).1).length = s.desc.s0Len.toNat :=
    (length_bytesOfBlocks_cbcRun _ _ _ hwhole).trans hlen
  have hctx : s'.ctx c = s.ctx c := by rcases hs with rfl | rfl <;> simp
  have hdesc : s'.desc = s.desc := by rcases hs with rfl | rfl <;> simp
  rw [← hctx, cbcFinish_carried, hctx]
  refine ⟨hwhole, ?_, by simp⟩
  rw [publish_buf, setCtx_desc, hdesc, ← hout]
  exact Memory.readBytes_writeBytes _ _ _

end Sys2Proof.Machine
end

section
/-! PROOFS. The statement about CBC_UPDATEs in a row (41_cbc.md R129). -/

namespace Sys2Proof.Machine

/-- Settles O56: each command is the run of its context from its CHAIN, and the run over the joined inputs splits
into the run over the first and the run over the second from the CHAIN the first leaves. -/
theorem cbcChainsAcrossCalls : Obligations.CbcChainsAcrossCalls := by
  intro c s1 t1 s2 t2 s t x1 x2 y1 y2 y h1 ok1 hx1 hy1 hs2 h2 ok2 hx2 hy2 hs h ok hx hy
  obtain ⟨hwhole1, hout1, hctx1⟩ := exec_cbcUpdate_carried_ok h1 ok1 hx1
  obtain ⟨-, hout2, hctx2⟩ := exec_cbcUpdate_carried_ok h2 ok2 hx2
  obtain ⟨-, hout, hctx⟩ := exec_cbcUpdate_carried_ok h ok hx
  rw [hs2, hctx1] at hout2 hctx2
  rw [hs, chainedRun_append c _ x2 hwhole1, bytesOfBlocks_append] at hout
  rw [hs, chainedCtx_append c _ x2 hwhole1] at hctx
  constructor
  · rw [Except.ok.inj (hy1.symm.trans hout1), Except.ok.inj (hy2.symm.trans hout2)]
    exact Except.ok.inj (hy.symm.trans hout)
  · rw [hctx, hctx2]

end Sys2Proof.Machine
end

section
/-! SUPPORT. The counter block's low word, and GHASH over padded data and whole blocks (42_gcm.md R141, R142;
43_gf128_ghash.md R176). -/

namespace Sys2Proof.Machine

/-! ### inc32 as an integer and in bytes -/

/-- inc32 keeps the number above the low word and counts in the low word (R142). -/
theorem toNat_inc32 (cb : Block) :
    (inc32 cb).toNat = cb.toNat / 2 ^ 32 * 2 ^ 32 + (cb.toNat + 1) % 2 ^ 32 := by
  have high : cb.toNat / 2 ^ 32 % 2 ^ 96 = cb.toNat / 2 ^ 32 :=
    Nat.mod_eq_of_lt (by have := cb.isLt; omega)
  have low : (cb.extractLsb' 0 32 + 1).toNat = (cb.toNat + 1) % 2 ^ 32 := by simp
  rw [inc32, BitVec.toNat_append, ← Nat.shiftLeft_add_eq_or_of_lt (BitVec.isLt _), low,
    BitVec.extractLsb'_toNat, Nat.shiftRight_eq_div_pow, high, Nat.shiftLeft_eq]

theorem take_twelve_bytesOfBlock (x : Block) : (bytesOfBlock x).take 12 = beBytes 12 (x.toNat / 256 ^ 4) := by
  rw [bytesOfBlock, beBytes_add 12 4, List.take_left' (length_beBytes _ _)]

theorem drop_twelve_bytesOfBlock (x : Block) : (bytesOfBlock x).drop 12 = beBytes 4 x.toNat := by
  rw [bytesOfBlock, beBytes_add 12 4, List.drop_left' (length_beBytes _ _)]

/-! ### GHASH over padded data and over one block -/

theorem length_zeroPadded (data : Bytes) :
    (data ++ zeros (16 * ceil16 data.length - data.length)).length = 16 * ceil16 data.length := by
  rw [List.length_append, length_zeros]
  unfold ceil16
  omega

/-- Zero-padding the data to whole chunks is what GHASH does to its last chunk anyway (R176). -/
theorem ghashUpdate_zeroPadded (acc h : Block) (data : Bytes) :
    ghashUpdate acc h (data ++ zeros (16 * ceil16 data.length - data.length)) = ghashUpdate acc h data := by
  induction data using chunks_induction generalizing acc with
  | nil => rfl
  | step data hpos ih =>
    have hpos' : 0 < (data ++ zeros (16 * ceil16 data.length - data.length)).length := by
      rw [List.length_append]
      omega
    rw [ghashUpdate_of_pos acc h hpos', ghashUpdate_of_pos acc h hpos]
    by_cases h16 : 16 ≤ data.length
    · have pad : 16 * ceil16 data.length - data.length =
          16 * ceil16 (data.drop 16).length - (data.drop 16).length := by
        rw [List.length_drop]
        unfold ceil16
        omega
      rw [List.take_append_of_le_length h16, List.drop_append_of_le_length h16, pad, ih]
    · have one : ceil16 data.length = 1 := by
        unfold ceil16
        omega
      have whole := length_zeroPadded data
      rw [one] at whole ⊢
      rw [List.take_of_length_le whole.le, List.drop_eq_nil_of_le whole.le, fixedBlock_of_length whole,
        List.take_of_length_le (by omega), List.drop_eq_nil_of_le (by omega),
        fixedBlock_append_zeros (by omega)]

theorem ghashUpdate_block (acc h : Block) {b : Bytes} (hb : b.length = 16) :
    ghashUpdate acc h b = gfMul (acc ^^^ blockOfBytes b) h := by
  rw [ghashUpdate_of_pos acc h (by omega), List.take_of_length_le hb.le, List.drop_eq_nil_of_le hb.le,
    fixedBlock_of_length hb, ghashUpdate_nil]

/-- Eight zero bytes and an 8-byte number are the block of that number modulo 2^64. -/
theorem blockOfBytes_zeros_append_beBytes (n : Nat) :
    blockOfBytes (beBytes 8 0 ++ beBytes 8 n) = BitVec.ofNat 128 (n % 2 ^ 64) := by
  rw [blockOfBytes, beValue_append, beValue_beBytes_mod, beValue_beBytes_mod, Nat.zero_mod, Nat.zero_mul,
    Nat.zero_add]
  rfl

theorem gfMul_zero_left (y : Block) : gfMul 0 y = 0 :=
  gfLoop_of_low_zero 0 128 y fun _ _ => BitVec.getLsbD_zero

/-! ### J0 -/

theorem deriveJ0_of_length (h : Block) {iv : Bytes} (hl : iv.length = 12) :
    deriveJ0 h iv = blockOfBytes (iv ++ [0, 0, 0, 1]) := if_pos hl

/-- An IV of another length is folded, and then the block of its bit length (R141). -/
theorem deriveJ0_of_length_ne (h : Block) {iv : Bytes} (hl : iv.length ≠ 12) :
    deriveJ0 h iv = gfMul (ghashUpdate 0 h iv ^^^ BitVec.ofNat 128 (8 * iv.length % 2 ^ 64)) h := by
  have whole : (iv ++ zeros (16 * ceil16 iv.length - iv.length)).length % 16 = 0 := by
    rw [length_zeroPadded, Nat.mul_mod_right]
  rw [deriveJ0, if_neg hl, ghashUpdate_append 0 h _ whole, ghashUpdate_zeroPadded,
    ghashUpdate_block _ h (by simp), blockOfBytes_zeros_append_beBytes]

end Sys2Proof.Machine
end

section
/-! SUPPORT. What GCM_UPDATE computes in its context, and what it leaves where it ends in OK (42_gcm.md R149,
R151). -/

namespace Sys2Proof.Machine

/-! ### The computation of a context -/

/-- What GCM_UPDATE computes in a context of direction c (R149). -/
def gcmRun (c : Dir) (k : Context) (iv aad x : Bytes) : GcmResult :=
  gcmCrypt (transformBlock c k) k.h c iv aad x

/-- A valid GCM context uses E in both directions and H = E(0^16), so its computation depends on ALG and KEY
alone (R34, R103). -/
theorem gcmRun_of_inv {p : Configuration} {k : Context} (inv : k.Inv p) (hv : k.valid = true)
    (hm : k.mode = .gcm) (c : Dir) (iv aad x : Bytes) :
    gcmRun c k iv aad x =
      gcmCrypt (Config.E k.alg k.key) (Config.E k.alg k.key 0) c iv aad x := by
  have transform : transformBlock c k = Config.E k.alg k.key := by
    funext b
    simp only [transformBlock, hm]
  rw [gcmRun, transform, inv.gcm_subkey hv hm]

/-- A context with the same ALG and KEY opens what another sealed: the keystream is the same and undoes itself,
and both directions fold the ciphertext into the tag (R146, R151). -/
theorem gcmRun_open_seal {p p' : Configuration} {k k' : Context} (inv : k.Inv p) (hv : k.valid = true)
    (hm : k.mode = .gcm) (inv' : k'.Inv p') (hv' : k'.valid = true) (hm' : k'.mode = .gcm)
    (halg : k'.alg = k.alg) (hkey : k'.key = k.key) (iv aad x : Bytes) :
    (gcmRun .dec k' iv aad (gcmRun .enc k iv aad x).out).out = x ∧
      (gcmRun .dec k' iv aad (gcmRun .enc k iv aad x).out).tag = (gcmRun .enc k iv aad x).tag := by
  rw [gcmRun_of_inv inv hv hm, gcmRun_of_inv inv' hv' hm', halg, hkey]
  exact ⟨ctrXor_ctrXor _ _ x, rfl⟩

/-! ### The finish -/

@[simp] theorem gcmFinish_status (c : Dir) (n : Nat) (iv aad x : Bytes) (s : State) :
    (gcmFinish c n iv aad x s).status = okStatus 0x21 := rfl

@[simp] theorem gcmFinish_ctx (c : Dir) (n : Nat) (iv aad x : Bytes) (s : State) :
    (gcmFinish c n iv aad x s).ctx c =
      { s.ctx c with chain := (gcmRun c (s.ctx c) iv aad x).chain
                     tag := (gcmRun c (s.ctx c) iv aad x).tag
                     tagValid := true } := by
  simp [gcmFinish, gcmRun]

theorem gcmFinish_holdsBytes (c : Dir) (n : Nat) (iv aad x : Bytes) (s : State) :
    holdsBytes (gcmFinish c n iv aad x s).buf s.desc.dAddr.toNat (gcmRun c (s.ctx c) iv aad x).out := by
  rw [holdsBytes, gcmFinish, publish_buf, setCtx_buf, setCtx_desc]
  exact Memory.readBytes_writeBytes _ _ _

/-! ### The command -/

/-- With its checks passed and its operands read, GCM_UPDATE ends as its draw says (R101, R149). -/
theorem exec_gcmUpdate_of_checked {c : Dir} {s : State} {x aad iv : Bytes}
    (hc : checkedError (.gcmUpdate c) s = none) (hx : (src0 s).bytes s.buf = .ok x)
    (haad : (src1 s).bytes s.buf = .ok aad) (hiv : (src2 s).bytes s.buf = .ok iv) :
    exec (.gcmUpdate c) s =
      .next (if s.nextDraw = .ok then gcmFinish c s.desc.s0Len.toNat iv aad x s.takeDraw
        else raise 0x21 .inUpdate s.takeDraw) := by
  refine (guarded_of_none ((firstFailure_gcmUpdate c s).trans hc)).trans ?_
  rw [hx, withBytes_ok, haad, withBytes_ok, hiv, withBytes_ok, withDraw]
  cases s.nextDraw <;> rfl

/-- A GCM_UPDATE that ends in OK passed its checks, and finished with its draw taken. -/
theorem exec_gcmUpdate_ok {c : Dir} {s t : State} {x aad iv : Bytes}
    (h : exec (.gcmUpdate c) s = .next t) (hok : t.status.code = .ok)
    (hx : (src0 s).bytes s.buf = .ok x) (haad : (src1 s).bytes s.buf = .ok aad)
    (hiv : (src2 s).bytes s.buf = .ok iv) :
    checkedError (.gcmUpdate c) s = none ∧
      t = gcmFinish c s.desc.s0Len.toNat iv aad x s.takeDraw := by
  obtain ⟨hchecks, -⟩ := guarded_ok (show guarded _ _ _ _ = _ from h) hok
  have hc := (firstFailure_gcmUpdate c s).symm.trans hchecks
  rw [exec_gcmUpdate_of_checked hc hx haad hiv] at h
  cases h
  refine ⟨hc, if_pos ?_⟩
  by_contra hdraw
  rw [if_neg hdraw] at hok
  exact CmdError.code_ne_ok .inUpdate hok

end Sys2Proof.Machine
end

section
/-! PROOFS. The statements about inc32, J0 and opening what was sealed (42_gcm.md). -/

namespace Sys2Proof.Machine

/-- Settles O51: bytes 0 to 11 are the digits above the low word, bytes 12 to 15 those of the low word. -/
theorem inc32WrapsInTheLowWord : Obligations.Inc32WrapsInTheLowWord := by
  intro cb
  constructor
  · rw [take_twelve_bytesOfBlock, take_twelve_bytesOfBlock, toNat_inc32]
    exact congrArg (beBytes 12) (by omega)
  · rw [drop_twelve_bytesOfBlock, drop_twelve_bytesOfBlock, beValue_beBytes_mod, beValue_beBytes_mod, toNat_inc32]
    omega

/-- Settles O52: the empty IV is one of the folded ones, and a product with 0 is 0. -/
theorem j0FollowsTheIvLength : Obligations.J0FollowsTheIvLength := by
  refine ⟨fun h iv hl => ?_, fun h iv hl => deriveJ0_of_length_ne h hl, fun h => ?_⟩
  · rw [deriveJ0_of_length h hl, bytesOfBlock_blockOfBytes (by simp [hl])]
  · have folded : ghashUpdate 0 h [] ^^^ BitVec.ofNat 128 (8 * ([] : Bytes).length % 2 ^ 64) = 0 := by simp
    rw [deriveJ0_of_length_ne h (by simp), folded, gfMul_zero_left]

/-- Settles O59: by the invariant both contexts run with the same primitive and the same H, and that computation
opens what it sealed. -/
theorem gcmOpenReturnsWhatSealTook : Obligations.GcmOpenReturnsWhatSealTook := by
  intro s t u p aad iv y hs ok hp haad hiv hy hv hm halg hkey invS invU hin hyU haadU hivU hdraw
  obtain ⟨hcS, rfl⟩ := exec_gcmUpdate_ok hs ok hp haad hiv
  obtain ⟨hvS, hmS⟩ := context_of_checked hcS rfl
  have hcU : checkedError (.gcmUpdate .dec) u = none := by
    simp [checkedError, neededMode, lengthError, State.ctx, hv, hm, hin]
  have hout : y = (gcmRun .enc s.ctx0 iv aad p).out := by
    have hlen : (gcmRun .enc s.ctx0 iv aad p).out.length = s.desc.s0Len.toNat :=
      (length_out_gcmCrypt ..).trans (Memory.length_of_readBytes hp)
    exact Except.ok.inj (hy.symm.trans (hlen ▸ gcmFinish_holdsBytes .enc _ iv aad p s.takeDraw))
  obtain ⟨plain, tag⟩ := gcmRun_open_seal invS hvS hmS invU hv hm halg hkey iv aad p
  rw [← hout] at plain tag
  have held := gcmFinish_holdsBytes .dec u.desc.s0Len.toNat iv aad y u.takeDraw
  have hctxU := gcmFinish_ctx .dec u.desc.s0Len.toNat iv aad y u.takeDraw
  have hctxS := gcmFinish_ctx .enc s.desc.s0Len.toNat iv aad p s.takeDraw
  refine ⟨gcmFinish .dec u.desc.s0Len.toNat iv aad y u.takeDraw, ?_, by rw [gcmFinish_status]; rfl, ?_, ?_, ?_⟩
  · rw [exec_gcmUpdate_of_checked hcU hyU haadU hivU, if_pos hdraw]
  · exact plain ▸ held
  · exact (congrArg Context.tag hctxU).trans (tag.trans (congrArg Context.tag hctxS).symm)
  · exact congrArg Context.tagValid hctxU

end Sys2Proof.Machine
end

section
/-! SUPPORT. The value of a field element and its 16 bytes (43_gf128_ghash.md R170 to R172). -/

namespace Sys2Proof.Machine

theorem GF128.toNat_value (e : GF128) : e.value.toNat = e.hi.toNat * 256 ^ 8 + e.lo.toNat := by
  rw [GF128.value, BitVec.toNat_append, ← Nat.shiftLeft_add_eq_or_of_lt e.lo.isLt, Nat.shiftLeft_eq]
  rfl

/-- The two halves are the digits of the value above and below 2^64. -/
theorem GF128.toBytes_eq_bytesOfBlock (e : GF128) : e.toBytes = bytesOfBlock e.value := by
  have high : (e.hi.toNat * 256 ^ 8 + e.lo.toNat) / 256 ^ 8 = e.hi.toNat := by
    have := e.lo.isLt
    omega
  rw [bytesOfBlock, beBytes_add 8 8, e.toNat_value, high, beBytes_add_mul, GF128.toBytes]

/-- int(B) is made of the integers of the two halves of B (R171). -/
theorem GF128.toNat_value_ofBytes {b : Bytes} (hb : b.length = 16) :
    (GF128.ofBytes b).value.toNat = beValue b := by
  have low : (b.drop 8).take 8 = b.drop 8 := List.take_of_length_le (by simp [hb])
  have halves : beValue b = beValue (b.take 8) * 256 ^ 8 + beValue (b.drop 8) := by
    conv_lhs => rw [← List.take_append_drop 8 b, beValue_append]
    simp [hb]
  have hhi := beValue_lt (b.take 8)
  have hlo := beValue_lt (b.drop 8)
  rw [List.length_take_of_le (by omega)] at hhi
  rw [List.length_drop, hb] at hlo
  rw [GF128.toNat_value, GF128.ofBytes, low, halves, BitVec.toNat_ofNat, BitVec.toNat_ofNat]
  omega

theorem GF128.value_ofBytes {b : Bytes} (hb : b.length = 16) :
    (GF128.ofBytes b).value = blockOfBytes b := by
  rw [blockOfBytes, ← GF128.toNat_value_ofBytes hb, BitVec.ofNat_toNat, BitVec.setWidth_eq]

theorem GF128.toBytes_ofBytes {b : Bytes} (hb : b.length = 16) : (GF128.ofBytes b).toBytes = b := by
  rw [GF128.toBytes_eq_bytesOfBlock, GF128.value_ofBytes hb, bytesOfBlock_blockOfBytes hb]

/-- The first 8 bytes of toBytes are those of hi and the other 8 those of lo, and 8 bytes hold all of a half. -/
theorem GF128.ofBytes_toBytes (e : GF128) : GF128.ofBytes e.toBytes = e := by
  have half (x : BitVec 64) : BitVec.ofNat 64 (beValue (beBytes 8 x.toNat)) = x := by
    rw [beValue_beBytes x.isLt, BitVec.ofNat_toNat, BitVec.setWidth_eq]
  rw [GF128.ofBytes, GF128.toBytes, List.take_left' (length_beBytes _ _), List.drop_left' (length_beBytes _ _),
    List.take_of_length_le (length_beBytes _ _).le, half, half]

end Sys2Proof.Machine
end

section
/-! PROOFS. The statements about the bytes of field elements and about GHASH (43_gf128_ghash.md). -/

namespace Sys2Proof.Machine

/-- Settles O46: both byte forms are those of the 128-bit value, whose high and low digits are hi and lo. -/
theorem elementSerializationIsInverse : Obligations.ElementSerializationIsInverse :=
  ⟨fun _ hb => ⟨GF128.toBytes_ofBytes hb, GF128.toNat_value_ofBytes hb⟩,
    fun e => ⟨rfl, e.ofBytes_toBytes, e.toBytes_eq_bytesOfBlock⟩⟩

/-- Settles O50: a whole chunk in front is folded first, and a short chunk is its own only chunk. -/
theorem ghashFoldsZeroPaddedChunks : Obligations.GhashFoldsZeroPaddedChunks := by
  refine ⟨ghashUpdate_nil, fun acc h chunk rest h16 => ?_, fun acc h chunk hpos hlt => ?_,
    fun acc h data => (ghashUpdate_zeroPadded acc h data).symm⟩
  · rw [ghashUpdate_append acc h rest (by omega), ghashUpdate_block acc h h16]
  · rw [ghashUpdate_of_pos acc h hpos, List.take_of_length_le hlt.le, List.drop_eq_nil_of_le hlt.le,
      ghashUpdate_nil, fixedBlock_append_zeros hlt.le, zeros]

end Sys2Proof.Machine
end

section
/-! SUPPORT. A CMD write as a step, the word of an error report, what a command that ends in an error leaves, and
what a halted engine can still change (60_exceptions.md R205, R206, R211). -/

namespace Sys2Proof.Machine

/-! ### A CMD write as a step -/

/-- A host write of CMD is the common command step, with the operation taken (R104). -/
theorem step_writeCmd {s : State} {w : Word} {rest : List HostOp} (h : s.host = .writeReg 0x000 w :: rest) :
    step s = writeCmd w { s with host := rest } := step_of_host h

/-- A halted engine ignores the word (R205). -/
theorem writeCmd_of_halted {s : State} (h : s.status.halted = true) (w : Word) : writeCmd w s = .next s := by
  rw [writeCmd, if_pos h]

/-- A word that is no command is reported, and no command runs (R206). -/
theorem step_of_reject {s : State} {w : Word} {r : Reject} {rest : List HostOp}
    (hhost : s.host = .writeReg 0x000 w :: rest) (hrun : s.status.halted = false) (hd : decode w = .error r) :
    step s = .next (raise (opcField w) (.illegal r) { s with host := rest, cmd := w }) := by
  rw [step_writeCmd hhost]
  simp [writeCmd, State.setCmd, hrun, hd]

/-- A command runs with its word in CMD (R104). -/
theorem step_of_decode {s : State} {w : Word} {i : Instr} {rest : List HostOp}
    (hhost : s.host = .writeReg 0x000 w :: rest) (hrun : s.status.halted = false) (hd : decode w = .ok i) :
    step s = exec i { s with host := rest, cmd := w } := by
  rw [step_writeCmd hhost]
  simp [writeCmd, State.setCmd, hrun, hd]

/-! ### The word of an error report -/

/-- LAST_OPC of a written word is that word's low byte (R25). -/
theorem setWidth_opcField (w : Word) : (opcField w).setWidth 32 = w &&& 0xFF := by
  apply BitVec.eq_of_toNat_eq
  have mask : (0xFF : Word).toNat = 2 ^ 8 - 1 := rfl
  rw [opcField, BitVec.toNat_setWidth_of_le (by decide), BitVec.toNat_setWidth, BitVec.toNat_and, mask,
    Nat.and_two_pow_sub_one_eq_mod]

/-- The report of an error: its code, the command's low byte, its detail, and bit 31 for code 3 (R25, R211). -/
theorem errorStatus_word (w : Word) (e : CmdError) :
    (errorStatus (opcField w) e).word = e.code.value.setWidth 32 ||| ((w &&& 0xFF) <<< 8) |||
      (e.detail.setWidth 32 <<< 16) ||| (if e.code = .preconditionViolation then 0x80000000 else 0) := by
  rw [← setWidth_opcField]
  by_cases h : e.code = .preconditionViolation <;> simp [Status.word, errorStatus, bitWord, h]

/-! ### A command that ends in an error -/

/-- Every length error is a PRECONDITION_VIOLATION, by the rows of `lengthError` (R79, R203). -/
theorem code_of_lengthError {i : Instr} {s : State} {e : CmdError} (h : lengthError i s = some e) :
    e.code = .preconditionViolation := by
  unfold lengthError at h
  split at h <;> grind [CmdError.code]

/-- The codes that checks 3 to 6 of R209 report. -/
theorem code_of_checkedError {i : Instr} {s : State} {e : CmdError} (h : checkedError i s = some e) :
    e.code = .noContext ∨ e.code = .modeMismatch ∨ e.code = .preconditionViolation := by
  have operands (h : (if (usedSpans i s).all s.inBuf then lengthError i s else some .bufRange) = some e) :
      e.code = .preconditionViolation := by
    split at h
    · exact code_of_lengthError h
    · cases h; rfl
  unfold checkedError at h
  split at h
  · split at h
    · cases h; exact .inl rfl
    · split at h
      · cases h; exact .inr (.inl rfl)
      · exact .inr (.inr (operands h))
  · exact .inr (.inr (operands h))

/-- The error empties this slot: CTX_CREATE of it ends in UNSUPPORTED_ALGORITHM or PRIMITIVE_FAILURE (R107, R211). -/
def emptiesSlot (i : Instr) (e : CmdError) (c : Dir) : Prop :=
  (∃ m a, i = .ctxCreate c m a) ∧ (e.code = .unsupportedAlgorithm ∨ e.code = .primitiveFailure)

/-- What a command that ends in the error leaves (R211); the draws are the environment's. -/
structure ErrorEntry (i : Instr) (e : CmdError) (s t : State) : Prop where
  frame : t = { s with status := errorStatus i.opcode.code e, resLen := 0, ctx0 := t.ctx0, ctx1 := t.ctx1,
                       draws := t.draws, drawCount := t.drawCount }
  emptied : ∀ c, emptiesSlot i e c → t.ctx c = Context.empty
  kept : ∀ c, ¬ emptiesSlot i e c → t.ctx c = s.ctx c

/-- An error that empties no slot. -/
theorem ErrorEntry.of_kept {i : Instr} {e : CmdError} {s u : State} (hu : u = s ∨ u = s.takeDraw)
    (h : ∀ c, ¬ emptiesSlot i e c) : ErrorEntry i e s (raise i.opcode.code e u) := by
  refine ⟨?_, fun c hc => absurd hc (h c), fun c _ => ?_⟩
  · rcases hu with rfl | rfl <;> rfl
  · rcases hu with rfl | rfl <;> simp

/-- A construction error of CTX_CREATE, which empties the slot the command names and no other. -/
theorem ErrorEntry.of_created {c : Dir} {m : Mode} {a : Alg} {e : CmdError} {s u : State}
    (he : e.code = .unsupportedAlgorithm ∨ e.code = .primitiveFailure)
    (hu : u = s.setCtx c Context.empty ∨ u = (s.setCtx c Context.empty).takeDraw) :
    ErrorEntry (.ctxCreate c m a) e s (raise 0x10 e u) := by
  refine ⟨?_, fun d hd => ?_, fun d hd => ?_⟩
  · cases c <;> rcases hu with rfl | rfl <;> rfl
  · obtain ⟨⟨m', a', hi⟩, -⟩ := hd
    cases hi
    rcases hu with rfl | rfl <;> simp
  · have hne : d ≠ c := fun h => hd ⟨⟨m, a, h ▸ rfl⟩, he⟩
    rcases hu with rfl | rfl <;> simp [setCtx_ctx_of_ne s c d _ hne]

/-- Every command that does not end in OK ends in an error of R211. -/
theorem exec_failed {i : Instr} {s t : State} (h : exec i s = .next t) (herr : t.status.code ≠ .ok) :
    ∃ e, ErrorEntry i e s t := by
  have hend := exec_end i s
  rw [h] at hend
  cases hend with
  | checkFailed e hc =>
    exact ⟨e, .of_kept (.inl rfl) fun c ⟨_, hcode⟩ => by
      rcases code_of_checkedError hc with he | he | he <;> simp [he] at hcode⟩
  | unsupported c m a e hi he => exact ⟨e, hi ▸ .of_created (.inl he) (.inl rfl)⟩
  | createFailed c a hi => exact ⟨.inCreate, hi ▸ .of_created (.inr rfl) (.inr rfl)⟩
  | updateFailed hi =>
    exact ⟨.inUpdate, .of_kept (.inr rfl) fun c ⟨⟨m, a, hcreate⟩, _⟩ => by simp [hcreate] at hi⟩
  | _ => exact absurd rfl herr

/-! ### A halted engine -/

/-- While HALTED = 1 a host operation other than reset changes the descriptors, BUF and the model's own fields at
most (R205). -/
theorem perform_of_halted {op : HostOp} {s t : State} (hs : s.status.halted = true) (hop : op ≠ .reset)
    (h : perform op s = .next t) :
    t = { s with desc := t.desc, buf := t.buf, host := t.host, reads := t.reads } := by
  cases op with
  | reset => exact absurd rfl hop
  | writeReg o v =>
    rcases hostWriteReg_cases h with rfl | ⟨-, hw⟩ | ⟨r, -, -, rfl⟩
    · rfl
    · rw [writeCmd_of_halted hs] at hw
      cases hw
      rfl
    · rw [writeReg_frame]
  | readReg o =>
    simp only [perform, hostReadReg] at h
    split at h <;> cases h
    rfl
  | writeBuf a b =>
    simp only [perform, hostWriteBuf] at h
    split at h <;> cases h
    rfl
  | readBuf a =>
    simp only [perform, hostReadBuf] at h
    split at h
    · split at h <;> cases h
      rfl
    · cases h
  | haltCheck =>
    simp only [perform, hostHaltCheck] at h
    split at h <;> cases h <;> rfl
  | secondAgent => cases h

/-- While HALTED = 1 a step other than a reset leaves CMD, STATUS, RES_LEN and the contexts (R205). -/
theorem step_of_halted {s t : State} (hs : s.status.halted = true) (hop : s.host.head? ≠ some .reset)
    (h : step s = .next t) :
    t = { s with desc := t.desc, buf := t.buf, host := t.host, reads := t.reads } := by
  cases hhost : s.host with
  | nil =>
    rw [step_of_idle hhost] at h
    cases h
    rfl
  | cons op rest =>
    rw [step_of_host hhost] at h
    exact perform_of_halted (s := { s with host := rest }) hs (fun e => hop (by rw [hhost, e]; rfl)) h

/-! ### Host accesses as steps -/

/-- A host write of a BUF byte (R52). -/
theorem step_writeBuf {s : State} {a : Nat} {b : Byte} {rest : List HostOp} (ha : a < s.config.bufBytes)
    (h : s.host = .writeBuf a b :: rest) :
    step s = .next { s with host := rest, buf := s.buf.write a b } := by
  rw [step_of_host h]
  simp [perform, hostWriteBuf, bufAddressOk, ha]

/-- A host read of a written BUF byte (R52). -/
theorem step_readBuf {s : State} {a : Nat} {b : Byte} {rest : List HostOp} (ha : a < s.config.bufBytes)
    (hb : s.buf.read a = some b) (h : s.host = .readBuf a :: rest) :
    step s = .next { s with host := rest, reads := s.reads ++ [.byte a b] } := by
  rw [step_of_host h]
  simp [perform, hostReadBuf, bufAddressOk, State.logRead, ha, hb]

/-- The host's pending operations are at no offset of the window. -/
@[simp] theorem readOffset_setHost (o : Nat) (s : State) (ops : List HostOp) :
    readOffset o { s with host := ops } = readOffset o s := by
  unfold readOffset
  split <;> simp

/-- A host read at an offset of the window (R51). -/
theorem step_readReg {s : State} {o : Nat} {rest : List HostOp} (ho : regOffsetOk o = true)
    (h : s.host = .readReg o :: rest) :
    step s = .next { s with host := rest, reads := s.reads ++ [.reg o (readOffset o s)] } := by
  rw [step_of_host h]
  simp [perform, hostReadReg, State.logRead, ho]

end Sys2Proof.Machine
end

section
/-! PROOFS. The statements about illegal words, the halted engine and error entry (60_exceptions.md). -/

namespace Sys2Proof.Machine

/-- Settles O8: the step raises the rejection, whose report has no halted bit. -/
theorem illegalWordIsReported : Obligations.IllegalWordIsReported := by
  intro s w r rest hhost hrun hdecode
  refine ⟨_, step_of_reject hhost hrun hdecode, ?_, rfl⟩
  rw [raise_status, errorStatus_word]
  cases r <;> simp [CmdError.code, CmdError.detail, Code.value]

/-- Settles O9: an error report halts for that code, and a halted engine still performs every access but a command. -/
theorem haltedEngineIgnoresCommands : Obligations.HaltedEngineIgnoresCommands := by
  refine ⟨fun i s t h hcode => ?_, fun s rest hs => ⟨fun w h => ?_, fun o v ho h => ?_, fun a b ha h => ?_,
    fun a b ha hb h => step_readBuf ha hb h, fun o halign hle h => ?_, fun t hop h => ?_⟩⟩
  · obtain ⟨e, frame, -, -⟩ := exec_failed h (by simp [hcode])
    have hstatus : t.status = errorStatus i.opcode.code e := congrArg State.status frame
    rw [hstatus] at hcode ⊢
    exact beq_iff_eq.2 hcode
  · exact (step_writeCmd h).trans (writeCmd_of_halted (s := { s with host := rest }) hs w)
  · obtain ⟨t, hstep, hread, -⟩ := descriptorsReadBackAsWritten.1 s o v rest ho h
    exact ⟨t, hstep, hread⟩
  · exact ⟨_, step_writeBuf ha h, Memory.read_write_same s.buf a b⟩
  · exact step_readReg (by simp [regOffsetOk, halign, hle]) h
  · rw [step_of_halted hs hop h]
    exact hs

/-- Settles O37: the word is rejected and no context is touched, or its command ends as R211 says. -/
theorem failedCommandsChangeOnlyTheReport : Obligations.FailedCommandsChangeOnlyTheReport := by
  intro s t w rest hhost hrun hstep herr
  cases hdecode : decode w with
  | error r =>
    rw [step_of_reject hhost hrun hdecode] at hstep
    cases hstep
    refine ⟨errorStatus_word w _, fun c m a hd => ?_, fun c _ => ?_, rfl⟩
    · cases hd
    · cases c <;> rfl
  | ok i =>
    rw [step_of_decode hhost hrun hdecode] at hstep
    obtain ⟨hopc, -, -⟩ := decode_ok hdecode
    obtain ⟨e, frame, emptied, kept⟩ := exec_failed hstep herr
    rw [hopc] at frame
    have hstatus : t.status = errorStatus (opcField w) e := congrArg State.status frame
    rw [hstatus]
    refine ⟨errorStatus_word w e, fun c m a hd hcode => ?_, fun c hc => ?_, frame⟩
    · cases hd
      exact emptied c ⟨⟨m, a, rfl⟩, hcode⟩
    · have hkept := kept c fun ⟨⟨m, a, hi⟩, hcode⟩ => hc ⟨⟨m, a, hi ▸ rfl⟩, hcode⟩
      exact hkept.trans (by cases c <;> rfl)

end Sys2Proof.Machine
end

section
/-! PROOFS. The statement about the way out of HALTED (70_reset_and_hazards.md R231). -/

namespace Sys2Proof.Machine

/-- Settles O10: a halted engine's other steps reach its descriptors and BUF at most, and a reset is performed
whatever the state. -/
theorem onlyResetLeavesHalted : Obligations.OnlyResetLeavesHalted := by
  intro s hs
  constructor
  · intro t hstep hop
    rw [step_of_halted hs hop hstep]
    exact ⟨rfl, rfl, rfl, fun c => by cases c <;> rfl⟩
  · intro hreset
    obtain ⟨rest, hhost⟩ := List.head?_eq_some_iff.1 hreset
    exact ⟨resetEngine { s with host := rest }, step_of_host hhost, rfl⟩

end Sys2Proof.Machine
end

section
/-! SUPPORT. The fields of a command word as pieces of the word, and the word of an assembled line
(30_encoding.md R70 to R78, R81). -/

namespace Sys2Proof

/-! ### The encoding of a field is the word's own bits -/

theorem ctxField_bits (w : Word) : (ctxField w).bits <<< 8 = w &&& 0x00000100 := by
  rw [show (0x00000100 : Word) = BitVec.twoPow 32 8 from rfl, BitVec.and_twoPow, ctxField]
  cases w.getLsbD 8 <;> rfl

theorem modeField_bits (w : Word) : (modeField w).bits <<< 9 = w &&& 0x00000200 := by
  rw [show (0x00000200 : Word) = BitVec.twoPow 32 9 from rfl, BitVec.and_twoPow, modeField]
  cases w.getLsbD 9 <;> rfl

theorem algField_bits (w : Word) : (algField w).bits <<< 10 = w &&& 0x00000C00 := by
  rw [show (0x00000C00 : Word) = BitVec.twoPow 32 11 ||| BitVec.twoPow 32 10 from rfl,
    BitVec.and_or_distrib_left, BitVec.and_twoPow, BitVec.and_twoPow, algField]
  cases w.getLsbD 11 <;> cases w.getLsbD 10 <;> rfl

theorem ivoField_bits (w : Word) : bitWord (ivoField w) <<< 12 = w &&& 0x00001000 := by
  rw [show (0x00001000 : Word) = BitVec.twoPow 32 12 from rfl, BitVec.and_twoPow, ivoField]
  cases w.getLsbD 12 <;> rfl

/-- The fields a command takes from a word encode as that word's variable bits (R72 to R76). -/
theorem Opcode.fieldBits_command (op : Opcode) (w : Word) :
    (op.command w).fieldBits = w &&& op.varMask := by
  cases op with
  | nop | fbOf | fbXor | gfMul | ghash => exact BitVec.and_zero.symm
  | ctxCreate =>
    simp only [Opcode.command, Instr.fieldBits, Opcode.varMask]
    rw [ctxField_bits, modeField_bits, algField_bits, ← BitVec.and_or_distrib_left,
      ← BitVec.and_or_distrib_left]
    rfl
  | ctxDestroy | cbcReseed | gcmUpdate => exact ctxField_bits w
  | cbcUpdate =>
    simp only [Opcode.command, Instr.fieldBits, Opcode.varMask]
    rw [ctxField_bits, ivoField_bits, ← BitVec.and_or_distrib_left]
    rfl

/-- A word without a bit outside a mask is its part under that mask. -/
theorem and_eq_self_of_and_not_eq_zero {w m : Word} (h : w &&& ~~~m = 0) : w &&& m = w := by
  have split : w &&& (m ||| ~~~m) = w := by rw [BitVec.or_not_self, BitVec.and_allOnes]
  rw [BitVec.and_or_distrib_left, h] at split
  simpa using split

/-! ### The fields of an encoding are the command's -/

theorem tableRow (i : Instr) : Laws.TableRow.Statement i := by
  cases i with
  | nop => exact Laws.TableRow.nop
  | fbOf => exact Laws.TableRow.fbOf
  | fbXor => exact Laws.TableRow.fbXor
  | gfMul => exact Laws.TableRow.gfMul
  | ghash => exact Laws.TableRow.ghash
  | ctxCreate c mode alg => exact Laws.TableRow.ctxCreate c mode alg
  | ctxDestroy c => exact Laws.TableRow.ctxDestroy c
  | cbcReseed c => exact Laws.TableRow.cbcReseed c
  | cbcUpdate c ivo => exact Laws.TableRow.cbcUpdate c ivo
  | gcmUpdate c => exact Laws.TableRow.gcmUpdate c

theorem Opcode.command_encode (i : Instr) : i.opcode.command (encode i) = i := by
  cases i with
  | nop | fbOf | fbXor | gfMul | ghash => rfl
  | ctxCreate c mode alg => cases c <;> cases mode <;> cases alg <;> rfl
  | ctxDestroy c | cbcReseed c | gcmUpdate c => cases c <;> rfl
  | cbcUpdate c ivo => cases c <;> cases ivo <;> rfl

theorem decode_encode (i : Instr) : decode (encode i) = .ok i := by
  obtain ⟨hcode, hz⟩ := (selects_iff (encode i) i.opcode).1 (tableRow i).1
  rw [decode_of_fields hcode hz, Opcode.command_encode]

/-! ### The fields as numbers -/

/-- A piece of one bit is that bit as a number. -/
theorem bitWord_getLsbD (w : Word) (j : Nat) : bitWord (w.getLsbD j) = (w.extractLsb' j 1).setWidth 32 := by
  rw [BitVec.getLsbD_eq_extractLsb']
  generalize w.extractLsb' j 1 = b
  revert b
  decide

theorem ctxField_eq (w : Word) : (ctxField w).bits = (w.extractLsb' 8 1).setWidth 32 := by
  rw [← bitWord_getLsbD, ctxField]
  cases w.getLsbD 8 <;> rfl

theorem modeField_eq (w : Word) : (modeField w).bits = (w.extractLsb' 9 1).setWidth 32 := by
  rw [← bitWord_getLsbD, modeField]
  cases w.getLsbD 9 <;> rfl

theorem ivoField_eq (w : Word) : bitWord (ivoField w) = (w.extractLsb' 12 1).setWidth 32 :=
  bitWord_getLsbD w 12

/-- ALG is w[11] in front of w[10] (R75). -/
theorem algField_eq (w : Word) : (algField w).bits = (w.extractLsb' 10 2).setWidth 32 := by
  have pair : w.extractLsb' 11 1 ++ w.extractLsb' 10 1 = w.extractLsb' 10 2 :=
    BitVec.extractLsb'_append_extractLsb'_eq_extractLsb' rfl
  rw [algField, BitVec.getLsbD_eq_extractLsb', BitVec.getLsbD_eq_extractLsb', ← pair]
  generalize w.extractLsb' 11 1 = hi
  generalize w.extractLsb' 10 1 = lo
  revert hi lo
  decide

/-! ### The decode step -/

theorem opcField_eq_extractLsb' (w : Word) : opcField w = w.extractLsb' 0 8 :=
  BitVec.setWidth_eq_extractLsb' (by decide)

/-- The context a command addresses is its word's CTX field (R73). -/
theorem ctxField_of_addressed {op : Opcode} {w : Word} {c : Dir}
    (h : Machine.addressed (op.command w) = some c) : c = ctxField w := by
  cases op with
  | nop | fbOf | fbXor | gfMul | ghash => cases h
  | ctxCreate | ctxDestroy | cbcReseed | cbcUpdate | gcmUpdate => exact (Option.some.inj h).symm

theorem Opcode.command_eq_ctxCreate {op : Opcode} {w : Word} {c : Dir} {m : Mode} {a : Alg}
    (h : op.command w = .ctxCreate c m a) : c = ctxField w ∧ m = modeField w ∧ a = algField w := by
  cases op <;> cases h
  exact ⟨rfl, rfl, rfl⟩

theorem Opcode.command_eq_cbcUpdate {op : Opcode} {w : Word} {c : Dir} {ivo : Bool}
    (h : op.command w = .cbcUpdate c ivo) : c = ctxField w ∧ ivo = ivoField w := by
  cases op <;> cases h
  exact ⟨rfl, rfl⟩

/-- An OPC that no opcode has is reserved (R78). -/
theorem decode_of_unassigned {w : Word} (h : ∀ op : Opcode, op.code ≠ opcField w) :
    decode w = .error .opcReserved := by
  unfold decode
  cases hop : Opcode.ofByte (opcField w) with
  | none => rfl
  | some op => exact absurd (Opcode.code_of_ofByte hop) (h op)

/-- An assigned OPC with a bit outside its fields is rejected (R77). -/
theorem decode_of_reserved_bits {w : Word} {op : Opcode} (h : op.code = opcField w)
    (hz : w &&& ~~~(0x000000FF ||| op.varMask) ≠ 0) : decode w = .error .bitsReserved := by
  unfold decode
  rw [← h, Opcode.ofByte_code]
  exact if_neg hz

/-! ### Assembled lines -/

/-- The command a mnemonic line stands for, an absent field 0 (R81). -/
def Machine.AsmFields.command (f : Machine.AsmFields) : Opcode → Instr
  | .nop => .nop
  | .fbOf => .fbOf
  | .fbXor => .fbXor
  | .gfMul => .gfMul
  | .ghash => .ghash
  | .ctxCreate => .ctxCreate (f.ctx.getD .enc) (f.mode.getD .cbc) (f.alg.getD .null)
  | .ctxDestroy => .ctxDestroy (f.ctx.getD .enc)
  | .cbcReseed => .cbcReseed (f.ctx.getD .enc)
  | .cbcUpdate => .cbcUpdate (f.ctx.getD .enc) (f.ivo.getD false)
  | .gcmUpdate => .gcmUpdate (f.ctx.getD .enc)

@[simp] theorem Machine.AsmFields.opcode_command (f : Machine.AsmFields) (op : Opcode) :
    (f.command op).opcode = op := by cases op <;> rfl

/-- A field the mnemonic does not use is absent from a line the assembler takes (R72, R81). -/
theorem Machine.AsmFields.wellFormed_iff (f : Machine.AsmFields) (op : Opcode) :
    f.wellFormed op = true ↔
      (op ∈ [.nop, .fbOf, .fbXor, .gfMul, .ghash] → f.ctx = none) ∧
        (op ≠ .ctxCreate → f.mode = none ∧ f.alg = none) ∧ (op ≠ .cbcUpdate → f.ivo = none) := by
  cases op <;> simp [Machine.AsmFields.wellFormed, Opcode.varMask, and_assoc]

/-- The word of a line is the encoding of the command it stands for. -/
theorem Machine.assemble_of_wellFormed {f : Machine.AsmFields} {op : Opcode} (h : f.wellFormed op = true) :
    Machine.assemble op f = some (encode (f.command op)) := by
  obtain ⟨hctx, hcreate, hivo⟩ := (f.wellFormed_iff op).1 h
  rw [Machine.assemble, if_pos h]
  cases op <;> simp_all [encode, Machine.AsmFields.command, Instr.opcode, Instr.fieldBits, Dir.bits, Mode.bits,
    Alg.bits, bitWord, BitVec.or_assoc]

theorem Machine.assemble_of_not_wellFormed {f : Machine.AsmFields} {op : Opcode}
    (h : f.wellFormed op = false) : Machine.assemble op f = none := by
  simp [Machine.assemble, h]

end Sys2Proof
end

section
/-! PROOFS. The statements about the encoding of commands and about assembled lines (30_encoding.md). -/

namespace Sys2Proof

/-- Settles O2: the word is its OPC and its variable bits, and the encoding has the same two parts. -/
theorem encodeOfDecodeIsTheWord : Obligations.EncodeOfDecodeIsTheWord := by
  intro w i h
  obtain ⟨hcode, hz, hi⟩ := decode_ok h
  have hfields : i.fieldBits = w &&& i.opcode.varMask := by
    rw [hi, Opcode.fieldBits_command, Opcode.opcode_command]
  rw [encode, hcode, Machine.setWidth_opcField, hfields, ← BitVec.and_or_distrib_left]
  exact and_eq_self_of_and_not_eq_zero hz

/-- Settles O1: the encoding selects its own row, and its fields are the command's. -/
theorem decodeOfEncodeIsTheCommand : Obligations.DecodeOfEncodeIsTheCommand :=
  fun i _ => decode_encode i

/-- Settles O4: by the three ends of the decode step; the fields are the pieces of the word. -/
theorem decodeIsTotalAndNamesItsRejections : Obligations.DecodeIsTotalAndNamesItsRejections := by
  intro w
  simp only [← opcField_eq_extractLsb']
  refine ⟨decode_of_unassigned, fun op hop => ⟨decode_of_reserved_bits hop, fun hz => ?_⟩⟩
  refine ⟨op.command w, decode_of_fields hop hz, op.opcode_command w, fun c m a hi => ?_, fun c hc => ?_,
    fun c o hi => ?_⟩
  · obtain ⟨rfl, rfl, rfl⟩ := Opcode.command_eq_ctxCreate hi
    exact ⟨ctxField_eq w, modeField_eq w, algField_eq w⟩
  · rw [ctxField_of_addressed hc, ctxField_eq]
  · rw [(Opcode.command_eq_cbcUpdate hi).2, ivoField_eq]

/-- Settles O6: a line that assembles is the encoding of a command with the line's fields, and a field the
mnemonic does not use makes the line ill-formed. -/
theorem assembledLinesAreCommands : Obligations.AssembledLinesAreCommands := by
  constructor
  · intro op f w h
    cases hwf : f.wellFormed op with
    | false => simp [Machine.assemble_of_not_wellFormed hwf] at h
    | true =>
      rw [Machine.assemble_of_wellFormed hwf] at h
      cases h
      obtain ⟨hcode, -, -⟩ := decode_ok (decode_encode (f.command op))
      refine ⟨f.command op, decode_encode _, f.opcode_command op, by simpa using hcode.symm, fun c hc => ?_,
        fun c m a hi => ?_, fun c o hi => ?_⟩
      · cases op <;> cases hc <;> rfl
      · cases op <;> cases hi
        exact ⟨rfl, rfl⟩
      · cases op <;> cases hi
        rfl
  · intro op f h
    refine Machine.assemble_of_not_wellFormed (Bool.eq_false_iff.2 fun hwf => ?_)
    obtain ⟨hctx, hcreate, hivo⟩ := (f.wellFormed_iff op).1 hwf
    rcases h with ⟨hop, hm | ha⟩ | ⟨hop, hi⟩ | ⟨hop, hc⟩
    · exact hm (hcreate hop).1
    · exact ha (hcreate hop).2
    · exact hi (hivo hop)
    · exact hc (hctx hop)

/-- Settles O5: each word decodes by evaluation. -/
theorem workedEncodingsDecode : Obligations.WorkedEncodingsDecode := by
  unfold Obligations.WorkedEncodingsDecode
  decide

end Sys2Proof
end

section
/-! SUPPORT. What a host operation and a CMD write can do, said once, and what keeps the invariant of reachable
states (10_state.md R44, 20_memory.md R51, R52, 60_exceptions.md R205). -/

namespace Sys2Proof.Machine

/-! ### Every way a host operation can end -/

/-- The ways a CMD write can end: ignored, rejected, or the command run (R104, R205, R206). -/
theorem writeCmd_cases {w : Word} {s t : State} (h : writeCmd w s = .next t) :
    t = s ∨ (∃ r, t = raise (opcField w) (.illegal r) (s.setCmd w)) ∨
      ∃ i, decode w = .ok i ∧ exec i (s.setCmd w) = .next t := by
  unfold writeCmd at h
  split at h
  · cases h; exact .inl rfl
  · split at h
    · cases h; exact .inr (.inl ⟨_, rfl⟩)
    · rename_i i hi
      exact .inr (.inr ⟨i, hi, h⟩)

/-- The ways a host operation can end in a next state. -/
inductive HostEnd (s : State) : HostOp → State → Prop where
  /-- A reset. -/
  | reset : HostEnd s .reset (resetEngine s)
  /-- A write of CMD. -/
  | command (w : Word) {t : State} (h : writeCmd w s = .next t) : HostEnd s (.writeReg 0x000 w) t
  /-- A write of a BUF byte. -/
  | wroteBuf (a : Nat) (b : Byte) (ha : a < s.config.bufBytes) :
      HostEnd s (.writeBuf a b) { s with buf := s.buf.write a b }
  /-- Any other access: the descriptors and the model's own fields at most. -/
  | access {op : HostOp} {t : State}
      (h : t = { s with desc := t.desc, host := t.host, reads := t.reads }) : HostEnd s op t

theorem perform_end {op : HostOp} {s t : State} (h : perform op s = .next t) : HostEnd s op t := by
  cases op with
  | reset => cases h; exact .reset
  | writeReg o v =>
    rcases hostWriteReg_cases h with rfl | ⟨rfl, hw⟩ | ⟨r, -, -, rfl⟩
    · exact .access rfl
    · exact .command v hw
    · exact .access (by rw [writeReg_frame])
  | readReg o =>
    simp only [perform, hostReadReg] at h
    split at h <;> cases h
    exact .access rfl
  | writeBuf a b =>
    simp only [perform, hostWriteBuf] at h
    split at h <;> cases h
    rename_i ha
    exact .wroteBuf a b (of_decide_eq_true ha)
  | readBuf a =>
    simp only [perform, hostReadBuf] at h
    split at h
    · split at h <;> cases h
      exact .access rfl
    · cases h
  | haltCheck =>
    simp only [perform, hostHaltCheck] at h
    split at h <;> cases h <;> exact .access rfl
  | secondAgent => cases h

/-- A step does nothing where no operation is pending, and ends as its operation does otherwise. -/
theorem step_cases {s t : State} (h : step s = .next t) :
    t = s ∨ ∃ op rest, s.host = op :: rest ∧ HostEnd { s with host := rest } op t := by
  cases hhost : s.host with
  | nil =>
    rw [step_of_idle hhost] at h
    cases h
    exact .inl rfl
  | cons op rest =>
    rw [step_of_host hhost] at h
    exact .inr ⟨op, rest, rfl, perform_end h⟩

/-! ### Reports -/

/-- Every report of an error is one of R26 and R27. -/
theorem CmdError.report_mem (e : CmdError) : (e.code, e.detail) ∈ legalReports := by
  cases e with
  | illegal r => cases r <;> decide
  | _ => decide

theorem CmdError.code_ne_authenticationFailure (e : CmdError) : e.code ≠ .authenticationFailure := by
  cases e <;> simp [CmdError.code]

/-- Every command ends in the report of a success or of an error, under its own opcode. -/
theorem exec_status {i : Instr} {s t : State} (h : exec i s = .next t) :
    t.status = okStatus i.opcode.code ∨ ∃ e, t.status = errorStatus i.opcode.code e := by
  have hend := exec_end i s
  rw [h] at hend
  cases hend with
  | checkFailed e hc => exact .inr ⟨e, rfl⟩
  | unsupported c m a e hi => subst hi; exact .inr ⟨e, rfl⟩
  | createFailed c a hi => subst hi; exact .inr ⟨.inCreate, rfl⟩
  | updateFailed hi => exact .inr ⟨.inUpdate, rfl⟩
  | wrote n b hi => exact .inl rfl
  | _ => subst_vars; exact .inl rfl

/-- A success and an error halt exactly where their code is PRECONDITION_VIOLATION (R28, R211). -/
theorem exec_halted_iff {i : Instr} {s t : State} (h : exec i s = .next t) :
    t.status.halted = true ↔ t.status.code = .preconditionViolation := by
  rcases exec_status h with hs | ⟨e, hs⟩ <;> simp [hs]

/-! ### Contexts -/

theorem Context.empty_inv (p : Configuration) : Context.empty.Inv p := by
  constructor <;> simp [Context.empty]

/-- A context with a good key, its fields as CTX_CREATE sets them for its mode (R107). -/
theorem newContext_inv {p : Configuration} {m : Mode} {alg : Alg} {key : Bytes} {chain h : Block}
    (ha : alg = .aes128 ∨ alg = .aes256) (hk : p.keyOk alg key = true)
    (hh : h = match m with | .cbc => 0 | .gcm => Config.E alg key 0) :
    (newContext m alg key chain h).Inv p where
  empty_of_invalid h := by cases h
  alg_of_valid _ := ha
  key_of_valid _ := hk
  key_length _ := ((keyOk_iff p alg key).1 hk).1
  cbc_fields hm := by
    obtain rfl : m = .cbc := hm
    exact ⟨hh, rfl, rfl⟩
  gcm_subkey _ hm := by
    obtain rfl : m = .gcm := hm
    exact hh
  tag_of_untagged _ := rfl

/-- CHAIN of a valid context may hold any block. -/
theorem Context.Inv.setChain {p : Configuration} {x : Context} (inv : x.Inv p) (hv : x.valid = true)
    (chain : Block) : Context.Inv p { x with chain := chain } where
  empty_of_invalid h := absurd (hv.symm.trans h) (by decide)
  alg_of_valid := inv.alg_of_valid
  key_of_valid := inv.key_of_valid
  key_length := inv.key_length
  cbc_fields := inv.cbc_fields
  gcm_subkey := inv.gcm_subkey
  tag_of_untagged := inv.tag_of_untagged

/-- A valid GCM context may hold any CHAIN and any valid tag. -/
theorem Context.Inv.setTag {p : Configuration} {x : Context} (inv : x.Inv p) (hv : x.valid = true)
    (hm : x.mode = .gcm) (chain tag : Block) :
    Context.Inv p { x with chain := chain, tag := tag, tagValid := true } where
  empty_of_invalid h := absurd (hv.symm.trans h) (by decide)
  alg_of_valid := inv.alg_of_valid
  key_of_valid := inv.key_of_valid
  key_length := inv.key_length
  cbc_fields h := absurd (hm.symm.trans h) (by decide)
  gcm_subkey := inv.gcm_subkey
  tag_of_untagged h := by cases h

/-! ### What the invariant says of contexts and BUF -/

/-- The part of the invariant that is not about the report: a CMD write sets CMD before its command reports. -/
structure State.DataInv (s : State) : Prop where
  contexts : ∀ c, (s.ctx c).Inv s.config
  memory : s.buf.wf = true
  memory_range : s.buf.below s.config.bufBytes = true

theorem State.Inv.data {s : State} (inv : s.Inv) : s.DataInv := ⟨inv.contexts, inv.memory, inv.memory_range⟩

theorem State.DataInv.congr {s t : State} (inv : s.DataInv) (hc : ∀ c, t.ctx c = s.ctx c) (hb : t.buf = s.buf)
    (hp : t.config = s.config) : t.DataInv where
  contexts c := by rw [hc, hp]; exact inv.contexts c
  memory := by rw [hb]; exact inv.memory
  memory_range := by rw [hb, hp]; exact inv.memory_range

theorem State.DataInv.setCmd {s : State} (inv : s.DataInv) (w : Word) : (s.setCmd w).DataInv :=
  inv.congr (setCmd_ctx s w) rfl rfl

theorem State.DataInv.takeDraw {s : State} (inv : s.DataInv) : s.takeDraw.DataInv :=
  inv.congr (takeDraw_ctx s) rfl rfl

theorem State.DataInv.setCtx {s : State} (inv : s.DataInv) {c : Dir} {x : Context} (hx : x.Inv s.config) :
    (s.setCtx c x).DataInv where
  contexts d := by
    rw [setCtx_config]
    by_cases h : d = c
    · rw [h, setCtx_ctx]; exact hx
    · rw [setCtx_ctx_of_ne s c d x h]; exact inv.contexts d
  memory := by rw [setCtx_buf]; exact inv.memory
  memory_range := by rw [setCtx_buf, setCtx_config]; exact inv.memory_range

theorem State.DataInv.store {s : State} (inv : s.DataInv) {b : Bytes}
    (hb : s.desc.dAddr.toNat + b.length ≤ s.config.bufBytes) : (s.store b).DataInv where
  contexts c := by rw [store_ctx]; exact inv.contexts c
  memory := Memory.wf_writeBytes _ _ inv.memory
  memory_range := Memory.below_writeBytes _ hb inv.memory_range

/-! ### The ends of a command -/

theorem State.DataInv.raise {s : State} (inv : s.DataInv) {opc : Byte} (ho : opc = opcField s.cmd)
    (e : CmdError) : (raise opc e s).Inv where
  contexts c := by rw [raise_ctx]; exact inv.contexts c
  memory := inv.memory
  memory_range := inv.memory_range
  halted_iff := beq_iff_eq
  legal_report := e.report_mem
  last_opc := ho
  no_result _ := rfl
  result_fits := Nat.zero_le _

theorem State.DataInv.commit {s : State} (inv : s.DataInv) {opc : Byte} (ho : opc = opcField s.cmd) {n : Nat}
    (hn : n ≤ s.config.bufBytes) : (commit opc n s).Inv where
  contexts c := by rw [commit_ctx]; exact inv.contexts c
  memory := inv.memory
  memory_range := inv.memory_range
  halted_iff := by simp
  legal_report := List.mem_cons_self
  last_opc := ho
  no_result h := absurd rfl h
  result_fits := by
    rw [commit_resLen, commit_config, toNat_ofNat_of_inBuf (p := s.config) (a := 0) (by omega)]
    exact hn

theorem State.DataInv.publish {s : State} (inv : s.DataInv) {opc : Byte} (ho : opc = opcField s.cmd) {n : Nat}
    {b : Bytes} (hb : b.length = n) (hn : s.desc.dAddr.toNat + n ≤ s.config.bufBytes) :
    (publish opc n b s).Inv :=
  (inv.store (hb ▸ hn)).commit ho (by rw [store_config]; omega)

/-- A command ends in a state with the invariant where CMD holds its opcode: by the ways it can end. -/
theorem exec_inv {i : Instr} {s t : State} (inv : s.DataInv) (ho : i.opcode.code = opcField s.cmd)
    (h : exec i s = .next t) : t.Inv := by
  have hend := exec_end i s
  rw [h] at hend
  have emptied (c : Dir) : (s.setCtx c Context.empty).DataInv := inv.setCtx (Context.empty_inv _)
  cases hend with
  | checkFailed e hc => exact inv.raise ho e
  | unsupported c m a e hi =>
    subst hi
    exact (emptied c).raise (by rw [setCtx_cmd]; exact ho) e
  | createFailed c a hi =>
    subst hi
    exact (emptied c).takeDraw.raise (by rw [takeDraw_cmd, setCtx_cmd]; exact ho) _
  | updateFailed hi => exact inv.takeDraw.raise ho _
  | noOp hi =>
    subst hi
    exact inv.commit ho (Nat.zero_le _)
  | wrote n b hi hn hd => exact inv.publish ho hn hd
  | createdCbc c a key iv hi ha hk =>
    subst hi
    exact (inv.setCtx (newContext_inv ha hk rfl)).commit (by rw [setCtx_cmd]; exact ho) (Nat.zero_le _)
  | createdGcm c a key hi ha hk =>
    subst hi
    exact (inv.takeDraw.setCtx (newContext_inv ha hk rfl)).commit (by rw [setCtx_cmd]; exact ho) (Nat.zero_le _)
  | destroyed c hi =>
    subst hi
    exact (emptied c).commit (by rw [setCtx_cmd]; exact ho) (Nat.zero_le _)
  | reseeded c iv hi hv =>
    subst hi
    exact (inv.setCtx ((inv.contexts c).setChain hv iv)).commit (by rw [setCtx_cmd]; exact ho) (Nat.zero_le _)
  | cbcDone c ivo n b chain s' hi hs hv hm hn hd =>
    subst hi
    rcases hs with rfl | rfl
    · exact (inv.setCtx ((inv.contexts c).setChain hv chain)).publish (by rw [setCtx_cmd]; exact ho) hn
        (by rw [setCtx_desc, setCtx_config]; exact hd)
    · exact (inv.takeDraw.setCtx ((inv.contexts c).setChain hv chain)).publish (by rw [setCtx_cmd]; exact ho) hn
        (by rw [setCtx_desc, setCtx_config]; exact hd)
  | gcmDone c n b chain tag hi hv hm hn hd =>
    subst hi
    exact (inv.takeDraw.setCtx ((inv.contexts c).setTag hv hm chain tag)).publish (by rw [setCtx_cmd]; exact ho) hn
      (by rw [setCtx_desc, setCtx_config]; exact hd)

/-! ### Host operations -/

/-- The invariant does not speak of the descriptors and the model's own fields but the parameters. -/
theorem State.Inv.access {s t : State} (inv : s.Inv)
    (h : t = { s with desc := t.desc, host := t.host, reads := t.reads }) : t.Inv := by
  rw [h]
  exact ⟨fun c => by cases c <;> [exact inv.contexts .enc; exact inv.contexts .dec], inv.memory,
    inv.memory_range, inv.halted_iff, inv.legal_report, inv.last_opc, inv.no_result, inv.result_fits⟩

theorem resetEngine_inv (s : State) : (resetEngine s).Inv where
  contexts c := by rw [resetEngine_ctx]; exact Context.empty_inv _
  memory := Memory.wf_nil
  memory_range := rfl
  halted_iff := by simp [Status.reset]
  legal_report := List.mem_cons_self
  last_opc := rfl
  no_result _ := rfl
  result_fits := Nat.zero_le _

theorem State.Inv.writeBuf {s : State} (inv : s.Inv) {a : Nat} (b : Byte) (ha : a < s.config.bufBytes) :
    State.Inv { s with buf := s.buf.write a b } where
  contexts c := by cases c <;> [exact inv.contexts .enc; exact inv.contexts .dec]
  memory := Memory.wf_write a b inv.memory
  memory_range := Memory.below_write b ha inv.memory_range
  halted_iff := inv.halted_iff
  legal_report := inv.legal_report
  last_opc := inv.last_opc
  no_result := inv.no_result
  result_fits := inv.result_fits

theorem writeCmd_inv {w : Word} {s t : State} (inv : s.Inv) (h : writeCmd w s = .next t) : t.Inv := by
  rcases writeCmd_cases h with rfl | ⟨r, rfl⟩ | ⟨i, hi, hexec⟩
  · exact inv
  · exact (inv.data.setCmd w).raise rfl _
  · exact exec_inv (inv.data.setCmd w) (decode_ok hi).1 hexec

theorem HostEnd.inv {s t : State} {op : HostOp} (inv : s.Inv) (h : HostEnd s op t) : t.Inv := by
  cases h with
  | reset => exact resetEngine_inv s
  | command w h => exact writeCmd_inv inv h
  | wroteBuf a b ha => exact inv.writeBuf b ha
  | access h => exact inv.access h

/-! ### HALT_CHECK and the halted bit -/

theorem Status.getLsbD_word_halted (x : Status) : x.word.getLsbD 31 = x.halted := by
  cases h : x.halted <;> simp [Status.word, bitWord, h]

/-- HALT_CHECK reads STATUS and drops the rest of the program where HALTED is 1 (R82). -/
theorem step_haltCheck {s : State} {rest : List HostOp} (h : s.host = .haltCheck :: rest) :
    step s = .next { s with host := if s.status.halted then [] else rest,
                            reads := s.reads ++ [.reg 0x004 s.status.word] } := by
  rw [step_of_host h]
  simp only [perform, hostHaltCheck, readReg, Status.getLsbD_word_halted]
  cases s.status.halted <;> rfl

end Sys2Proof.Machine
end

section
/-! PROOFS. The statements about steps, host accesses, reset and the invariant (10_state.md, 20_memory.md,
70_reset_and_hazards.md). -/

namespace Sys2Proof.Machine

/-- Settles O45: no operation pending changes nothing, and every way an operation ends keeps the invariant. -/
theorem everyStepKeepsTheInvariant : Obligations.EveryStepKeepsTheInvariant := by
  intro s t inv h
  rcases step_cases h with rfl | ⟨op, rest, -, hend⟩
  · exact inv
  · exact hend.inv (inv.access rfl)

/-- Settles O44: State.reset is what a reset leaves of it. -/
theorem resetSatisfiesTheInvariant : Obligations.ResetSatisfiesTheInvariant := resetEngine_inv State.reset

/-- Settles O11: every operation but a command leaves STATUS or resets it, and a command halts as its report says. -/
theorem onlyPreconditionViolationHalts : Obligations.OnlyPreconditionViolationHalts := by
  refine ⟨fun s t hs h ht => ?_, fun i s t h => exec_halted_iff h⟩
  rcases step_cases h with rfl | ⟨op, rest, hhost, hend⟩
  · simp [hs] at ht
  · cases hend with
    | reset => cases ht
    | wroteBuf a b ha => simp [hs] at ht
    | access h => rw [h] at ht; simp [hs] at ht
    | command w h =>
      refine ⟨?_, w, rest, hhost⟩
      rcases writeCmd_cases h with rfl | ⟨r, rfl⟩ | ⟨i, -, hexec⟩
      · simp [hs] at ht
      · cases ht
      · exact (exec_halted_iff hexec).1 ht

/-- Settles O7: the write of CMD is taken, and its command runs with the word in CMD. -/
theorem stepRunsTheDecodedCommand : Obligations.StepRunsTheDecodedCommand :=
  fun _ _ _ _ hhost hrun hdecode => step_of_decode hhost hrun hdecode

/-- Settles O14: the rule of each access; a byte write reads back and leaves the other bytes. -/
theorem hostAccessesTakeEffect : Obligations.HostAccessesTakeEffect := by
  refine ⟨fun s o rest halign hle h => step_readReg (by simp [regOffsetOk, halign, hle]) h,
    fun s a b rest ha hb h => step_readBuf ha hb h, fun s a b rest ha h => ?_,
    fun s rest h => step_haltCheck h, fun s h => step_of_idle h⟩
  refine ⟨_, step_writeBuf ha h, by simp, by simp [Memory.written], fun x hx => ?_, rfl⟩
  exact Memory.read_write_of_ne _ b (by omega)

/-- Settles O15: each access fails its own test. -/
theorem malformedAccessesStop : Obligations.MalformedAccessesStop := by
  intro s rest
  refine ⟨fun o ho => ?_, fun a ha => ?_, fun a ha hread h => ?_, fun h => ?_⟩
  · have hok : regOffsetOk o = false := by simp only [regOffsetOk]; grind
    exact ⟨fun h => by rw [step_of_host h]; simp [perform, hostReadReg, hok],
      fun v h => by rw [step_of_host h]; simp [perform, hostWriteReg, hok]⟩
  · have hok : bufAddressOk s.config a = false := decide_eq_false (by omega)
    exact ⟨fun h => by rw [step_of_host h]; simp [perform, hostReadBuf, hok],
      fun b h => by rw [step_of_host h]; simp [perform, hostWriteBuf, hok]⟩
  · rw [step_of_host h]
    simp [perform, hostReadBuf, bufAddressOk, ha, hread]
  · rw [step_of_host h]
    rfl

/-- Settles O17: a reset is performed whatever the state. -/
theorem resetCompletes : Obligations.ResetCompletes := fun _ _ h => step_of_host h

end Sys2Proof.Machine
end

section
/-! SUPPORT. STATUS bit by bit, and which fields the registers show (10_state.md R25, R36). -/

namespace Sys2Proof.Machine

/-! ### The fields of the STATUS word -/

/-- Each bit of STATUS is a bit of the one field that stands there (R25). -/
theorem Status.getLsbD_word (x : Status) {i : Nat} (hi : i < 32) :
    x.word.getLsbD i =
      if i < 4 then x.code.value.getLsbD i
      else if i < 8 then false
      else if i < 16 then x.lastOpc.getLsbD (i - 8)
      else if i < 24 then x.detail.getLsbD (i - 16)
      else if i < 31 then false else x.halted := by
  have code : 4 ≤ i → x.code.value.getLsbD i = false := BitVec.getLsbD_of_ge _ _
  have lastOpc : 16 ≤ i → x.lastOpc.getLsbD (i - 8) = false := fun h => BitVec.getLsbD_of_ge _ _ (by omega)
  have detail : 24 ≤ i → x.detail.getLsbD (i - 16) = false := fun h => BitVec.getLsbD_of_ge _ _ (by omega)
  have halted : (bitWord x.halted).getLsbD (i - 31) = (decide (i - 31 = 0) && x.halted) := by
    cases x.halted <;> simp [bitWord]
  simp only [Status.word, BitVec.getLsbD_or, BitVec.getLsbD_shiftLeft, BitVec.getLsbD_setWidth, halted]
  grind

/-- A piece of a word whose bits are all those of a narrower value. -/
theorem extractLsb'_eq_of_getLsbD {x : Word} {start len : Nat} {v : BitVec len}
    (h : ∀ j < len, x.getLsbD (start + j) = v.getLsbD j) : x.extractLsb' start len = v := by
  apply BitVec.eq_of_getLsbD_eq
  intro j hj
  simp [hj, h j hj]

/-- The pieces of the STATUS word (R25). -/
theorem Status.word_fields (x : Status) :
    x.word.extractLsb' 0 4 = x.code.value ∧ x.word.extractLsb' 4 4 = 0 ∧
      x.word.extractLsb' 8 8 = x.lastOpc ∧ x.word.extractLsb' 16 8 = x.detail ∧
      x.word.extractLsb' 24 7 = 0 ∧ x.word.getLsbD 31 = x.halted := by
  refine ⟨?_, ?_, ?_, ?_, ?_, x.getLsbD_word_halted⟩ <;>
    refine extractLsb'_eq_of_getLsbD fun j hj => ?_ <;>
    rw [x.getLsbD_word (by omega)] <;> grind

/-! ### The registers without secrets -/

theorem sameButSecrets_ctx {s t : State} (h : s.sameButSecrets t) (c : Dir) :
    (s.ctx c).sameButSecrets (t.ctx c) := by
  obtain ⟨-, h0, h1⟩ := h
  cases c
  · exact h0
  · exact h1

/-- A register shows no field of a context but VALID, MODE, ALG, CHAIN, TAG and TAG_VALID (R36). -/
theorem readReg_of_sameButSecrets (r : Reg) {s t : State} (h : s.sameButSecrets t) :
    readReg r t = readReg r s := by
  have hctx (c : Dir) : t.ctx c = { s.ctx c with key := (t.ctx c).key, h := (t.ctx c).h } :=
    sameButSecrets_ctx h c
  have hrest := h.1
  cases r with
  | ctxCfg c =>
    simp only [readReg]
    rw [hctx c]
    rfl
  | ctxChain c k | ctxTag c k =>
    simp only [readReg]
    rw [hctx c]
  | _ => rw [hrest]; rfl

end Sys2Proof.Machine
end

section
/-! PROOFS. The statements about the STATUS word and about secrets (10_state.md). -/

namespace Sys2Proof.Machine

/-- Settles O18: the reports are a finite table, and STATUS is its fields bit by bit. -/
theorem statusWordLayout : Obligations.StatusWordLayout := by
  refine ⟨fun opc e => ⟨e.report_mem, e.code_ne_ok, e.code_ne_authenticationFailure⟩, fun opc => ?_, fun s => ?_⟩
  · exact ⟨rfl, rfl, rfl, rfl, rfl, rfl, rfl, rfl, rfl, rfl, rfl, rfl, rfl, rfl, rfl⟩
  · rw [readOffset_status]
    exact ⟨readOffset_offset .cmd s, readOffset_offset .resLen s, s.status.word_fields⟩

/-- Settles O22: at an unmapped offset both states read 0, and no register shows KEY or H. -/
theorem registerReadsHideSecrets : Obligations.RegisterReadsHideSecrets := by
  intro s t o h
  cases hr : Reg.ofOffset o with
  | none => rw [readOffset_of_unmapped hr, readOffset_of_unmapped hr]
  | some r =>
    rw [Reg.eq_offset_of_ofOffset hr, readOffset_offset, readOffset_offset]
    exact readReg_of_sameButSecrets r h

end Sys2Proof.Machine
end

section
/-! SUPPORT. gfMul as a polynomial in the multiplication by x, and the pair form of the loop (43_gf128_ghash.md
R173 to R175). -/

namespace Sys2Proof.Machine

/-! ### A first factor of one bit -/

theorem gfShiftN_succ (n : Nat) (v : Block) : gfShiftN (n + 1) v = gfShiftN n (gfShift v) := rfl

/-- A first factor x^k multiplies by x, k times: of the remaining tests only the one of its bit succeeds. -/
theorem gfLoop_twoPow {n k : Nat} (hk : k < n) (hn : n ≤ 128) (v : Block) :
    gfLoop (BitVec.twoPow 128 k) n 0 v = gfShiftN (n - 1 - k) v := by
  induction n generalizing v with
  | zero => omega
  | succ n ih =>
    rw [gfLoop_succ]
    by_cases hkn : k = n
    · have rest : gfLoop (BitVec.twoPow 128 k) n 0 (gfShift v) = 0 :=
        gfLoop_of_low_zero _ _ _ fun i hi => by grind
      have bit : (BitVec.twoPow 128 k).getLsbD n = true := by grind
      rw [rest, bit, if_pos rfl, show n + 1 - 1 - k = 0 by omega]
      exact BitVec.xor_zero
    · have bit : (BitVec.twoPow 128 k).getLsbD n = false := by grind
      rw [bit, ih (by omega) (by omega), ← gfShiftN_succ, show n - 1 - k + 1 = n + 1 - 1 - k by omega]
      simp

theorem gfMul_twoPow {k : Nat} (hk : k < 128) (v : Block) :
    gfMul (BitVec.twoPow 128 k) v = gfShiftN (127 - k) v := gfLoop_twoPow hk (Nat.le_refl _) v

theorem gfMul_one_left (y : Block) : gfMul (1 <<< 127) y = y := gfMul_twoPow (k := 127) (by decide) y

/-! ### The identity on the right -/

/-- Multiplication by x moves a bit down where none falls out. -/
theorem gfShift_twoPow {n : Nat} (hn : n + 1 < 128) :
    gfShift (BitVec.twoPow 128 (n + 1)) = BitVec.twoPow 128 n := by
  have low : (BitVec.twoPow 128 (n + 1)).getLsbD 0 = false := by simp
  rw [gfShift, low]
  apply BitVec.eq_of_getLsbD_eq
  intro j hj
  simp only [BitVec.getLsbD_ushiftRight, BitVec.getLsbD_twoPow, Bool.false_eq_true, if_false]
  grind

/-- From x^(127-n) on, the last n + 1 rounds collect the low n + 1 bits of the first factor. -/
theorem getLsbD_gfLoop_twoPow (x : Block) {n : Nat} (hn : n < 128) (j : Nat) :
    (gfLoop x (n + 1) 0 (BitVec.twoPow 128 n)).getLsbD j = (decide (j ≤ n) && x.getLsbD j) := by
  have round (n : Nat) : (if x.getLsbD n then BitVec.twoPow 128 n else 0).getLsbD j =
      (decide (n < 128) && decide (j = n) && x.getLsbD n) := by
    cases x.getLsbD n <;> simp [BitVec.getLsbD_twoPow, eq_comm]
  induction n with
  | zero =>
    rw [gfLoop_succ, BitVec.getLsbD_xor, round]
    simp [gfLoop]
    grind
  | succ n ih =>
    rw [gfLoop_succ, gfShift_twoPow hn, BitVec.getLsbD_xor, round, ih (by omega)]
    grind

theorem gfMul_one_right (x : Block) : gfMul x (1 <<< 127) = x := by
  apply BitVec.eq_of_getLsbD_eq
  intro j hj
  exact (getLsbD_gfLoop_twoPow x (n := 127) (by decide) j).trans (by simp; omega)

/-! ### Products commute -/

/-- The loops of two first factors are polynomials in the multiplication by x, so they commute. -/
theorem gfLoop_gfLoop_comm (x y : Block) (n m : Nat) (v : Block) :
    gfLoop x n 0 (gfLoop y m 0 v) = gfLoop y m 0 (gfLoop x n 0 v) := by
  induction n generalizing v with
  | zero => exact (gfLoop_zero_right y m).symm
  | succ n ih =>
    rw [gfLoop_succ, gfLoop_succ, ← gfLoop_gfShift, ih, gfLoop_xor_right]
    congr 1
    split
    · rfl
    · exact (gfLoop_zero_right y m).symm

theorem gfMul_left_comm (x y z : Block) : gfMul x (gfMul y z) = gfMul y (gfMul x z) :=
  gfLoop_gfLoop_comm x y 128 128 z

theorem gfMul_comm (x y : Block) : gfMul x y = gfMul y x := by
  have := gfMul_left_comm x y (1 <<< 127)
  rwa [gfMul_one_right, gfMul_one_right] at this

theorem gfMul_assoc (x y z : Block) : gfMul (gfMul x y) z = gfMul x (gfMul y z) := by
  rw [gfMul_comm, gfMul_left_comm, gfMul_comm z]

/-! ### The pair form -/

theorem GF128.value_add (a b : GF128) : (a.add b).value = a.value ^^^ b.value := BitVec.xor_append.symm

/-- Bit j of an element is bit j of lo or bit j - 64 of hi (R170). -/
theorem GF128.getLsbD_value (e : GF128) (j : Nat) :
    e.value.getLsbD j = if j < 64 then e.lo.getLsbD j else e.hi.getLsbD (j - 64) := by
  rw [GF128.value, BitVec.getLsbD_append]

theorem GF128.testBit_eq (x : GF128) {n : Nat} (hn : n < 128) : x.testBit (127 - n) = x.value.getLsbD n := by
  rw [GF128.getLsbD_value, GF128.testBit]
  by_cases h : n < 64
  · rw [if_neg (by omega), if_pos h, show 127 - (127 - n) = n by omega]
  · rw [if_pos (by omega), if_neg h, show 63 - (127 - n) = n - 64 by omega]

theorem GF128.value_shiftRight (v : GF128) : v.shiftRight.value = v.value >>> 1 := by
  apply BitVec.eq_of_getLsbD_eq
  intro j hj
  have one : (1#64).getLsbD (j - 63) = decide (j - 63 = 0) := by simp
  simp only [BitVec.getLsbD_ushiftRight, GF128.getLsbD_value, GF128.shiftRight, BitVec.getLsbD_or,
    BitVec.getLsbD_shiftLeft, BitVec.getLsbD_and]
  grind

/-- The pair's shift is that of the value: the bit that falls out is bit 0 of lo, and R has bits in hi only. -/
theorem GF128.value_shift (v : GF128) : v.shift.value = gfShift v.value := by
  have low : v.value.getLsbD 0 = v.lo.getLsbD 0 := v.getLsbD_value 0
  have r : GF128.value ⟨0xE100000000000000, 0⟩ = gfR := by decide
  rw [GF128.shift, gfShift, low, ← v.value_shiftRight, ← r, ← GF128.value_add]
  split <;> simp [GF128.add]

theorem GF128.value_loop (x : GF128) {n : Nat} (hn : n ≤ 128) (z v : GF128) :
    (GF128.loop x n z v).value = gfLoop x.value n z.value v.value := by
  induction n generalizing z v with
  | zero => rfl
  | succ n ih =>
    rw [GF128.loop, gfLoop, ih (by omega), GF128.value_shift, x.testBit_eq (by omega)]
    split
    · rw [GF128.value_add]
    · rfl

end Sys2Proof.Machine
end

section
/-! PROOFS. The statements about multiplication in GF(2^128) (43_gf128_ghash.md). -/

namespace Sys2Proof.Machine

/-- Settles O47: the loop is linear in both factors, a factor of one bit shifts, and the loop from the identity
collects the bits of the other factor. -/
theorem gfMulIsBilinearWithIdentity : Obligations.GfMulIsBilinearWithIdentity :=
  ⟨fun x y z => ⟨gfLoop_xor_right x 128 y z, gfLoop_xor_left x y 128 z⟩,
    fun y => ⟨gfMul_zero_left y, gfLoop_zero_right y 128⟩,
    fun y => ⟨gfMul_one_left y, gfMul_one_right y⟩, gfMul_twoPow (k := 126) (by decide) 1⟩

/-- Settles O48: multiplications commute as operators, and the identity on the right turns that into the law. -/
theorem gfMulIsCommutativeAndAssociative : Obligations.GfMulIsCommutativeAndAssociative :=
  ⟨gfMul_comm, gfMul_assoc⟩

/-- Settles O49: each round on the pair is the round on its value. -/
theorem pairMultiplicationAgrees : Obligations.PairMultiplicationAgrees :=
  fun a b => a.value_loop (Nat.le_refl 128) ⟨0, 0⟩ b

end Sys2Proof.Machine
end

section
/-! SUPPORT. The CBC iterations block by block, the keystream XOR byte by byte, and the comparison of tags
(41_cbc.md R121, R122, R130, 42_gcm.md R144, R146, 60_exceptions.md R218). -/

namespace Sys2Proof.Machine

/-! ### CBC block by block -/

/-- y_i = f(x_i XOR y_{i-1}), with y_{-1} the IV (R121). -/
theorem getElem?_cbcEncrypt (f : Block → Block) (iv : Block) (xs : List Block) {i : Nat} (hi : i < xs.length) :
    (cbcEncrypt f iv xs).1[i]?.getD 0 =
      f (xs[i]?.getD 0 ^^^ (iv :: (cbcEncrypt f iv xs).1)[i]?.getD 0) := by
  induction xs generalizing iv i with
  | nil => simp at hi
  | cons x xs ih =>
    rw [cbcEncrypt_cons]
    cases i with
    | zero => rfl
    | succ i => simpa using ih (f (x ^^^ iv)) (Nat.lt_of_succ_lt_succ hi)

/-- y_i = g(x_i) XOR x_{i-1}, with x_{-1} the IV (R122). -/
theorem getElem?_cbcDecrypt (g : Block → Block) (iv : Block) (xs : List Block) {i : Nat} (hi : i < xs.length) :
    (cbcDecrypt g iv xs).1[i]?.getD 0 = g (xs[i]?.getD 0) ^^^ (iv :: xs)[i]?.getD 0 := by
  induction xs generalizing iv i with
  | nil => simp at hi
  | cons x xs ih =>
    rw [cbcDecrypt_cons]
    cases i with
    | zero => rfl
    | succ i => simpa using ih x (Nat.lt_of_succ_lt_succ hi)

theorem cbcEncrypt_snd (f : Block → Block) (iv : Block) (xs : List Block) :
    (cbcEncrypt f iv xs).2 = (iv :: (cbcEncrypt f iv xs).1).getLast (by simp) := by
  induction xs generalizing iv with
  | nil => rfl
  | cons x xs ih => simp only [cbcEncrypt_cons, List.getLast_cons_cons, ih]

theorem cbcDecrypt_snd (g : Block → Block) (iv : Block) (xs : List Block) :
    (cbcDecrypt g iv xs).2 = (iv :: xs).getLast (by simp) := by
  induction xs generalizing iv with
  | nil => rfl
  | cons x xs ih => simp only [cbcDecrypt_cons, List.getLast_cons_cons, ih]

/-- Decryption undoes encryption block by block, and both end with the last ciphertext block (R130). -/
theorem cbcDecrypt_cbcEncrypt {f g : Block → Block} (hgf : ∀ b, g (f b) = b) (iv : Block) (xs : List Block) :
    cbcDecrypt g iv (cbcEncrypt f iv xs).1 = (xs, (cbcEncrypt f iv xs).2) := by
  induction xs generalizing iv with
  | nil => rfl
  | cons x xs ih =>
    have first : g (f (x ^^^ iv)) ^^^ iv = x := by rw [hgf, BitVec.xor_assoc, BitVec.xor_self, BitVec.xor_zero]
    rw [cbcEncrypt_cons, cbcDecrypt_cons, ih, first]

/-! ### The keystream byte by byte -/

theorem getElem?_xorBytes {a b : Bytes} {j : Nat} (ha : j < a.length) (hb : j < b.length) :
    (xorBytes a b)[j]?.getD 0 = a[j]?.getD 0 ^^^ b[j]?.getD 0 := by
  simp [xorBytes, ha, hb]

/-- Byte j of the output is byte j of the input XOR byte j mod 16 of E(CB_i), i = j / 16 + 1 (R144). -/
theorem getElem?_ctrXor (e : Block → Block) (j0 : Block) (x : Bytes) {j : Nat} (hj : j < x.length) :
    (ctrXor e j0 x)[j]?.getD 0 =
      x[j]?.getD 0 ^^^ (bytesOfBlock (e (counterBlock j0 (j / 16 + 1))))[j % 16]?.getD 0 := by
  induction x using chunks_induction generalizing j0 j with
  | nil => simp at hj
  | step x hpos ih =>
    rw [ctrXor_of_pos e j0 hpos]
    by_cases h16 : j < 16
    · have cb : counterBlock j0 (j / 16 + 1) = inc32 j0 := by rw [Nat.div_eq_of_lt h16]; rfl
      have hin : j < (x.take 16).length := by rw [List.length_take]; omega
      have hks : j < ((bytesOfBlock (e (inc32 j0))).take (x.take 16).length).length := by
        simp only [List.length_take, length_bytesOfBlock]; omega
      rw [List.getElem?_append_left (by rw [length_xorBytes]; omega), getElem?_xorBytes hin hks, cb,
        Nat.mod_eq_of_lt h16, List.getElem?_take_of_lt h16, List.getElem?_take_of_lt hin]
    · have first : (xorBytes (x.take 16) ((bytesOfBlock (e (inc32 j0))).take (x.take 16).length)).length = 16 := by
        simp only [length_xorBytes, List.length_take, length_bytesOfBlock]; omega
      have cb : counterBlock j0 (j / 16 + 1) = counterBlock (inc32 j0) ((j - 16) / 16 + 1) := by
        rw [counterBlock_inc32, show (j - 16) / 16 + 1 = j / 16 by omega]
      rw [List.getElem?_append_right (by omega), first, ih (inc32 j0) (by rw [List.length_drop]; omega), cb,
        List.getElem?_drop, show 16 + (j - 16) = j by omega, show (j - 16) % 16 = j % 16 by omega]

/-- The keystream XOR depends on a transform by the keystream bytes it consumes alone (R150). -/
theorem ctrXor_congr {e e' : Block → Block} {j0 : Block} {x : Bytes}
    (h : ∀ j, j < x.length → (bytesOfBlock (e' (counterBlock j0 (j / 16 + 1))))[j % 16]? =
      (bytesOfBlock (e (counterBlock j0 (j / 16 + 1))))[j % 16]?) : ctrXor e' j0 x = ctrXor e j0 x := by
  apply List.ext_getElem (by simp)
  intro j hj _
  have hx : j < x.length := by simpa using hj
  have bytes := (getElem?_ctrXor e' j0 x hx).trans ((h j hx).symm ▸ (getElem?_ctrXor e j0 x hx).symm)
  simpa [hx] using bytes

/-! ### The length block -/

/-- Folding the length block of two empty inputs into 0 leaves 0 (R146). -/
theorem ghashUpdate_lengthBlock_zero (h : Block) : ghashUpdate 0 h (lengthBlock 0 0) = 0 := by
  have block : blockOfBytes (lengthBlock 0 0) = 0 := by decide
  rw [ghashUpdate_block 0 h (by simp [lengthBlock]), block, BitVec.xor_self]
  exact gfMul_zero_left h

theorem gcmAccumulate_eq (h : Block) (aad c : Bytes) :
    gcmAccumulate h aad c =
      ghashUpdate (ghashUpdate (ghashUpdate 0 h aad) h c) h (lengthBlock aad.length c.length) := by
  unfold gcmAccumulate
  by_cases hpos : 0 < aad.length ∨ 0 < c.length
  · exact if_pos hpos
  · obtain ⟨rfl, rfl⟩ : aad = [] ∧ c = [] := by simpa using hpos
    exact (ghashUpdate_lengthBlock_zero h).symm

/-! ### The comparison of tags -/

theorem foldl_or_eq_zero_iff (bs : Bytes) (v : Byte) :
    bs.foldl (fun a b => a ||| b) v = 0 ↔ v = 0 ∧ ∀ b ∈ bs, b = 0 := by
  induction bs generalizing v with
  | nil => simp
  | cons b bs ih =>
    rw [List.foldl_cons, ih, List.forall_mem_cons, ← and_assoc]
    exact and_congr_left fun _ => BitVec.or_eq_zero_iff

/-- The XOR of two sequences of one length is all zero exactly where they are the same. -/
theorem forall_mem_xorBytes_eq_zero_iff {a b : Bytes} (h : a.length = b.length) :
    (∀ x ∈ xorBytes a b, x = 0) ↔ a = b := by
  induction a generalizing b with
  | nil => simp [List.length_eq_zero_iff.1 h.symm, xorBytes]
  | cons x xs ih =>
    cases b with
    | nil => simp at h
    | cons y ys =>
      have tail := ih (b := ys) (by simpa using h)
      simp only [xorBytes, List.zipWith_cons_cons, List.forall_mem_cons, List.cons.injEq] at tail ⊢
      exact and_congr BitVec.xor_eq_zero_iff tail

end Sys2Proof.Machine
end

section
/-! PROOFS. The statements about the CBC iterations, the GCM functions and the comparison of tags (41_cbc.md,
42_gcm.md, 60_exceptions.md). -/

namespace Sys2Proof.Machine

/-- Settles O53: chunk by chunk, each under the counter block after the one before. -/
theorem keystreamXorIsBytewise : Obligations.KeystreamXorIsBytewise :=
  fun e j0 x => ⟨length_ctrXor e j0 x, fun _ hj => getElem?_ctrXor e j0 x hj⟩

/-- Settles O54: the transform enters by E(J0) and by the keystream bytes the XOR consumes. -/
theorem unusedKeystreamHasNoEffect : Obligations.UnusedKeystreamHasNoEffect := by
  intro e e' h c iv aad x hj0 hks
  simp only [gcmCrypt, hj0, ctrXor_congr hks]

/-- Settles O55: without AAD and ciphertext the accumulator is 0, and the length block leaves it 0. -/
theorem lengthBlockConditionIsImmaterial : Obligations.LengthBlockConditionIsImmaterial := gcmAccumulate_eq

/-- Settles O57: the iterations undo each other on blocks, and whole blocks are their bytes. -/
theorem cbcRoundTrip : Obligations.CbcRoundTrip := by
  intro f g hgf iv p hp y
  have back : cbcRun .dec g iv (blocksOf y) = (blocksOf p, (cbcRun .enc f iv (blocksOf p)).2) := by
    rw [blocksOf_bytesOfBlocks]
    exact cbcDecrypt_cbcEncrypt hgf iv (blocksOf p)
  rw [back]
  exact ⟨length_bytesOfBlocks_cbcRun .enc f iv hp, bytesOfBlocks_blocksOf hp, rfl⟩

/-- Settles O58: along the blocks of the input. -/
theorem cbcBlocksFollowTheIteration : Obligations.CbcBlocksFollowTheIteration :=
  fun f iv xs => ⟨length_cbcEncrypt f iv xs, length_cbcDecrypt f iv xs,
    fun _ hi => ⟨getElem?_cbcEncrypt f iv xs hi, getElem?_cbcDecrypt f iv xs hi⟩,
    cbcEncrypt_snd f iv xs, cbcDecrypt_snd f iv xs⟩

/-- Settles O60: the combined difference is 0 exactly where no byte differs. -/
theorem tagComparisonIsExact : Obligations.TagComparisonIsExact := by
  intro received tag
  rw [tagMatches, Bool.and_eq_true, beq_iff_eq, beq_iff_eq, foldl_or_eq_zero_iff]
  constructor
  · rintro ⟨hlen, -, hzero⟩
    exact (forall_mem_xorBytes_eq_zero_iff (by simpa using hlen)).1 hzero
  · rintro rfl
    exact ⟨length_bytesOfBlock tag, rfl, (forall_mem_xorBytes_eq_zero_iff rfl).2 rfl⟩

end Sys2Proof.Machine
end

section
/-! SUPPORT. A command whose checks pass and whose operands are read runs its body, and what publishing and
committing leave (40_primitive_context.md R104, R105). -/

namespace Sys2Proof.Machine

/-! ### Passing the checks -/

/-- Checks 3 to 6 pass where the needed context is there, the regions lie in BUF and the lengths are right. -/
theorem checked_of {i : Instr} {s : State}
    (hctx : ∀ c m, neededMode i = some (c, m) → (s.ctx c).valid = true ∧ (s.ctx c).mode = m)
    (hspans : ∀ p ∈ usedSpans i s, p.addr + p.len ≤ s.config.bufBytes) (hlen : lengthError i s = none) :
    checkedError i s = none := by
  have hall : (usedSpans i s).all s.inBuf = true :=
    List.all_eq_true.2 fun p hp => (inBuf_iff s p).2 (hspans p hp)
  cases hn : neededMode i with
  | none => simp [checkedError, hn, hall, hlen]
  | some cm =>
    obtain ⟨c, m⟩ := cm
    obtain ⟨hv, hm⟩ := hctx c m hn
    simp [checkedError, hn, hv, hm, hall, hlen]

/-! ### What a result leaves -/

/-- The report of a success is its opcode in LAST_OPC (R105). -/
theorem okStatus_word (opc : Byte) : (okStatus opc).word = opc.setWidth 32 <<< 8 := by
  simp [okStatus, Status.word, Code.value, bitWord]

theorem commit_word (opc : Byte) (n : Nat) (s : State) :
    (commit opc n s).status.word = opc.setWidth 32 <<< 8 := okStatus_word opc

theorem publish_word (opc : Byte) (n : Nat) (b : Bytes) (s : State) :
    (publish opc n b s).status.word = opc.setWidth 32 <<< 8 := okStatus_word opc

/-- A byte inside a store is that byte of the data. -/
theorem Memory.read_writeBytes_inside (m : Memory) (a : Nat) (b : Bytes) {j : Nat} (hj : j < b.length) :
    (m.writeBytes a b).read (a + j) = some (b[j]?.getD 0) := by
  induction b generalizing m a j with
  | nil => simp at hj
  | cons y ys ih =>
    rw [Memory.writeBytes_cons]
    cases j with
    | zero => simp [Memory.read_writeBytes_outside]
    | succ j =>
      rw [show a + (j + 1) = a + 1 + j by omega, ih _ _ (Nat.lt_of_succ_lt_succ hj)]
      rfl

theorem publish_holdsBytes (opc : Byte) (n : Nat) (b : Bytes) (s : State) :
    holdsBytes (publish opc n b s).buf s.desc.dAddr.toNat b := Memory.readBytes_writeBytes _ _ _

theorem publish_sameBytesOutside (opc : Byte) {n : Nat} {b : Bytes} (hb : b.length = n) (s : State) :
    sameBytesOutside s.buf (publish opc n b s).buf s.desc.dAddr.toNat n :=
  fun _ hx => Memory.read_writeBytes_outside _ _ _ (hb ▸ hx)

theorem publish_setCtx_sameBytesOutside (opc : Byte) {n : Nat} {b : Bytes} (hb : b.length = n) (c : Dir)
    (x : Context) (s : State) :
    sameBytesOutside s.buf (publish opc n b (s.setCtx c x)).buf s.desc.dAddr.toNat n := by
  have outside := publish_sameBytesOutside opc hb (s.setCtx c x)
  rwa [setCtx_buf, setCtx_desc] at outside

theorem publish_resLen_toNat (opc : Byte) {n : Nat} (b : Bytes) (s : State) {p : Configuration} {a : Nat}
    (hn : a + n ≤ p.bufBytes) : (publish opc n b s).resLen.toNat = n := toNat_ofNat_of_inBuf hn

/-- A command that replaces a context and reports changes nothing else. -/
theorem commit_setCtx_frame (opc : Byte) (n : Nat) (c : Dir) (x : Context) (s t : State)
    (h : t = commit opc n (s.setCtx c x)) :
    t = { s with status := t.status, resLen := t.resLen, ctx0 := t.ctx0, ctx1 := t.ctx1 } := by
  subst h
  cases c <;> rfl

/-- A command that replaces a context and publishes a result, with or without a draw, changes nothing else. -/
theorem publish_setCtx_frame (opc : Byte) (n : Nat) (b : Bytes) (c : Dir) (x : Context) (s t : State)
    (h : t = publish opc n b (s.setCtx c x)) :
    t = { s with status := t.status, resLen := t.resLen, buf := t.buf, ctx0 := t.ctx0, ctx1 := t.ctx1 } := by
  subst h
  cases c <;> rfl

/-! ### Commands whose checks pass -/

theorem exec_fbOf_of_checked {s : State} {b : Bytes} (hc : checkedError .fbOf s = none)
    (hb : s.buf.readBytes (src0 s).addr (min (src0 s).len 16) = .ok b) :
    exec .fbOf s = .next (publish 0x01 16 (fixedBlock b) s) := by
  refine (guarded_of_none ((firstFailure_fbOf s).trans hc)).trans ?_
  rw [hb, withBytes_ok]

theorem exec_fbXor_of_checked {s : State} {self other : Bytes} (hc : checkedError .fbXor s = none)
    (hself : (src1 s).bytes s.buf = .ok self) (hother : (src0 s).bytes s.buf = .ok other) :
    exec .fbXor s = .next (publish 0x02 (src1 s).len (xorBytes self other) s) := by
  refine (guarded_of_none ((firstFailure_fbXor s).trans hc)).trans ?_
  rw [hself, withBytes_ok, hother, withBytes_ok]

theorem exec_gfMul_of_checked {s : State} {a b : Bytes} (hc : checkedError .gfMul s = none)
    (ha : (src0 s).bytes s.buf = .ok a) (hb : (src1 s).bytes s.buf = .ok b) :
    exec .gfMul s = .next (publish 0x03 16 (bytesOfBlock (gfMul (blockOfBytes a) (blockOfBytes b))) s) := by
  refine (guarded_of_none ((firstFailure_gfMul s).trans hc)).trans ?_
  rw [ha, withBytes_ok, hb, withBytes_ok]

theorem exec_ghash_of_checked {s : State} {data h acc : Bytes} (hc : checkedError .ghash s = none)
    (hdata : (src0 s).bytes s.buf = .ok data) (hh : (src1 s).bytes s.buf = .ok h)
    (hacc : (src2 s).bytes s.buf = .ok acc) :
    exec .ghash s =
      .next (publish 0x04 16 (bytesOfBlock (ghashUpdate (blockOfBytes acc) (blockOfBytes h) data)) s) := by
  refine (guarded_of_none ((firstFailure_ghash s).trans hc)).trans ?_
  rw [hdata, withBytes_ok, hh, withBytes_ok, hacc, withBytes_ok]

/-- CTX_CREATE of either mode goes on to the construction: with the IV of S2 where MODE = CBC (R107). -/
theorem exec_ctxCreate_of_checked {c : Dir} {m : Mode} {alg : Alg} {s : State} {key : Bytes} {iv : Block}
    (hc : checkedError (.ctxCreate c m alg) s = none) (hkey : (src0 s).bytes s.buf = .ok key)
    (hcbc : m = .cbc → ∃ b, (src2 s).bytes s.buf = .ok b ∧ iv = blockOfBytes b) (hgcm : m = .gcm → iv = 0) :
    exec (.ctxCreate c m alg) s = createContext c m alg key iv s := by
  cases m with
  | cbc =>
    obtain ⟨b, hb, rfl⟩ := hcbc rfl
    refine (guarded_of_none ((firstFailure_ctxCreate_cbc c alg s).trans hc)).trans ?_
    rw [hkey, withBytes_ok, hb, withBytes_ok]
  | gcm =>
    obtain rfl := hgcm rfl
    refine (guarded_of_none ((firstFailure_ctxCreate_gcm c alg s).trans hc)).trans ?_
    rw [hkey, withBytes_ok]

theorem exec_cbcReseed_of_checked {c : Dir} {s : State} {iv : Bytes}
    (hc : checkedError (.cbcReseed c) s = none) (hiv : (src2 s).bytes s.buf = .ok iv) :
    exec (.cbcReseed c) s =
      .next (commit 0x12 0 (s.setCtx c { s.ctx c with chain := blockOfBytes iv })) := by
  refine (guarded_of_none ((firstFailure_cbcReseed c s).trans hc)).trans ?_
  rw [hiv, withBytes_ok]

/-- CBC_UPDATE in either form goes on to its body: with the override, or with CHAIN (R127). -/
theorem exec_cbcUpdate_of_checked {c : Dir} {ivo : Bool} {s : State} {x : Bytes} {iv : Block}
    (hc : checkedError (.cbcUpdate c ivo) s = none) (hx : (src0 s).bytes s.buf = .ok x)
    (hcarried : ivo = false → iv = (s.ctx c).chain)
    (hover : ivo = true → ∃ b, (src2 s).bytes s.buf = .ok b ∧ iv = blockOfBytes b) :
    exec (.cbcUpdate c ivo) s = cbcUpdateBody c iv x s := by
  cases ivo with
  | true =>
    obtain ⟨b, hb, rfl⟩ := hover rfl
    refine (guarded_of_none ((firstFailure_cbcUpdate_override c s).trans hc)).trans ?_
    rw [hx, withBytes_ok, hb, withBytes_ok]
  | false =>
    obtain rfl := hcarried rfl
    refine (guarded_of_none ((firstFailure_cbcUpdate_carried c s).trans hc)).trans ?_
    rw [hx, withBytes_ok]

/-! ### Constructing a context -/

/-- A key that passes key setup leaves no construction error (R107). -/
theorem createError_of_keyOk {p : Configuration} {alg : Alg} {key : Bytes} (h : p.keyOk alg key = true) :
    createError p alg key = none := by
  have hbytes := ((keyOk_iff p alg key).1 h).1
  cases alg with
  | null | reserved => cases hbytes
  | aes128 | aes256 => simp [createError, h]

/-- An AES key that does not pass it is a KEY_SETUP error (R107). -/
theorem createError_of_not_keyOk {p : Configuration} {alg : Alg} {key : Bytes}
    (ha : alg = .aes128 ∨ alg = .aes256) (h : p.keyOk alg key = false) :
    createError p alg key = some .keySetup := by
  rcases ha with rfl | rfl <;> simp [createError, h]

theorem keyOk_of_length {p : Configuration} {alg : Alg} {key : Bytes}
    (h : (alg = .aes128 ∧ key.length = 16) ∨ (alg = .aes256 ∧ key.length = 32))
    (hr : (alg, key) ∉ p.rejectedKeys) : p.keyOk alg key = true := by
  refine (keyOk_iff p alg key).2 ⟨?_, hr⟩
  rcases h with ⟨rfl, hl⟩ | ⟨rfl, hl⟩ <;> rw [hl] <;> rfl

theorem createContext_of_error {c : Dir} {m : Mode} {alg : Alg} {key : Bytes} {iv : Block} {s : State}
    {e : CmdError} (h : createError s.config alg key = some e) :
    createContext c m alg key iv s = .next (raise 0x10 e (s.setCtx c Context.empty)) := by
  simp [createContext, h]

theorem createContext_cbc {c : Dir} {alg : Alg} {key : Bytes} {iv : Block} {s : State}
    (h : s.config.keyOk alg key = true) :
    createContext c .cbc alg key iv s = .next (commit 0x10 0 (s.setCtx c (newContext .cbc alg key iv 0))) := by
  simp [createContext, createError_of_keyOk h]

/-- The draw does not depend on the contexts. -/
theorem nextDraw_setCtx (s : State) (c : Dir) (x : Context) : (s.setCtx c x).nextDraw = s.nextDraw := by
  cases c <;> rfl

theorem createContext_gcm {c : Dir} {alg : Alg} {key : Bytes} {iv : Block} {s : State}
    (h : s.config.keyOk alg key = true) :
    createContext c .gcm alg key iv s =
      .next (if s.nextDraw = .ok then
          commit 0x10 0 (s.takeDraw.setCtx c (newContext .gcm alg key 0 (Config.E alg key 0)))
        else raise 0x10 .inCreate (s.takeDraw.setCtx c Context.empty)) := by
  simp only [createContext, createError_of_keyOk h, withDraw, nextDraw_setCtx]
  cases s.nextDraw <;> cases c <;> rfl

/-- A construction error after the checks: its report, the slot empty, and nothing else changed but the draws. -/
theorem emptied_of_raise {s u : State} {c : Dir} {e : CmdError} {word : Word}
    (hu : u = s ∨ u = s.takeDraw) (hw : (errorStatus 0x10 e).word = word)
    (hh : (errorStatus 0x10 e).halted = false) {r : Result}
    (hr : r = .next (raise 0x10 e (u.setCtx c Context.empty))) :
    ∃ t, r = .next t ∧ t.status.word = word ∧ t.resLen = 0 ∧ t.status.halted = false ∧
      t.ctx c = Context.empty ∧ t.ctx c.other = s.ctx c.other ∧ t.buf = s.buf ∧ t.desc = s.desc := by
  rcases hu with rfl | rfl <;> exact ⟨_, hr, hw, rfl, hh, by simp, by simp, by simp, by simp⟩

/-! ### CBC_UPDATE and its draw -/

/-- The state CBC_UPDATE goes on from: an empty input takes no draw (R127). -/
def cbcDrawn (s : State) : State := if 0 < (src0 s).len then s.takeDraw else s

theorem cbcUpdateBody_of_ok {c : Dir} {iv : Block} {x : Bytes} {s : State}
    (h : 0 < (src0 s).len → s.nextDraw = .ok) :
    cbcUpdateBody c iv x s = .next (cbcFinish c (src0 s).len iv x (cbcDrawn s)) := by
  unfold cbcUpdateBody cbcDrawn
  split
  · rename_i hpos
    simp only [withDraw, h hpos]
  · rfl

theorem cbcUpdateBody_of_fail {c : Dir} {iv : Block} {x : Bytes} {s : State} (hpos : 0 < (src0 s).len)
    (h : s.nextDraw = .fail) : cbcUpdateBody c iv x s = .next (raise 0x20 .inUpdate s.takeDraw) := by
  simp only [cbcUpdateBody, if_pos hpos, withDraw, h]

/-- The draw is all the draw changes. -/
theorem cbcDrawn_eq (s : State) :
    cbcDrawn s = { s with draws := if 0 < (src0 s).len then s.draws.tail else s.draws,
                          drawCount := if 0 < (src0 s).len then s.drawCount + 1 else s.drawCount } := by
  unfold cbcDrawn
  split <;> simp_all [State.takeDraw]

@[simp] theorem cbcDrawn_ctx (s : State) (c : Dir) : (cbcDrawn s).ctx c = s.ctx c := by
  rw [cbcDrawn_eq]
  cases c <;> rfl

@[simp] theorem cbcDrawn_buf (s : State) : (cbcDrawn s).buf = s.buf := by rw [cbcDrawn_eq]

@[simp] theorem cbcDrawn_desc (s : State) : (cbcDrawn s).desc = s.desc := by rw [cbcDrawn_eq]

/-- The finish publishes the iteration of the context as it was before the draw (R127). -/
theorem cbcFinish_cbcDrawn (c : Dir) (n : Nat) (iv : Block) (x : Bytes) (s : State) :
    cbcFinish c n iv x (cbcDrawn s) =
      publish 0x20 n (bytesOfBlocks (cbcRun c (transformBlock c (s.ctx c)) iv (blocksOf x)).1)
        ((cbcDrawn s).setCtx c
          { s.ctx c with chain := (cbcRun c (transformBlock c (s.ctx c)) iv (blocksOf x)).2 }) := by
  simp only [cbcFinish, cbcDrawn_ctx]

/-- A CBC context uses E where it encrypts and Einv where it decrypts (R103). -/
theorem cbcRun_transformBlock (c : Dir) {k : Context} (hm : k.mode = .cbc) (iv : Block) (xs : List Block) :
    cbcRun c (transformBlock c k) iv xs = match c with
      | .enc => cbcEncrypt (Config.E k.alg k.key) iv xs
      | .dec => cbcDecrypt (Config.Einv k.alg k.key) iv xs := by
  have transform : transformBlock c k = match c with
      | .enc => Config.E k.alg k.key
      | .dec => Config.Einv k.alg k.key := by
    funext b
    cases c <;> simp only [transformBlock, hm]
  rw [transform]
  cases c <;> rfl

/-- A GCM context uses E in both directions (R103). -/
theorem transformBlock_of_gcm (c : Dir) {k : Context} (hm : k.mode = .gcm) :
    transformBlock c k = Config.E k.alg k.key := by
  funext b
  simp only [transformBlock, hm]

end Sys2Proof.Machine
end

section
/-! PROOFS. The statements about commands that complete, and about CTX_CREATE that fails (40_primitive_context.md,
41_cbc.md, 42_gcm.md, 43_gf128_ghash.md, 44_fixedblock.md). -/

namespace Sys2Proof.Machine

/-- Settles O23: NOP is a commit. -/
theorem nopCompletes : Obligations.NopCompletes := fun s => ⟨_, rfl, commit_word 0x00 0 s, rfl, rfl⟩

/-- Settles O24: the checks pass, and the fixed block of at most 16 bytes is their zero-padding. -/
theorem fbOfCompletes : Obligations.FbOfCompletes := by
  intro s b h0 hd hb
  have hc : checkedError .fbOf s = none := by
    refine checked_of (fun _ _ h => by cases h) ?_ rfl
    simp [usedSpans, src0, dest, h0, hd]
  have hlen : b.length ≤ 16 := by
    rw [Memory.length_of_readBytes hb]
    exact Nat.min_le_right _ _
  refine ⟨_, exec_fbOf_of_checked hc hb, publish_word _ _ _ s, rfl, ?_, publish_sameBytesOutside _ (by simp) s, rfl⟩
  have held := publish_holdsBytes 0x01 16 (fixedBlock b) s
  rwa [fixedBlock_append_zeros hlen] at held ⊢

/-- Settles O25: the checks pass, and byte j of the result is byte j of the stored XOR. -/
theorem fbXorCompletes : Obligations.FbXorCompletes := by
  intro s n self other h0 h1 h16 ha0 ha1 hd hself hother
  have hc : checkedError .fbXor s = none := by
    refine checked_of (fun _ _ h => by cases h) ?_ (by simp [lengthError, src0, src1, h0, h1, h16])
    simp [usedSpans, src0, src1, dest, h0, h1, ha0, ha1, hd]
  have hl : (src1 s).len = n := h1
  have hs := Memory.length_of_readBytes hself
  have ho := Memory.length_of_readBytes hother
  subst h1
  refine ⟨_, exec_fbXor_of_checked hc hself (h0 ▸ hother), publish_word _ _ _ s,
    publish_resLen_toNat _ _ _ hd, fun j hj => ?_, publish_sameBytesOutside _ (by simp [hs, ho, hl]) s, rfl⟩
  rw [publish_buf, Memory.read_writeBytes_inside _ _ _ (by simp [hs, ho, hj]),
    getElem?_xorBytes (by omega) (by omega)]

/-- Settles O26: the checks pass, and the product is what is published. -/
theorem gfMulCompletes : Obligations.GfMulCompletes := by
  intro s a b h0 h1 ha0 ha1 hd ha hb
  have hc : checkedError .gfMul s = none := by
    refine checked_of (fun _ _ h => by cases h) ?_ (by simp [lengthError, src0, src1, h0, h1])
    simp [usedSpans, src0, src1, dest, h0, h1, ha0, ha1, hd]
  have ha' : (src0 s).bytes s.buf = .ok a := by rw [Span.bytes, src0, h0]; exact ha
  have hb' : (src1 s).bytes s.buf = .ok b := by rw [Span.bytes, src1, h1]; exact hb
  exact ⟨_, exec_gfMul_of_checked hc ha' hb', publish_word _ _ _ s, rfl, publish_holdsBytes _ _ _ s,
    publish_sameBytesOutside _ (by simp) s, rfl⟩

/-- Settles O27: the checks pass, and the updated accumulator is what is published. -/
theorem ghashCompletes : Obligations.GhashCompletes := by
  intro s data h acc h1 h2 ha0 ha1 ha2 hd hdata hh hacc
  have hc : checkedError .ghash s = none := by
    refine checked_of (fun _ _ h => by cases h) ?_ (by simp [lengthError, src1, src2, h1, h2])
    simp [usedSpans, src0, src1, src2, dest, h1, h2, ha0, ha1, ha2, hd]
  have hh' : (src1 s).bytes s.buf = .ok h := by rw [Span.bytes, src1, h1]; exact hh
  have hacc' : (src2 s).bytes s.buf = .ok acc := by rw [Span.bytes, src2, h2]; exact hacc
  exact ⟨_, exec_ghash_of_checked hc hdata hh' hacc', publish_word _ _ _ s, rfl, publish_holdsBytes _ _ _ s,
    publish_sameBytesOutside _ (by simp) s, rfl⟩

/-- Settles O28: the checks pass, the key passes key setup, and the new context is committed. -/
theorem ctxCreateCbcCompletes : Obligations.CtxCreateCbcCompletes := by
  intro s c alg key iv hkey hr h2 ha0 ha2 hk hiv
  have hc : checkedError (.ctxCreate c .cbc alg) s = none := by
    refine checked_of (fun _ _ h => by cases h) ?_ (by simp [lengthError, src2, h2])
    simp [usedSpans, src0, src2, h2, ha0, ha2]
  have hiv' : (src2 s).bytes s.buf = .ok iv := by rw [Span.bytes, src2, h2]; exact hiv
  have hexec := (exec_ctxCreate_of_checked hc hk (fun _ => ⟨iv, hiv', rfl⟩) (fun h => by cases h)).trans
    (createContext_cbc (keyOk_of_length hkey hr))
  refine ⟨_, hexec, commit_word _ _ _, rfl, ?_, ?_, commit_setCtx_frame _ _ _ _ s _ rfl⟩
  · simp [newContext]
  · simp

/-- Settles O29: the checks pass, the key passes key setup, the draw is ok, and the new context is committed. -/
theorem ctxCreateGcmCompletes : Obligations.CtxCreateGcmCompletes := by
  intro s c alg key hkey hr ha0 hk hdraw
  have hc : checkedError (.ctxCreate c .gcm alg) s = none := by
    refine checked_of (fun _ _ h => by cases h) ?_ rfl
    simp [usedSpans, src0, ha0]
  have hexec := (exec_ctxCreate_of_checked hc hk (fun h => by cases h) (fun _ => rfl)).trans
    (createContext_gcm (keyOk_of_length hkey hr))
  rw [if_pos hdraw] at hexec
  refine ⟨_, hexec, commit_word _ _ _, rfl, ?_, ?_, commit_setCtx_frame _ _ _ _ s.takeDraw _ rfl⟩
  · simp [newContext]
  · simp

/-- Settles O30: each failure is a construction error of its algorithm and key, or of the draw. -/
theorem failedCtxCreateEmptiesTheSlot : Obligations.FailedCtxCreateEmptiesTheSlot := by
  intro s c m alg key hc hkey hiv word hcase
  obtain ⟨iv, hexec⟩ : ∃ iv, exec (.ctxCreate c m alg) s = createContext c m alg key iv s := by
    cases m with
    | cbc =>
      obtain ⟨b, hb⟩ := hiv rfl
      have h2 : (src2 s).len = 16 := by
        have := lengthError_of_checked hc
        by_contra hne
        simp [lengthError, hne] at this
      have hb' : (src2 s).bytes s.buf = .ok b := by rw [Span.bytes, h2]; exact hb
      exact ⟨_, exec_ctxCreate_of_checked hc hkey (fun _ => ⟨b, hb', rfl⟩) (fun h => by cases h)⟩
    | gcm => exact ⟨0, exec_ctxCreate_of_checked hc hkey (fun h => by cases h) (fun _ => rfl)⟩
  rw [hexec]
  rcases hcase with ⟨rfl, rfl⟩ | ⟨rfl, rfl⟩ | ⟨hbad, rfl⟩ | ⟨rfl, hgood, hr, hdraw, rfl⟩
  · exact emptied_of_raise (.inl rfl) rfl rfl (createContext_of_error (e := .algNull) rfl)
  · exact emptied_of_raise (.inl rfl) rfl rfl (createContext_of_error (e := .algReserved) rfl)
  · have haes : alg = .aes128 ∨ alg = .aes256 := by
      rcases hbad with ⟨h, -⟩ | ⟨h, -⟩ | ⟨h, -⟩
      · exact .inl h
      · exact .inr h
      · exact h
    have hnot : s.config.keyOk alg key = false := by
      rw [Bool.eq_false_iff, Ne, keyOk_iff]
      rintro ⟨hbytes, hr⟩
      rcases hbad with ⟨rfl, h⟩ | ⟨rfl, h⟩ | ⟨-, h⟩
      · exact h (Option.some.inj hbytes).symm
      · exact h (Option.some.inj hbytes).symm
      · exact hr h
    exact emptied_of_raise (.inl rfl) rfl rfl (createContext_of_error (createError_of_not_keyOk haes hnot))
  · refine emptied_of_raise (e := .inCreate) (.inr rfl) rfl rfl ?_
    rw [createContext_gcm (keyOk_of_length hgood hr), if_neg (by simp [hdraw])]

/-- Settles O31: CTX_DESTROY is a commit with the slot emptied. -/
theorem ctxDestroyCompletes : Obligations.CtxDestroyCompletes := by
  intro s c
  refine ⟨_, rfl, commit_word _ _ _, rfl, ?_, ?_, commit_setCtx_frame _ _ _ _ s _ rfl⟩
  · simp [Context.empty]
  · simp

/-- Settles O32: the checks pass, and the 16 bytes of S2 are the new CHAIN. -/
theorem cbcReseedCompletes : Obligations.CbcReseedCompletes := by
  intro s c iv hv hm h2 ha2 hiv
  have hc : checkedError (.cbcReseed c) s = none := by
    refine checked_of (fun _ _ h => by cases h; exact ⟨hv, hm⟩) ?_ (by simp [lengthError, src2, h2])
    simp [usedSpans, src2, h2, ha2]
  have hiv' : (src2 s).bytes s.buf = .ok iv := by rw [Span.bytes, src2, h2]; exact hiv
  refine ⟨_, exec_cbcReseed_of_checked hc hiv', commit_word _ _ _, rfl, ?_, ?_, ?_,
    commit_setCtx_frame _ _ _ _ s _ rfl⟩
  · simp
  · simp [bytesOfBlock_blockOfBytes (Memory.length_of_readBytes hiv)]
  · simp

/-- Settles O33: the checks pass, the draw is ok where there is one, and the direction's iteration is published. -/
theorem cbcUpdateCompletes : Obligations.CbcUpdateCompletes := by
  intro s c ivo x iv n hv hm h0 h16 ha0 hd hx hcarried hover hdraw
  obtain rfl : (src0 s).len = n := h0
  have ha0' : (src0 s).addr + (src0 s).len ≤ s.config.bufBytes := ha0
  have h2 (h : ivo = true) : (src2 s).len = 16 := by simp [src2, (hover h).1]
  have hc : checkedError (.cbcUpdate c ivo) s = none := by
    refine checked_of (fun _ _ h => by cases h; exact ⟨hv, hm⟩) ?_ ?_
    · cases ivo with
      | false => simp [usedSpans, dest, ha0', hd]
      | true =>
        have ha2 : (src2 s).addr + 16 ≤ s.config.bufBytes := (hover rfl).2.1
        simp [usedSpans, dest, ha0', hd, h2, ha2]
    · cases ivo <;> simp [lengthError, h16, h2]
  have hover' (h : ivo = true) : ∃ b, (src2 s).bytes s.buf = .ok b ∧ iv = blockOfBytes b := by
    obtain ⟨-, -, b, hb, rfl⟩ := hover h
    exact ⟨b, by rw [Span.bytes, h2 h]; exact hb, rfl⟩
  have hexec := (exec_cbcUpdate_of_checked hc hx hcarried hover').trans (cbcUpdateBody_of_ok hdraw)
  have hlen := Memory.length_of_readBytes hx
  have hout := (length_bytesOfBlocks_cbcRun c (transformBlock c (s.ctx c)) iv (x := x) (by omega)).trans hlen
  have run := cbcRun_transformBlock c hm iv (blocksOf x)
  rw [cbcFinish_cbcDrawn] at hexec
  generalize cbcRun c (transformBlock c (s.ctx c)) iv (blocksOf x) = r at hexec hout run
  refine ⟨_, hexec, publish_word _ _ _ _, publish_resLen_toNat _ _ _ hd, ?_, ?_, by simp, ?_,
    (publish_setCtx_frame _ _ _ c _ (cbcDrawn s) _ rfl).trans (by rw [cbcDrawn_eq s])⟩
  · have held := publish_holdsBytes 0x20 (src0 s).len (bytesOfBlocks r.1)
      ((cbcDrawn s).setCtx c { s.ctx c with chain := r.2 })
    rw [setCtx_desc, cbcDrawn_desc] at held
    cases c <;> rw [run] at held ⊢ <;> exact held
  · rw [publish_ctx, setCtx_ctx, run]
    cases c <;> rfl
  · have outside := publish_setCtx_sameBytesOutside 0x20 hout c { s.ctx c with chain := r.2 } (cbcDrawn s)
    rwa [cbcDrawn_buf, cbcDrawn_desc] at outside

/-- Settles O34: the checks pass, the draw is ok, and the context's run is published. -/
theorem gcmUpdateCompletes : Obligations.GcmUpdateCompletes := by
  intro s c x aad iv n hv hm h0 ha0 ha1 ha2 hd hx haad hiv hdraw e j0 y cipher
  obtain rfl : s.desc.s0Len.toNat = n := h0
  have hc : checkedError (.gcmUpdate c) s = none := by
    refine checked_of (fun _ _ h => by cases h; exact ⟨hv, hm⟩) ?_ rfl
    simp [usedSpans, src0, src1, src2, dest, ha0, ha1, ha2, hd]
  have hexec := exec_gcmUpdate_of_checked hc hx haad hiv
  rw [if_pos hdraw] at hexec
  have hlen : x.length = s.desc.s0Len.toNat := Memory.length_of_readBytes hx
  have run : gcmRun c (s.ctx c) iv aad x =
      ⟨y, counterBlock j0 (ceil16 s.desc.s0Len.toNat), e j0 ^^^ gcmAccumulate (s.ctx c).h aad cipher⟩ := by
    rw [← hlen, gcmRun, transformBlock_of_gcm c hm]
    cases c <;> rfl
  refine ⟨_, hexec, publish_word _ _ _ _, publish_resLen_toNat _ _ _ hd, ?_, ?_, ?_, ?_,
    publish_setCtx_frame _ _ _ c _ s.takeDraw _ rfl⟩
  · have held := gcmFinish_holdsBytes c s.desc.s0Len.toNat iv aad x s.takeDraw
    rwa [takeDraw_ctx, run] at held
  · rw [gcmFinish_ctx, takeDraw_ctx, run]
  · simp [gcmFinish]
  · exact publish_setCtx_sameBytesOutside 0x21 ((length_out_gcmCrypt _ _ _ _ _ _).trans hlen) c _ s.takeDraw

end Sys2Proof.Machine
end

section
/-! SUPPORT. What the ends of a command say about its report, and that a command commutes with replacing a context
it does not address (60_exceptions.md R209, R216). -/

namespace Sys2Proof.Machine

/-! ### Reports -/

/-- A command with a failing check reports it and changes nothing else: every other end needs all checks to pass. -/
theorem exec_of_checkedError {i : Instr} {s : State} {e : CmdError} (h : checkedError i s = some e) :
    exec i s = .next (raise i.opcode.code e s) := by
  have hend := exec_end i s
  generalize exec i s = r at hend ⊢
  cases hend with
  | checkFailed e' hc => cases h.symm.trans hc; rfl
  | noOp hi => subst hi; cases h
  | destroyed c hi => subst hi; cases h
  | _ => simp_all

/-- The codes a command can end in once its checks pass. -/
theorem code_of_checked {i : Instr} {s t : State} (hc : checkedError i s = none) (h : exec i s = .next t) :
    t.status.code = .ok ∨ t.status.code = .unsupportedAlgorithm ∨ t.status.code = .primitiveFailure := by
  have hend := exec_end i s
  rw [h] at hend
  cases hend with
  | checkFailed e hc' => cases hc.symm.trans hc'
  | unsupported c m a e hi he => exact .inr (.inl he)
  | createFailed => exact .inr (.inr rfl)
  | updateFailed => exact .inr (.inr rfl)
  | _ => exact .inl rfl

/-- PRIMITIVE_FAILURE is the report of a failed draw. -/
theorem nextDraw_of_primitiveFailure {i : Instr} {s t : State} (h : exec i s = .next t)
    (hcode : t.status.code = .primitiveFailure) : s.nextDraw = .fail := by
  have hend := exec_end i s
  rw [h] at hend
  cases hend with
  | checkFailed e hc =>
    have he : e.code = .primitiveFailure := hcode
    rcases code_of_checkedError hc with h' | h' | h' <;> simp [he] at h'
  | unsupported c m a e hi he => cases he.symm.trans hcode
  | createFailed c a hi hd => exact hd
  | updateFailed hi hd => exact hd
  | _ => cases hcode

/-- Without PRIM_CAN_FAIL every draw is ok (R101). -/
theorem nextDraw_of_cannot_fail {s : State} (h : s.config.primCanFail = false) : s.nextDraw = .ok := by
  simp [State.nextDraw, h]

/-! ### Results and contexts -/

/-- The commands without a result (R29). -/
def noResult (i : Instr) : Prop :=
  i = .nop ∨ (∃ c m a, i = .ctxCreate c m a) ∨ (∃ c, i = .ctxDestroy c) ∨ ∃ c, i = .cbcReseed c

/-- A command leaves BUF and reports no result, or it publishes a result that fits BUF. -/
theorem exec_result {i : Instr} {s t : State} (h : exec i s = .next t) :
    (t.resLen = 0 ∧ t.buf = s.buf) ∨
      (¬ noResult i ∧ ∃ opc n b u, t = publish opc n b u ∧ u.buf = s.buf ∧ u.desc = s.desc ∧ b.length = n ∧
        s.desc.dAddr.toNat + n ≤ s.config.bufBytes) := by
  have hend := exec_end i s
  rw [h] at hend
  cases hend with
  | wrote n b hi hn hd =>
    exact .inr ⟨by rcases hi with rfl | rfl | rfl | rfl <;> simp [noResult], _, n, b, s, rfl, rfl, rfl, hn, hd⟩
  | cbcDone c ivo n b chain s' hi hs hv hm hn hd =>
    exact .inr ⟨by simp [noResult, hi], _, n, b, _, rfl, by rcases hs with rfl | rfl <;> simp,
      by rcases hs with rfl | rfl <;> simp, hn, hd⟩
  | gcmDone c n b chain tag hi hv hm hn hd =>
    exact .inr ⟨by simp [noResult, hi], _, n, b, _, rfl, by simp, by simp, hn, hd⟩
  | _ => exact .inl ⟨rfl, by simp⟩

/-- What an update leaves of its context: CHAIN alone may change, and the tag by GCM_UPDATE (R33 to R35). -/
theorem exec_update_ctx {i : Instr} {s t : State} {c : Dir} (h : exec i s = .next t)
    (hi : (∃ ivo, i = .cbcUpdate c ivo) ∨ i = .cbcReseed c ∨ i = .gcmUpdate c) :
    (∃ chain, t.ctx c = { s.ctx c with chain := chain }) ∨
      (i = .gcmUpdate c ∧ ∃ chain tag, t.ctx c = { s.ctx c with chain := chain, tag := tag, tagValid := true }) := by
  have update : neededMode i = some (c, .cbc) ∨ neededMode i = some (c, .gcm) := by
    rcases hi with ⟨ivo, rfl⟩ | rfl | rfl
    · exact .inl rfl
    · exact .inl rfl
    · exact .inr rfl
  have hend := exec_end i s
  rw [h] at hend
  cases hend with
  | checkFailed e hc => exact .inl ⟨(s.ctx c).chain, raise_ctx _ _ s c⟩
  | updateFailed hi hd hc => exact .inl ⟨(s.ctx c).chain, (raise_ctx _ _ _ c).trans (takeDraw_ctx s c)⟩
  | reseeded d iv hi =>
    subst hi
    obtain rfl : d = c := by simpa [neededMode] using update
    exact .inl ⟨iv, by simp⟩
  | cbcDone d ivo n b chain s' hi hs =>
    subst hi
    obtain rfl : d = c := by simpa [neededMode] using update
    exact .inl ⟨chain, by simp⟩
  | gcmDone d n b chain tag hi =>
    subst hi
    obtain rfl : d = c := by simpa [neededMode] using update
    exact .inr ⟨rfl, chain, tag, by simp⟩
  | wrote n b hi => rcases hi with rfl | rfl | rfl | rfl <;> simp [neededMode] at update
  | unsupported _ _ _ _ hi | createFailed _ _ hi | noOp hi | createdCbc _ _ _ _ hi | createdGcm _ _ _ hi
  | destroyed _ hi => simp [neededMode, hi] at update

/-- A command that addresses no context changes the report and BUF at most (R73). -/
theorem exec_pure {i : Instr} {s t : State} (h : exec i s = .next t) (hi : addressed i = none) :
    onlyReportAndBuf s t := by
  have hend := exec_end i s
  rw [h] at hend
  cases hend with
  | checkFailed e hc => rfl
  | noOp hi => rfl
  | wrote n b hi => rfl
  | updateFailed hu => rcases hu with ⟨c, ivo, rfl⟩ | ⟨c, rfl⟩ <;> cases hi
  | unsupported _ _ _ _ hi' | createFailed _ _ hi' | createdCbc _ _ _ _ hi' | createdGcm _ _ _ hi'
  | destroyed _ hi' | reseeded _ _ hi' | cbcDone _ _ _ _ _ _ hi' | gcmDone _ _ _ _ _ hi' => subst hi'; cases hi

/-! ### Replacing a context a command does not address -/

@[simp] theorem src0_setCtx (s : State) (c : Dir) (x : Context) : src0 (s.setCtx c x) = src0 s := by
  cases c <;> rfl

@[simp] theorem src1_setCtx (s : State) (c : Dir) (x : Context) : src1 (s.setCtx c x) = src1 s := by
  cases c <;> rfl

@[simp] theorem src2_setCtx (s : State) (c : Dir) (x : Context) : src2 (s.setCtx c x) = src2 s := by
  cases c <;> rfl

@[simp] theorem dest_setCtx (s : State) (c : Dir) (x : Context) (n : Nat) :
    dest (s.setCtx c x) n = dest s n := by
  cases c <;> rfl

@[simp] theorem rangeCheck_setCtx (s : State) (c : Dir) (x : Context) (p : Span) :
    rangeCheck (s.setCtx c x) p = rangeCheck s p := by
  cases c <;> rfl

theorem setCtx_comm (s : State) {c d : Dir} (h : d ≠ c) (x y : Context) :
    (s.setCtx c x).setCtx d y = (s.setCtx d y).setCtx c x := by
  cases c with
  | enc =>
    cases d with
    | enc => exact absurd rfl h
    | dec => rfl
  | dec =>
    cases d with
    | enc => rfl
    | dec => exact absurd rfl h

theorem takeDraw_setCtx (s : State) (c : Dir) (x : Context) :
    (s.setCtx c x).takeDraw = s.takeDraw.setCtx c x := by
  cases c <;> rfl

theorem raise_setCtx (opc : Byte) (e : CmdError) (s : State) (c : Dir) (x : Context) :
    raise opc e (s.setCtx c x) = (raise opc e s).setCtx c x := by
  cases c <;> rfl

theorem commit_setCtx (opc : Byte) (n : Nat) (s : State) (c : Dir) (x : Context) :
    commit opc n (s.setCtx c x) = (commit opc n s).setCtx c x := by
  cases c <;> rfl

theorem publish_setCtx (opc : Byte) (n : Nat) (b : Bytes) (s : State) (c : Dir) (x : Context) :
    publish opc n b (s.setCtx c x) = (publish opc n b s).setCtx c x := by
  cases c <;> rfl

/-- Two results that are the same but for a context, replaced in the first before and in the second after. -/
def replacesAfter (c : Dir) (x : Context) (r' r : Result) : Prop := r' = mapNext (fun t => t.setCtx c x) r

section
variable {c : Dir} {x : Context} {s : State}

theorem replacesAfter.raise (opc : Byte) (e : CmdError) :
    replacesAfter c x (.next (raise opc e (s.setCtx c x))) (.next (raise opc e s)) :=
  congrArg Host.Outcome.next (raise_setCtx opc e s c x)

theorem replacesAfter.commit (opc : Byte) (n : Nat) :
    replacesAfter c x (.next (commit opc n (s.setCtx c x))) (.next (commit opc n s)) :=
  congrArg Host.Outcome.next (commit_setCtx opc n s c x)

theorem replacesAfter.publish (opc : Byte) (n : Nat) (b : Bytes) :
    replacesAfter c x (.next (publish opc n b (s.setCtx c x))) (.next (publish opc n b s)) :=
  congrArg Host.Outcome.next (publish_setCtx opc n b s c x)

theorem replacesAfter.guarded {opc : Byte} {checks' checks : List Check} {body' body : Result}
    (hchecks : checks' = checks) (hbody : replacesAfter c x body' body) :
    replacesAfter c x (guarded opc checks' (s.setCtx c x) body') (guarded opc checks s body) := by
  subst hchecks
  cases hf : firstFailure checks' with
  | some e => rw [guarded_of_some hf, guarded_of_some hf]; exact .raise opc e
  | none => rw [guarded_of_none hf, guarded_of_none hf]; exact hbody

theorem replacesAfter.withBytes {r' r : Except Fault Bytes} {k' k : Bytes → Result} (hr : r' = r)
    (hk : ∀ b, replacesAfter c x (k' b) (k b)) : replacesAfter c x (withBytes r' k') (withBytes r k) := by
  subst hr
  cases r' with
  | ok b => exact hk b
  | error f => rfl

theorem replacesAfter.withDraw {k' k : Draw → State → Result}
    (hk : ∀ d, replacesAfter c x (k' d (s.takeDraw.setCtx c x)) (k d s.takeDraw)) :
    replacesAfter c x (withDraw (s.setCtx c x) k') (withDraw s k) := by
  rw [Machine.withDraw, Machine.withDraw, nextDraw_setCtx, takeDraw_setCtx]
  exact hk s.nextDraw

end

theorem execFbOf_setCtx (s : State) (c : Dir) (x : Context) :
    replacesAfter c x (execFbOf (s.setCtx c x)) (execFbOf s) :=
  .guarded (by simp) (.withBytes (by simp) fun b => .publish 0x01 16 (fixedBlock b))

theorem execFbXor_setCtx (s : State) (c : Dir) (x : Context) :
    replacesAfter c x (execFbXor (s.setCtx c x)) (execFbXor s) := by
  refine .guarded (by simp) (.withBytes (by simp) fun a => .withBytes (by simp) fun b => ?_)
  rw [src1_setCtx]
  exact .publish _ _ _

theorem execGfMul_setCtx (s : State) (c : Dir) (x : Context) :
    replacesAfter c x (execGfMul (s.setCtx c x)) (execGfMul s) :=
  .guarded (by simp) (.withBytes (by simp) fun _ => .withBytes (by simp) fun _ => .publish _ _ _)

theorem execGhash_setCtx (s : State) (c : Dir) (x : Context) :
    replacesAfter c x (execGhash (s.setCtx c x)) (execGhash s) :=
  .guarded (by simp) (.withBytes (by simp) fun _ => .withBytes (by simp) fun _ =>
    .withBytes (by simp) fun _ => .publish _ _ _)

section
variable {c d : Dir} (h : d ≠ c)
include h

theorem createContext_setCtx (m : Mode) (alg : Alg) (key : Bytes) (iv : Block) (s : State) (x : Context) :
    replacesAfter c x (createContext d m alg key iv (s.setCtx c x)) (createContext d m alg key iv s) := by
  unfold createContext
  rw [setCtx_config]
  cases createError s.config alg key with
  | some e =>
    simp only [setCtx_comm s h]
    exact .raise 0x10 e
  | none =>
    cases m with
    | cbc =>
      simp only [setCtx_comm s h]
      exact .commit 0x10 0
    | gcm =>
      simp only [setCtx_comm s h]
      refine .withDraw fun draw => ?_
      cases draw with
      | fail => exact .raise 0x10 .inCreate
      | ok =>
        simp only [setCtx_comm _ h]
        exact .commit 0x10 0

theorem execCtxCreate_setCtx (m : Mode) (alg : Alg) (s : State) (x : Context) :
    replacesAfter c x (execCtxCreate d m alg (s.setCtx c x)) (execCtxCreate d m alg s) := by
  cases m with
  | cbc =>
    exact .guarded (by simp) (.withBytes (by simp) fun key => .withBytes (by simp) fun iv =>
      createContext_setCtx h .cbc alg key _ s x)
  | gcm => exact .guarded (by simp) (.withBytes (by simp) fun key => createContext_setCtx h .gcm alg key 0 s x)

theorem execCtxDestroy_setCtx (s : State) (x : Context) :
    replacesAfter c x (execCtxDestroy d (s.setCtx c x)) (execCtxDestroy d s) := by
  rw [execCtxDestroy, setCtx_comm s h]
  exact .commit 0x11 0

theorem execCbcReseed_setCtx (s : State) (x : Context) :
    replacesAfter c x (execCbcReseed d (s.setCtx c x)) (execCbcReseed d s) := by
  refine .guarded (by simp [setCtx_ctx_of_ne s c d x h]) (.withBytes (by simp) fun iv => ?_)
  rw [setCtx_ctx_of_ne s c d x h, setCtx_comm s h]
  exact .commit 0x12 0

theorem cbcFinish_setCtx (n : Nat) (iv : Block) (data : Bytes) (s : State) (x : Context) :
    replacesAfter c x (.next (cbcFinish d n iv data (s.setCtx c x))) (.next (cbcFinish d n iv data s)) := by
  simp only [cbcFinish, setCtx_ctx_of_ne s c d x h, setCtx_comm s h]
  exact .publish _ _ _

theorem cbcUpdateBody_setCtx (iv : Block) (data : Bytes) (s : State) (x : Context) :
    replacesAfter c x (cbcUpdateBody d iv data (s.setCtx c x)) (cbcUpdateBody d iv data s) := by
  unfold cbcUpdateBody
  rw [src0_setCtx]
  split
  · refine .withDraw fun draw => ?_
    cases draw with
    | fail => exact .raise 0x20 .inUpdate
    | ok => exact cbcFinish_setCtx h _ iv data s.takeDraw x
  · exact cbcFinish_setCtx h _ iv data s x

theorem execCbcUpdate_setCtx (ivo : Bool) (s : State) (x : Context) :
    replacesAfter c x (execCbcUpdate d ivo (s.setCtx c x)) (execCbcUpdate d ivo s) := by
  have kept := setCtx_ctx_of_ne s c d x h
  cases ivo with
  | true =>
    exact .guarded (by simp [kept]) (.withBytes (by simp) fun data => .withBytes (by simp) fun iv =>
      cbcUpdateBody_setCtx h _ data s x)
  | false =>
    refine .guarded (by simp [kept]) (.withBytes (by simp) fun data => ?_)
    rw [kept]
    exact cbcUpdateBody_setCtx h _ data s x

theorem execGcmUpdate_setCtx (s : State) (x : Context) :
    replacesAfter c x (execGcmUpdate d (s.setCtx c x)) (execGcmUpdate d s) := by
  refine .guarded (by simp [setCtx_ctx_of_ne s c d x h]) (.withBytes (by simp) fun data =>
    .withBytes (by simp) fun aad => .withBytes (by simp) fun iv => .withDraw fun draw => ?_)
  cases draw with
  | fail => exact .raise 0x21 .inUpdate
  | ok =>
    simp only [gcmFinish, src0_setCtx, setCtx_ctx_of_ne s.takeDraw c d x h, setCtx_comm s.takeDraw h]
    exact .publish _ _ _

end

/-- A command commutes with replacing a context it does not address (R216). -/
theorem exec_setCtx {i : Instr} {c : Dir} (h : addressed i ≠ some c) (s : State) (x : Context) :
    replacesAfter c x (exec i (s.setCtx c x)) (exec i s) := by
  have other {d : Dir} (hd : addressed i = some d) : d ≠ c := fun e => h (e ▸ hd)
  cases i with
  | nop => exact .commit 0x00 0
  | fbOf => exact execFbOf_setCtx s c x
  | fbXor => exact execFbXor_setCtx s c x
  | gfMul => exact execGfMul_setCtx s c x
  | ghash => exact execGhash_setCtx s c x
  | ctxCreate d m a => exact execCtxCreate_setCtx (other rfl) m a s x
  | ctxDestroy d => exact execCtxDestroy_setCtx (other rfl) s x
  | cbcReseed d => exact execCbcReseed_setCtx (other rfl) s x
  | cbcUpdate d ivo => exact execCbcUpdate_setCtx (other rfl) ivo s x
  | gcmUpdate d => exact execGcmUpdate_setCtx (other rfl) s x

theorem setCtx_self (s : State) (c : Dir) : s.setCtx c (s.ctx c) = s := by cases c <;> rfl

/-- So it leaves that context: putting the old one back before changes nothing, and after it changes nothing. -/
theorem exec_keeps_unaddressed {i : Instr} {c : Dir} (h : addressed i ≠ some c) {s t : State}
    (hexec : exec i s = .next t) : t.ctx c = s.ctx c := by
  have back := exec_setCtx h s (s.ctx c)
  rw [setCtx_self, replacesAfter, hexec] at back
  have same : t = t.setCtx c (s.ctx c) := Host.Outcome.next.inj back
  rw [same, setCtx_ctx]

end Sys2Proof.Machine
end

section
/-! PROOFS. The statements about the order of the checks, failed draws, stops and frames of commands
(20_memory.md, 30_encoding.md, 40_primitive_context.md, 60_exceptions.md). -/

namespace Sys2Proof.Machine

/-- Settles O35: a failing check is the only end, and past the checks only CTX_CREATE and a draw can fail. -/
theorem checksFollowTheirOrder : Obligations.ChecksFollowTheirOrder := by
  refine fun i s => ⟨fun e h => exec_of_checkedError h, fun hc t h => ?_⟩
  rcases code_of_checked hc h with hcode | hcode | hcode <;> simp [hcode]

/-- Settles O36: PRIMITIVE_FAILURE needs a failed draw, and the two updates raise it where the draw fails. -/
theorem primitiveFailureChangesNothing : Obligations.PrimitiveFailureChangesNothing := by
  refine ⟨fun i s t hcan h hcode => ?_, fun i s word hi hc hdraw => ?_⟩
  · cases (nextDraw_of_cannot_fail hcan).symm.trans (nextDraw_of_primitiveFailure h hcode)
  · rcases hi with ⟨c, ivo, rfl, hpos, rfl, ⟨x, hx⟩, hover⟩ | ⟨c, rfl, rfl, hread⟩
    · obtain ⟨iv, hcarried, hoverride⟩ : ∃ iv, (ivo = false → iv = (s.ctx c).chain) ∧
          (ivo = true → ∃ b, (src2 s).bytes s.buf = .ok b ∧ iv = blockOfBytes b) := by
        cases ivo with
        | false => exact ⟨(s.ctx c).chain, fun _ => rfl, fun h => by cases h⟩
        | true =>
          obtain ⟨b, hb⟩ := hover rfl
          exact ⟨blockOfBytes b, (fun h => by cases h), fun _ => ⟨b, hb, rfl⟩⟩
      have hexec := (exec_cbcUpdate_of_checked hc hx hcarried hoverride).trans (cbcUpdateBody_of_fail hpos hdraw)
      exact ⟨_, hexec, by rw [raise_status]; rfl, rfl, rfl⟩
    · obtain ⟨x, hx⟩ := hread (src0 s) (by simp)
      obtain ⟨aad, haad⟩ := hread (src1 s) (by simp)
      obtain ⟨iv, hiv⟩ := hread (src2 s) (by simp)
      have hexec := exec_gcmUpdate_of_checked hc hx haad hiv
      rw [if_neg (by simp [hdraw])] at hexec
      exact ⟨_, hexec, by rw [raise_status]; rfl, rfl, rfl⟩

/-- Settles O38: by the ways a command can end. -/
theorem commandsStopOnlyOnUnwrittenBytes : Obligations.CommandsStopOnlyOnUnwrittenBytes := by
  intro i s
  have hend := exec_end i s
  generalize exec i s = r at hend ⊢
  cases hend with
  | fault a ha hlt => exact .inr ⟨a, rfl, by simp [Memory.written, ha], hlt⟩
  | _ => exact .inl ⟨_, rfl⟩

/-- Settles O40: no result leaves BUF, and a result is a store of RES_LEN bytes under a success report. -/
theorem bytesOutsideTheResultAreUnchanged : Obligations.BytesOutsideTheResultAreUnchanged := by
  intro i s t h
  rcases exec_result h with ⟨hlen, hbuf⟩ | ⟨hi, opc, n, b, u, rfl, hbuf, hdesc, hn, hd⟩
  · exact ⟨fun x _ => by rw [hbuf], fun _ => ⟨hlen, hbuf⟩⟩
  · refine ⟨?_, fun hno => hno.elim (fun hcode => absurd rfl hcode) fun hno => absurd hno hi⟩
    rw [publish_resLen_toNat opc b u hd, ← hbuf, ← hdesc]
    exact publish_sameBytesOutside opc hn u

/-- Settles O41: these are the commands that address no context. -/
theorem pureCommandsTouchNoContext : Obligations.PureCommandsTouchNoContext := by
  intro i s t h hi
  exact exec_pure h (by rcases hi with rfl | rfl | rfl | rfl | rfl <;> rfl)

/-- Settles O42: an update replaces CHAIN, and GCM_UPDATE the tag with it. -/
theorem updatesKeepTheKey : Obligations.UpdatesKeepTheKey := by
  intro i s t c h hi
  rcases exec_update_ctx h hi with ⟨chain, hctx⟩ | ⟨hgcm, chain, tag, hctx⟩
  · rw [hctx]
    exact ⟨rfl, fun _ => ⟨rfl, rfl⟩⟩
  · rw [hctx]
    exact ⟨rfl, fun hne => absurd hgcm hne⟩

/-- Settles O43: a command reads and writes contexts at the direction it addresses, so replacing another one
commutes with it. -/
theorem commandsIgnoreTheOtherContext : Obligations.CommandsIgnoreTheOtherContext :=
  fun _ s _ h => ⟨fun _ hexec => exec_keeps_unaddressed h hexec, fun x => exec_setCtx h s x⟩

end Sys2Proof.Machine
end
